-- ==== Sys2Proof/Word.lean ====
section
/-! DEFINITION. The widths of CORE's values (00_scope.md R7, R9). Everything is unsigned. -/

namespace Sys2Proof

/-- `u8` (00_scope.md R9). -/
abbrev Byte := BitVec 8

/-- `u32`, the word of the compression datapath (00_scope.md R7, R9). -/
abbrev Word := BitVec 32

/-- `u64` (00_scope.md R9). -/
abbrev DWord := BitVec 64

/-- `u256`, a boundary or a digest read as an integer (00_scope.md R7, R9). -/
abbrev U256 := BitVec 256

/-- A message block: exactly 64 bytes (00_scope.md R7). -/
abbrev Block := Vector Byte 64

/-- A chaining state: 8 words (00_scope.md R7). -/
abbrev Chain := Vector Word 8

/-- A digest: 32 bytes (00_scope.md R7). -/
abbrev Digest := Vector Byte 32

end Sys2Proof
end

