-- ==== Sys2Proof/Machine/Codec.lean ====
section
/-! DEFINITION. The Word/Block Codec (40_codec.md): big-endian bytes to and from words. Every function is total on inputs
of its stated size, and the sizes are in the types (R148). -/

namespace Sys2Proof

/-- `be32` (40_codec.md R140): `s[0]` is bits 31:24. -/
def be32 (s : Vector Byte 4) : Word := s[0] ++ s[1] ++ s[2] ++ s[3]

/-- `enc32` (40_codec.md R141). -/
def enc32 (w : Word) : Vector Byte 4 :=
  #v[w.extractLsb' 24 8, w.extractLsb' 16 8, w.extractLsb' 8 8, w.extractLsb' 0 8]

/-- `be64` (40_codec.md R142): the first word is the more significant. -/
def be64 (s : Vector Byte 8) : DWord :=
  be32 #v[s[0], s[1], s[2], s[3]] ++ be32 #v[s[4], s[5], s[6], s[7]]

/-- `enc64` (40_codec.md R142): byte `i` holds bits `63 - 8i .. 56 - 8i` (00_scope.md R12). -/
def enc64 (v : DWord) : Vector Byte 8 :=
  Vector.ofFn fun i : Fin 8 => v.extractLsb' (8 * (7 - i.val)) 8

/-- `bytesToWordsBE` (40_codec.md R143). -/
def bytesToWordsBE {k : Nat} (s : Vector Byte (4 * k)) : Vector Word k :=
  Vector.ofFn fun i : Fin k => be32 #v[s[4 * i.val], s[4 * i.val + 1], s[4 * i.val + 2], s[4 * i.val + 3]]

/-- `wordsToBytesBE` (40_codec.md R144): byte `i` is byte `i mod 4` of word `i / 4`. -/
def wordsToBytesBE {k : Nat} (w : Vector Word k) : Vector Byte (4 * k) :=
  Vector.ofFn fun i : Fin (4 * k) => (enc32 (w[i.val / 4]'(by omega)))[i.val % 4]'(by omega)

/-- `rev32` (40_codec.md R145). No command applies it; the rule keeps it for a model of a software host. -/
def rev32 (w : Word) : Word :=
  (w.extractLsb' 0 8).setWidth 32 <<< 24 ||| (w.extractLsb' 8 8).setWidth 32 <<< 16 |||
    (w.extractLsb' 16 8).setWidth 32 <<< 8 ||| (w.extractLsb' 24 8).setWidth 32

/-- `u256` (40_codec.md R147): `d[0]` is the most significant byte. -/
def u256 (d : Vector Byte 32) : U256 :=
  d.toList.foldl (fun acc b => acc * 256 + b.setWidth 256) 0

/-- The 32 bytes whose `u256` is `v` (00_scope.md R12, `bytes(32, v)`), for the encoder. -/
def enc256 (v : U256) : Vector Byte 32 :=
  Vector.ofFn fun i : Fin 32 => v.extractLsb' (8 * (31 - i.val)) 8

/-- `zeros(n)` (00_scope.md R12). -/
def zeros (n : Nat) : List Byte := List.replicate n 0

/-- `s[a..b)` read as a fixed number of bytes: the first `n` bytes of `bs` and the rest, when there are that many. -/
def takeBytes (n : Nat) (bs : List Byte) : Option (Vector Byte n × List Byte) :=
  if h : n ≤ bs.length then some (⟨(bs.take n).toArray, by simp [h]⟩, bs.drop n) else none

end Sys2Proof
end

