-- ==== Sys2Proof/Syntax.lean ====
section
/-! DEFINITION. The commands of CORE, one constructor per row of spec/opcode_table.json (30_encoding.md R104). -/

namespace Sys2Proof

/-- The comparison mode `M` of SEARCH (30_encoding.md R101): bit 0 is `lt`, bit 1 is `lte`. -/
inductive Mode where
  | lt
  | lte
  deriving DecidableEq, Repr

/-- A command with its operands, assembled as 30_encoding.md R106 says. The length operands `N` and `TLEN` are the
lengths of the byte strings they count (30_encoding.md R111: "The assembler fills in `N` and `TLEN` from the data's
length"; log 13). -/
inductive Instr where
  /-- INIT (42_hasher.md R203). -/
  | init
  /-- UPDATE N, DATA (42_hasher.md R204); `N` is the length of `data`. -/
  | update (data : List Byte)
  /-- FINALIZE (42_hasher.md R210). -/
  | finalize
  /-- HASH N, DATA (42_hasher.md R216); `N` is the length of `data`. -/
  | hash (data : List Byte)
  /-- COMPRESS VIN, BLK (41_compression.md R175). -/
  | compress (vin : Chain) (blk : Block)
  /-- STATUS (42_hasher.md R220). -/
  | status
  /-- SEARCH with `M = 0` (43_search.md R240); `TLEN` is the length of `tdata`. -/
  | searchLt (noff : Word) (lo hi : DWord) (bound : U256) (tdata : List Byte)
  /-- SEARCH with `M = 1` (43_search.md R240); `TLEN` is the length of `tdata`. -/
  | searchLte (noff : Word) (lo hi : DWord) (bound : U256) (tdata : List Byte)
  deriving DecidableEq, Repr

end Sys2Proof
end

