-- ==== Sys2Proof/WellFormed.lean ====
section
/-! DEFINITION. Which commands have an encoding: a length operand is a `u32`, so the bytes it counts are at most
`2^32 - 1` (30_encoding.md R103, R107). Every value of every other operand field is accepted (R107). -/

namespace Sys2Proof

/-- The byte string fits a `u32` length operand. -/
abbrev lengthFits (data : List Byte) : Prop := data.length < 2 ^ 32

/-- The command has an encoding. -/
def Instr.wf : Instr → Bool
  | .init => true
  | .update data => decide (lengthFits data)
  | .finalize => true
  | .hash data => decide (lengthFits data)
  | .compress _ _ => true
  | .status => true
  | .searchLt _ _ _ _ tdata => decide (lengthFits tdata)
  | .searchLte _ _ _ _ tdata => decide (lengthFits tdata)

end Sys2Proof
end

