-- ==== Sys2Proof/Decode.lean ====
section
/-! DEFINITION. The decoder of the command stream (30_encoding.md), total on any bytes, and the encoder after it. -/

namespace Sys2Proof

/-- Why a header is illegal (30_encoding.md R102). -/
inductive IllegalHeader where
  /-- `OPC` is none of the seven values of R104. -/
  | unassignedOpcode
  /-- `RSV` is not 0. -/
  | reservedBits
  /-- `M = 1` on a command other than SEARCH. -/
  | modeBit
  deriving DecidableEq, Repr

/-- What a legal header names (30_encoding.md R104), with SEARCH's mode bit. -/
inductive Header where
  | init
  | update
  | finalize
  | hash
  | compress
  | status
  | search (m : Mode)
  deriving DecidableEq, Repr

/-- What the bytes at the front of the command stream are. -/
inductive Decoded where
  /-- A whole frame of a legal command, and the bytes after it. -/
  | command (i : Instr) (rest : List Byte)
  /-- An illegal header: a frame of four bytes (R102), and the bytes after it. -/
  | illegal (why : IllegalHeader) (rest : List Byte)
  /-- Not yet a whole frame (R103). -/
  | incomplete
  deriving DecidableEq, Repr

/-- `OPC`, header bits 7:0 (30_encoding.md R101). -/
def headerOpc (h : Word) : Byte := h.extractLsb' 0 8

/-- `M`, header bit 8 (30_encoding.md R101). -/
def headerM (h : Word) : BitVec 1 := h.extractLsb' 8 1

/-- `RSV`, header bits 31:9 (30_encoding.md R101). -/
def headerRsv (h : Word) : BitVec 23 := h.extractLsb' 9 23

/-- The opcode map (30_encoding.md R104); `M` chooses the comparison mode of SEARCH (R101). -/
def opcodeMap (opc : Byte) (m : BitVec 1) : Option Header :=
  if opc = 0x01 then some .init
  else if opc = 0x02 then some .update
  else if opc = 0x03 then some .finalize
  else if opc = 0x04 then some .hash
  else if opc = 0x05 then some .compress
  else if opc = 0x06 then some .status
  else if opc = 0x10 then some (.search (if m = 1 then .lte else .lt))
  else none

/-- Header legality (30_encoding.md R102): an assigned `OPC`, `RSV = 0`, and `M = 0` unless `OPC = 0x10`. -/
def classifyHeader (h : Word) : Except IllegalHeader Header :=
  match opcodeMap (headerOpc h) (headerM h) with
  | none => .error .unassignedOpcode
  | some hd =>
    if headerRsv h ≠ 0 then .error .reservedBits
    else if headerM h ≠ 0 ∧ headerOpc h ≠ 0x10 then .error .modeBit
    else .ok hd

/-- A `u32` operand (30_encoding.md R106). -/
def takeWord (bs : List Byte) : Option (Word × List Byte) :=
  (takeBytes 4 bs).map fun (s, rest) => (be32 s, rest)

/-- A `u64` operand (30_encoding.md R106). -/
def takeDWord (bs : List Byte) : Option (DWord × List Byte) :=
  (takeBytes 8 bs).map fun (s, rest) => (be64 s, rest)

/-- A length operand and the payload it counts (30_encoding.md R103, R106). -/
def takeData (bs : List Byte) : Option (List Byte × List Byte) :=
  match takeWord bs with
  | none => none
  | some (n, rest) =>
    if n.toNat ≤ rest.length then some (rest.take n.toNat, rest.drop n.toNat) else none

/-- The operands of SEARCH: `NOFF`, `LO`, `HI`, `BOUND`, `TLEN`, `TDATA` (30_encoding.md R103). -/
def takeSearch (m : Mode) (bs : List Byte) : Option (Instr × List Byte) := do
  let (noff, bs) ← takeWord bs
  let (lo, bs) ← takeDWord bs
  let (hi, bs) ← takeDWord bs
  let (bound, bs) ← takeBytes 32 bs
  let (tdata, bs) ← takeData bs
  match m with
  | .lt => some (.searchLt noff lo hi (u256 bound) tdata, bs)
  | .lte => some (.searchLte noff lo hi (u256 bound) tdata, bs)

/-- The operands of COMPRESS: `VIN`, eight big-endian words, and `BLK` (30_encoding.md R103, R106). -/
def takeCompress (bs : List Byte) : Option (Instr × List Byte) := do
  let (vin, bs) ← takeBytes 32 bs
  let (blk, bs) ← takeBytes 64 bs
  some (.compress (bytesToWordsBE (k := 8) vin) blk, bs)

/-- What follows the header of each command (30_encoding.md R103). -/
def takeOperands (hd : Header) (bs : List Byte) : Option (Instr × List Byte) :=
  match hd with
  | .init => some (.init, bs)
  | .update => (takeData bs).map fun (data, rest) => (.update data, rest)
  | .finalize => some (.finalize, bs)
  | .hash => (takeData bs).map fun (data, rest) => (.hash data, rest)
  | .compress => takeCompress bs
  | .status => some (.status, bs)
  | .search m => takeSearch m bs

/-- The decoder: reads one frame from the front of the command stream (30_encoding.md R100 to R106). -/
def decode (bs : List Byte) : Decoded :=
  match takeWord bs with
  | none => .incomplete
  | some (h, rest) =>
    match classifyHeader h with
    | .error why => .illegal why rest
    | .ok hd =>
      match takeOperands hd rest with
      | some (i, rest) => .command i rest
      | none => .incomplete

/-! ### The encoder -/

/-- The header word of a command (30_encoding.md R101, R104). -/
def headerWord : Instr → Word
  | .init => 0x00000001
  | .update _ => 0x00000002
  | .finalize => 0x00000003
  | .hash _ => 0x00000004
  | .compress _ _ => 0x00000005
  | .status => 0x00000006
  | .searchLt _ _ _ _ _ => 0x00000010
  | .searchLte _ _ _ _ _ => 0x00000110

/-- A length operand and its payload (30_encoding.md R103). -/
def encodeData (data : List Byte) : List Byte :=
  (enc32 (BitVec.ofNat 32 data.length)).toList ++ data

/-- SEARCH's operands in frame order (30_encoding.md R103). -/
def encodeSearch (noff : Word) (lo hi : DWord) (bound : U256) (tdata : List Byte) : List Byte :=
  (enc32 noff).toList ++ (enc64 lo).toList ++ (enc64 hi).toList ++ (enc256 bound).toList ++ encodeData tdata

/-- The operands of a command in frame order (30_encoding.md R103). -/
def encodeOperands : Instr → List Byte
  | .init => []
  | .update data => encodeData data
  | .finalize => []
  | .hash data => encodeData data
  | .compress vin blk => (wordsToBytesBE vin).toList ++ blk.toList
  | .status => []
  | .searchLt noff lo hi bound tdata => encodeSearch noff lo hi bound tdata
  | .searchLte noff lo hi bound tdata => encodeSearch noff lo hi bound tdata

/-- The frame of a well-formed command (30_encoding.md R100, R103). -/
def encode (i : Instr) : List Byte := (enc32 (headerWord i)).toList ++ encodeOperands i

/-! ### Words as the opcode table numbers them -/

/-- Four consecutive bytes of a list as a big-endian number; bytes past its end count as 0. -/
def wordAt (bs : List Byte) (a : Nat) : Nat :=
  (be32 #v[bs.getD a 0, bs.getD (a + 1) 0, bs.getD (a + 2) 0, bs.getD (a + 3) 0]).toNat

/-- The length of the frame that starts with these bytes, from its header and its length operand (30_encoding.md R103). -/
def frameLength (bs : List Byte) : Nat :=
  match classifyHeader (BitVec.ofNat 32 (wordAt bs 0)) with
  | .error _ => 4
  | .ok .init => 4
  | .ok .update => 8 + wordAt bs 4
  | .ok .finalize => 4
  | .ok .hash => 8 + wordAt bs 4
  | .ok .compress => 100
  | .ok .status => 4
  | .ok (.search _) => 60 + wordAt bs 56

/-- The first `n` bytes on the wire of the words whose bits are `w`: 32-bit words, the first word in bits 31:0, each sent
most significant byte first (30_encoding.md R101). -/
def layoutBytes (n w : Nat) : List Byte :=
  (List.range n).map fun i => BitVec.ofNat 8 (w >>> (32 * (i / 4) + 8 * (3 - i % 4)))

/-- The whole frame whose first `nbits` bits are `w` and whose other bits are 0. -/
def tableWordBytes (nbits w : Nat) : List Byte :=
  layoutBytes (frameLength (layoutBytes 60 (w % 2 ^ nbits))) (w % 2 ^ nbits)

/-- The instruction the decoder reads from that frame. -/
def decodeTableWord (nbits w : Nat) : Option Instr :=
  match decode (tableWordBytes nbits w) with
  | .command i _ => some i
  | .illegal _ _ => none
  | .incomplete => none

end Sys2Proof
end

