-- ==== Sys2Proof/Config.lean ====
section
/-! DEFINITION. What a build of CORE fixes (00_scope.md R8), and the values the spec leaves open: opaque constants,
so that no proof can lean on what they are. -/

namespace Sys2Proof

/-- The most bytes a hasher context may absorb: `LEN_CAP = 2^29 - 1` (42_hasher.md R207). -/
def LEN_CAP : Nat := 2 ^ 29 - 1

/-- The two OPEN parameters of 00_scope.md R8. State holds them (log 6), so a claim about every state is a claim about
every build. -/
structure Config where
  /-- `NWORKERS`, an integer at least 1 (92_eei_decisions.md D16). -/
  nworkers : Nat
  /-- `TMPL_MAX`, with `8 <= TMPL_MAX <= 2^29 - 1` (92_eei_decisions.md D17). -/
  tmplMax : Nat
  deriving DecidableEq, Repr

/-- The ranges 00_scope.md R8 gives the two parameters. -/
abbrev Config.wf (c : Config) : Prop := 1 ≤ c.nworkers ∧ 8 ≤ c.tmplMax ∧ c.tmplMax ≤ 2 ^ 29 - 1

namespace Config

/-- How many workers the chip has beyond the first. OPEN (log 6). -/
opaque chipExtraWorkers : Nat

/-- By how much the chip's template memory falls short of the largest. OPEN (log 6). -/
opaque chipTemplateShortfall : Nat

/-- The chip's own parameters: any legal pair (log 6). -/
def chip : Config where
  nworkers := chipExtraWorkers + 1
  tmplMax := (2 ^ 29 - 1) - chipTemplateShortfall % (2 ^ 29 - 8)

/-- What `V` holds after reset: the spec gives it no value (70_reset_and_hazards.md R320). Index 0 is the host context,
`k + 1` worker `k` (log 4). -/
opaque powerOnV : Nat → Chain

/-- What each byte of `BUF` holds after reset; the first index as for `powerOnV` (log 4). -/
opaque powerOnBufByte : Nat → Nat → Byte

/-- What `BUF` holds after reset: 64 bytes, none of them known (log 4). -/
def powerOnBuf (k : Nat) : Block := Vector.ofFn fun i : Fin 64 => powerOnBufByte k i.val

/-- What `FILL` of worker `k`'s private context holds after reset (log 4). -/
opaque powerOnFill : Nat → Fin 64

/-- What `LEN` of worker `k`'s private context holds after reset (log 4). -/
opaque powerOnLen : Nat → DWord

/-- What `CUR[k]` holds after reset (log 4). -/
opaque powerOnCur : Nat → DWord

/-- What `END[k]` holds after reset (log 4). -/
opaque powerOnEnd : Nat → DWord

/-- What `BOUND` holds after reset (log 4). -/
opaque powerOnBound : U256

/-- The free choice of a worker at search step `t`, when nothing else decides it (93_implementation_defined.md U7; log 1). -/
opaque freeSchedule : Nat → Nat

end Config

end Sys2Proof
end

