-- ==== Sys2Proof/Machine/Sm3.lean ====
section
/-! DEFINITION. The Compression Core's functions (41_compression.md R160 to R177), and the hash as a function of the whole
message (42_hasher.md R214, R215). The working register, the expansion words and the round counter are local values, as
10_state.md R34 allows (log 7). -/

namespace Sys2Proof

/-- `rotl(x, n)`: left rotation by `n mod 32` (00_scope.md R11). -/
def rotl (x : Word) (n : Nat) : Word := x <<< (n % 32) ||| x >>> (32 - n % 32)

/-- The initial value `IV` (41_compression.md R160). -/
def IV : Chain :=
  #v[0x7380166f, 0x4914b2b9, 0x172442d7, 0xda8a0600, 0xa96f30bc, 0x163138aa, 0xe38dee4d, 0xb0fb0e4e]

/-- `P0` (41_compression.md R161). -/
def P0 (x : Word) : Word := x ^^^ rotl x 9 ^^^ rotl x 17

/-- `P1` (41_compression.md R162). -/
def P1 (x : Word) : Word := x ^^^ rotl x 15 ^^^ rotl x 23

/-- `FF_j` (41_compression.md R163). -/
def FF (j : Nat) (x y z : Word) : Word :=
  if j ≤ 15 then x ^^^ y ^^^ z else (x &&& y) ||| (x &&& z) ||| (y &&& z)

/-- `GG_j` (41_compression.md R164). -/
def GG (j : Nat) (x y z : Word) : Word :=
  if j ≤ 15 then x ^^^ y ^^^ z else (x &&& y) ||| (~~~x &&& z)

/-- `T_j` (41_compression.md R165). -/
def T (j : Nat) : Word := if j ≤ 15 then 0x79cc4519 else 0x7a879d8a

/-- `Trot_j` (41_compression.md R165). -/
def Trot (j : Nat) : Word := rotl (T j) j

/-- The block load (41_compression.md R166): `W[0..15]`. -/
def loadBlock (b : Block) : Vector Word 16 := bytesToWordsBE (k := 16) b

/-- The right-hand side of the recurrence at `W[j]`, for `j = i + 16` (41_compression.md R167). -/
def expandRhs (w : Vector Word 68) (i : Fin 52) : Word :=
  P1 (w[i.val] ^^^ w[i.val + 7] ^^^ rotl w[i.val + 13] 15) ^^^ rotl w[i.val + 3] 7 ^^^ w[i.val + 10]

/-- `W[0..67]` (41_compression.md R166, R167): the loaded words, then the recurrence in the order `j = 16, 17, ..., 67`. -/
def expandW (b : Block) : Vector Word 68 :=
  (List.finRange 52).foldl (fun w i => w.set (i.val + 16) (expandRhs w i))
    (loadBlock b ++ Vector.replicate 52 (0 : Word))

/-- `W'[j]` (41_compression.md R168). -/
def wPrime (w : Vector Word 68) (j : Fin 64) : Word := w[j.val] ^^^ w[j.val + 4]

/-- The working register `A..H` (10_state.md R31). -/
structure WorkReg where
  a : Word
  b : Word
  c : Word
  d : Word
  e : Word
  f : Word
  g : Word
  h : Word
  deriving DecidableEq, Repr

/-- Round `j` (41_compression.md R169): every new value is computed from the old register. -/
def sm3Round (r : WorkReg) (j : Nat) (w w' : Word) : WorkReg :=
  let ss1 := rotl (rotl r.a 12 + r.e + Trot j) 7
  let ss2 := ss1 ^^^ rotl r.a 12
  let tt1 := FF j r.a r.b r.c + r.d + ss2 + w'
  let tt2 := GG j r.e r.f r.g + r.h + ss1 + w
  { a := tt1, b := r.a, c := rotl r.b 9, d := r.c, e := P0 tt2, f := r.e, g := rotl r.f 19, h := r.g }

/-- The working-register load (41_compression.md R170). -/
def loadReg (v : Chain) : WorkReg :=
  { a := v[0], b := v[1], c := v[2], d := v[3], e := v[4], f := v[5], g := v[6], h := v[7] }

/-- The register after rounds `0 .. n - 1` over the expansion `w` (41_compression.md R171). -/
def runRounds (w : Vector Word 68) (js : List (Fin 64)) (r : WorkReg) : WorkReg :=
  js.foldl (fun r j => sm3Round r j.val w[j.val] (wPrime w j)) r

/-- The words of the register in the order `A..H` (41_compression.md R171). -/
def WorkReg.words (r : WorkReg) : Chain := #v[r.a, r.b, r.c, r.d, r.e, r.f, r.g, r.h]

/-- The compression function `CF` (41_compression.md R171), with the word-wise feed-forward of R176. -/
def CF (v : Chain) (b : Block) : Chain :=
  let r := (runRounds (expandW b) (List.finRange 64) (loadReg v)).words
  Vector.ofFn fun i : Fin 8 => r[i.val] ^^^ v[i.val]

/-- `wordsToBytesBE` on a chaining state: the digest bytes (42_hasher.md R213). -/
def digestOf (v : Chain) : Digest := wordsToBytesBE (k := 8) v

/-! ### The hash as a function -/

/-- The number of zero bytes of the padding: `(55 - n) mod 64` (42_hasher.md R214). -/
def padZeros (n : Nat) : Nat := (119 - n % 64) % 64

/-- `pad(m)` (42_hasher.md R214). -/
def pad (m : List Byte) : List Byte :=
  m ++ [0x80] ++ zeros (padZeros m.length) ++ zeros 4 ++ (enc32 (BitVec.ofNat 32 (8 * m.length))).toList

/-- `s[64i .. 64i+64)` as a block (42_hasher.md R215). -/
def blockAt (s : List Byte) (i : Nat) : Block := Vector.ofFn fun j : Fin 64 => s.getD (64 * i + j.val) 0

/-- `V_n` for the first `n` blocks of `s`, from `v` (41_compression.md R177; 42_hasher.md R215). -/
def chainBlocks (v : Chain) (s : List Byte) (n : Nat) : Chain :=
  (List.range n).foldl (fun v i => CF v (blockAt s i)) v

/-- `SM3(m)` (42_hasher.md R215), defined by the spec for `|m| <= LEN_CAP`. -/
def sm3 (m : List Byte) : Digest := digestOf (chainBlocks IV (pad m) ((pad m).length / 64))

end Sys2Proof
end

