-- ==== Sys2Proof/Machine/State.lean ====
section
/-! DEFINITION. The state of CORE as plain data (10_state.md), its reset value (70_reset_and_hazards.md R320), and the
reasons a step can stop. -/

namespace Sys2Proof.Machine

/-- Why no step is possible, or what access no rule allows. -/
inductive Fault where
  /-- Raised by the port when CORE is READY and the command stream holds no whole frame and nothing more is coming: the
  `stuck` case of 93_implementation_defined.md S11 (70_reset_and_hazards.md R324). Safe: the machine stops where the
  hardware waits (log 3). -/
  | awaitingFrame
  /-- Raised by the port when a response is pending and the host does not accept it and does nothing more: the `stuck`
  case of 93_implementation_defined.md S12 (70_reset_and_hazards.md R331). Safe (log 3). -/
  | awaitingAcceptance
  /-- Raised by a worker that reads a byte of `TMPL` that has no value (70_reset_and_hazards.md R320). No run from reset
  reaches it. Safe (log 5). -/
  | templateByteUnwritten
  /-- Raised by an access to `TMPL` outside `0 .. TMPL_MAX - 1`, where the primitives of 00_scope.md R14 are not defined. No
  run from reset reaches it (20_memory.md R81). Safe (log 5). -/
  | templateOutOfRange
  /-- Raised by the engine when the port is BUSY and no rule enables a step: no SEARCH is running or has ended. No run from
  reset reaches it (10_state.md R45). Safe (log 10). -/
  | noRuleApplies
  deriving DecidableEq, Repr

/-- Why an instruction is refused. Every instruction of CORE has a meaning, so `exec` never answers one. -/
inductive Refusal where
  /-- Raised by `exec` for an instruction that has no meaning yet. Safe. -/
  | notModelled (mnemonic : String)
  deriving DecidableEq, Repr

/-- `CMDSTATE` (10_state.md R45). -/
inductive CmdState where
  | ready
  | busy
  deriving DecidableEq, Repr

/-- `HPHASE` (10_state.md R35). -/
inductive HPhase where
  | idle
  | active
  | done
  | error
  deriving DecidableEq, Repr

/-- `SPHASE` (10_state.md R40); the reserved value 3 is never produced. -/
inductive SPhase where
  | idle
  | searching
  | done
  deriving DecidableEq, Repr

/-- `OUTCOME` (10_state.md R43); the reserved value 3 is never produced. -/
inductive SearchOutcome where
  | none
  | found
  | exhausted
  deriving DecidableEq, Repr

/-- `WST[k]` (10_state.md R44). -/
inductive WorkerState where
  | run
  | stop
  deriving DecidableEq, Repr

/-- A hash context: the registers `V`, `BUF`, `FILL`, `LEN` (10_state.md R36 to R39). The host hasher has one and so has
every worker (R44). -/
structure HashCtx where
  v : Chain
  buf : Block
  fill : Fin 64
  len : DWord
  deriving DecidableEq, Repr

/-- One worker's state (10_state.md R44): `WST[k]`, `CUR[k]`, `END[k]` and its private hash context. -/
structure Worker where
  st : WorkerState
  cur : DWord
  endN : DWord
  ctx : HashCtx
  deriving DecidableEq, Repr

/-- What the host does to CORE (70_reset_and_hazards.md R324), one event a step (log 2). -/
inductive HostEvent where
  /-- The host sends one byte of the command stream. -/
  | send (b : Byte)
  /-- The host begins (`true`) or stops (`false`) accepting responses. -/
  | accepting (on : Bool)
  /-- The host resets CORE (R321). -/
  | reset
  /-- The host does nothing for one step of CORE. -/
  | letRun
  deriving DecidableEq, Repr

/-- The whole machine. -/
structure State where
  /-- The build's parameters (00_scope.md R8, log 6); no step writes them. -/
  config : Config
  /-- `CMDSTATE` (10_state.md R45). -/
  cmdState : CmdState
  /-- The command stream: bytes sent by the host and not yet consumed (20_memory.md R70). -/
  rx : List Byte
  /-- The response stream: bytes sent and not yet accepted by the host (20_memory.md R70, 70_reset_and_hazards.md R331). -/
  tx : List Byte
  /-- `HPHASE` (10_state.md R35). -/
  hphase : HPhase
  /-- The host hasher context: `V`, `BUF`, `FILL`, `LEN` (10_state.md R36 to R39). -/
  hctx : HashCtx
  /-- `SPHASE` (10_state.md R40). -/
  sphase : SPhase
  /-- `TMPL` (10_state.md R41): the bytes that have a value, addresses strictly rising. -/
  tmpl : List Host.Cell
  /-- `TLEN` (10_state.md R41). -/
  tlen : Word
  /-- `NOFF` (10_state.md R41). -/
  noff : Word
  /-- `LO` (10_state.md R41). -/
  lo : DWord
  /-- `HI` (10_state.md R41). -/
  hi : DWord
  /-- `BOUND` (10_state.md R41). -/
  bound : U256
  /-- `MODE` (10_state.md R41). -/
  mode : Mode
  /-- `FOUND` (10_state.md R42). -/
  found : Bool
  /-- `RNONCE` (10_state.md R42). -/
  rnonce : DWord
  /-- `OUTCOME` (10_state.md R43). -/
  outcome : SearchOutcome
  /-- The workers, in the order of their numbers `k` (10_state.md R44). -/
  workers : List Worker
  /-- The MODEL's own: the host's actions still to come, in order (log 2). -/
  host : List HostEvent
  /-- The MODEL's own: whether the host accepts a response that is sent (log 11). -/
  hostAccepts : Bool
  /-- The MODEL's own: the response bytes the host has accepted so far (log 11). -/
  accepted : List Byte
  /-- The MODEL's own: the scheduler's choices still to come, one a worker step (log 1). -/
  sched : List Nat
  /-- The MODEL's own: the counter of the free scheduler choice (log 1). -/
  tick : Nat
  deriving DecidableEq, Repr

/-- The outcome of a step. -/
abbrev Result := Host.Outcome State Fault Refusal

/-- Worker `k` after reset: `STOP`; the rest has no value in the spec (70_reset_and_hazards.md R320; log 4). -/
def Worker.powerOn (k : Nat) : Worker where
  st := .stop
  cur := Config.powerOnCur k
  endN := Config.powerOnEnd k
  ctx :=
    { v := Config.powerOnV (k + 1), buf := Config.powerOnBuf (k + 1)
      fill := Config.powerOnFill k, len := Config.powerOnLen k }

/-- The machine of a given build right after reset (70_reset_and_hazards.md R320). -/
def State.resetOf (c : Config) : State where
  config := c
  cmdState := .ready
  rx := []
  tx := []
  hphase := .idle
  hctx := { v := Config.powerOnV 0, buf := Config.powerOnBuf 0, fill := 0, len := 0 }
  sphase := .idle
  tmpl := []
  tlen := 0
  noff := 0
  lo := 0
  hi := 0
  bound := Config.powerOnBound
  mode := .lt
  found := false
  rnonce := 0
  outcome := .none
  workers := (List.range c.nworkers).map Worker.powerOn
  host := []
  hostAccepts := true
  accepted := []
  sched := []
  tick := 0

/-- The machine right after reset (70_reset_and_hazards.md R320), for the chip's own parameters (log 6). -/
def State.reset : State := State.resetOf Config.chip

end Sys2Proof.Machine
end

