-- ==== Sys2Proof/Machine/Ops.lean ====
section
/-! DEFINITION. The named operations over the registers, the two byte memories and the port. -/

namespace Sys2Proof.Machine

/-! ### Status codes and responses -/

/-- The status codes (60_exceptions.md R291). -/
inductive Status where
  | ok
  | inputTooLarge
  | misuse
  | configError
  | illegalCmd
  deriving DecidableEq, Repr

/-- The number of a status (60_exceptions.md R291). -/
def Status.code : Status → Byte
  | .ok => 0x00
  | .inputTooLarge => 0x01
  | .misuse => 0x02
  | .configError => 0x03
  | .illegalCmd => 0x04

/-- Sends a response frame: the status byte, then the payload (30_encoding.md R108). `CMDSTATE` returns to READY
(10_state.md R45). -/
def respond (st : Status) (payload : List Byte) (s : State) : State :=
  { s with tx := s.tx ++ st.code :: payload, cmdState := .ready }

/-- `raise E` (00_scope.md R15, 60_exceptions.md R298): the one-byte response, and the port is READY. Nothing is saved, no
mode changes, and there is no return-from-error command (R299). What the rule writes before the `raise` is already in `s`. -/
def raise (e : Status) (s : State) : Result := .next (respond e [] s)

/-- Ends a command normally with status `OK` and its payload (30_encoding.md R108). -/
def finishOk (payload : List Byte) (s : State) : Result := .next (respond .ok payload s)

/-! ### The template memory (00_scope.md R14, 20_memory.md R81) -/

/-- The canonical form of a byte memory: addresses strictly rising. An unlisted address has no value, so no entry can
repeat what an unlisted address reads as (log 5). -/
def memWf : List Host.Cell → Bool
  | [] => true
  | [_] => true
  | (a, _) :: (b, y) :: m => decide (a < b) && memWf ((b, y) :: m)

/-- The byte at an address, if it has a value. -/
def memByte : List Host.Cell → Nat → Option Byte
  | [], _ => none
  | (b, y) :: m, a => if a = b then some y else memByte m a

/-- `M[a] <- x`, keeping the canonical form. -/
def memSet : List Host.Cell → Nat → Byte → List Host.Cell
  | [], a, x => [(a, x)]
  | (b, y) :: m, a, x =>
    if a < b then (a, x) :: (b, y) :: m
    else if a = b then (a, x) :: m
    else (b, y) :: memSet m a x

/-- `M[a+i] <- v[i]` for every byte of `v`, in order. -/
def memSetAll (m : List Host.Cell) (a : Nat) : List Byte → List Host.Cell
  | [] => m
  | x :: xs => memSetAll (memSet m a x) (a + 1) xs

/-- The `n` bytes from `a` on; a byte with no value faults. -/
def memBytes (m : List Host.Cell) (a : Nat) : Nat → Except Fault (List Byte)
  | 0 => .ok []
  | n + 1 =>
    match memByte m a with
    | none => .error .templateByteUnwritten
    | some x =>
      match memBytes m (a + 1) n with
      | .ok xs => .ok (x :: xs)
      | .error f => .error f

/-- `MemRead(M, a, n)`, defined only for `a + n <= |M|` (00_scope.md R14). -/
def memRead (size : Nat) (m : List Host.Cell) (a n : Nat) : Except Fault (List Byte) :=
  if a + n ≤ size then memBytes m a n else .error .templateOutOfRange

/-- `MemWrite(M, a, n, v)`, defined only for `a + n <= |M|` (00_scope.md R14). -/
def memWrite (size : Nat) (m : List Host.Cell) (a : Nat) (v : List Byte) : Except Fault (List Host.Cell) :=
  if a + v.length ≤ size then .ok (memSetAll m a v) else .error .templateOutOfRange

/-! ### The block buffer and the hash context (42_hasher.md) -/

/-- `BUF[a+i] <- v[i]` for every byte of `v`, in order. Every use is inside the 64 bytes (20_memory.md R80). -/
def bufWrite (buf : Block) (a : Nat) : List Byte → Block
  | [] => buf
  | x :: xs => bufWrite (buf.setIfInBounds a x) (a + 1) xs

/-- `ctx_init()` (42_hasher.md R202): `BUF` is not written. -/
def HashCtx.init (c : HashCtx) : HashCtx := { c with v := IV, fill := 0, len := 0 }

/-- `absorb(b)` (42_hasher.md R201). -/
def HashCtx.absorb (c : HashCtx) (b : Byte) : HashCtx :=
  let buf := c.buf.set c.fill b
  if c.fill.val + 1 = 64 then { c with buf := buf, v := CF c.v buf, fill := 0 }
  else { c with buf := buf, fill := c.fill + 1 }

/-- `for i in 0 .. N-1: absorb(DATA[i])` (42_hasher.md R204). -/
def HashCtx.absorbAll (c : HashCtx) (data : List Byte) : HashCtx := data.foldl HashCtx.absorb c

/-- `bitlen <- 8 * LEN`, a `u32` (42_hasher.md R210). Below the cap nothing is lost (R207; log 9). -/
def HashCtx.bitlen (c : HashCtx) : Word := (8 * c.len).setWidth 32

/-- Single-block padding (42_hasher.md R211), for `FILL <= 55`, `BUF[FILL] = 0x80` already written in `buf`. -/
def HashCtx.padOne (c : HashCtx) (buf : Block) : HashCtx :=
  let buf := bufWrite buf (c.fill.val + 1) (zeros (55 - c.fill.val))
  let buf := bufWrite buf 56 (zeros 4)
  let buf := bufWrite buf 60 (enc32 c.bitlen).toList
  { c with buf := buf, v := CF c.v buf }

/-- Two-block padding (42_hasher.md R212), for `56 <= FILL`, `BUF[FILL] = 0x80` already written in `buf`. -/
def HashCtx.padTwo (c : HashCtx) (buf : Block) : HashCtx :=
  let buf := bufWrite buf (c.fill.val + 1) (zeros (63 - c.fill.val))
  let v := CF c.v buf
  let buf := bufWrite buf 0 (zeros 56)
  let buf := bufWrite buf 56 (zeros 4)
  let buf := bufWrite buf 60 (enc32 c.bitlen).toList
  { c with buf := buf, v := CF v buf }

/-- The body of FINALIZE on a context (42_hasher.md R210), from `bitlen <- 8 * LEN` to `FILL <- 0`; `LEN` is unchanged. -/
def HashCtx.finish (c : HashCtx) : HashCtx :=
  let buf := c.buf.set c.fill 0x80
  let c := if c.fill.val ≤ 55 then c.padOne buf else c.padTwo buf
  { c with fill := 0 }

/-- A whole message through a context: `ctx_init()`, absorb, `LEN <- N`, the body of FINALIZE (42_hasher.md R216). -/
def HashCtx.hashAll (c : HashCtx) (data : List Byte) : HashCtx :=
  HashCtx.finish { c.init.absorbAll data with len := BitVec.ofNat 64 data.length }

/-! ### The result slot (43_search.md R256) -/

/-- `report(n)`, the arbiter's write-once test-and-set (43_search.md R256). -/
def report (n : DWord) (s : State) : State :=
  if s.found = false then { s with found := true, rnonce := n } else s

/-- Writes back worker `k`. -/
def setWorker (k : Nat) (w : Worker) (s : State) : State := { s with workers := s.workers.set k w }

end Sys2Proof.Machine
end

