-- ==== Sys2Proof/Machine/Compression.lean ====
section
/-! DEFINITION. The COMPRESS command (41_compression.md R175). -/

namespace Sys2Proof.Machine

/-- COMPRESS VIN, BLK (41_compression.md R175): a stateless command, legal in every phase. -/
def execCompress (vin : Chain) (blk : Block) (s : State) : Result := finishOk (digestOf (CF vin blk)).toList s

end Sys2Proof.Machine
end

