-- ==== Sys2Proof/Machine/Flags.lean ====
section
/-! DEFINITION. The status word and the numbers its fields show (10_state.md R35, R40, R43, R47), and the boundary
comparator (43_search.md R251, R252). No arithmetic operation sets a flag (10_state.md R49). -/

namespace Sys2Proof.Machine

/-- The number of an `HPHASE` value (10_state.md R35). -/
def HPhase.code : HPhase → BitVec 2
  | .idle => 0
  | .active => 1
  | .done => 2
  | .error => 3

/-- The number of an `SPHASE` value (10_state.md R40). -/
def SPhase.code : SPhase → BitVec 2
  | .idle => 0
  | .searching => 1
  | .done => 2

/-- The number of an `OUTCOME` value (10_state.md R43). -/
def SearchOutcome.code : SearchOutcome → BitVec 2
  | .none => 0
  | .found => 1
  | .exhausted => 2

/-- The number of a `MODE` value (10_state.md R41). -/
def modeCode : Mode → BitVec 1
  | .lt => 0
  | .lte => 1

/-- `SW` (42_hasher.md R220, 10_state.md R47). -/
def statusWord (s : State) : Word :=
  s.hphase.code.setWidth 32 ||| s.sphase.code.setWidth 32 <<< 2 ||| BitVec.ofNat 32 s.hctx.fill.val <<< 4 |||
    (modeCode s.mode).setWidth 32 <<< 10 ||| (BitVec.ofBool s.found).setWidth 32 <<< 11 |||
    s.outcome.code.setWidth 32 <<< 12

/-- `qualifies(d)`, unsigned and on all 256 bits (43_search.md R251, R252). -/
def qualifies (mode : Mode) (bound : U256) (d : Digest) : Bool :=
  match mode with
  | .lt => decide ((u256 d).toNat < bound.toNat)
  | .lte => decide ((u256 d).toNat ≤ bound.toNat)

end Sys2Proof.Machine
end

