-- ==== Sys2Proof/Machine/Hasher.lean ====
section
/-! DEFINITION. The Streaming Hasher's commands (42_hasher.md): INIT, UPDATE, FINALIZE, HASH, STATUS. -/

namespace Sys2Proof.Machine

/-- INIT (42_hasher.md R203): legal in every phase. -/
def execInit (s : State) : Result := finishOk [] { s with hctx := s.hctx.init, hphase := .active }

/-- UPDATE N, DATA (42_hasher.md R204): the phase checks, then the cap check, then the bytes. -/
def execUpdate (data : List Byte) (s : State) : Result :=
  match s.hphase with
  | .idle => raise .misuse s
  | .done => raise .misuse s
  | .error => raise .inputTooLarge s
  | .active =>
    if LEN_CAP < s.hctx.len.toNat + data.length then raise .inputTooLarge { s with hphase := .error }
    else
      finishOk []
        { s with hctx := { s.hctx.absorbAll data with len := s.hctx.len + BitVec.ofNat 64 data.length } }

/-- FINALIZE (42_hasher.md R210): the phase checks, then the padding and the digest. -/
def execFinalize (s : State) : Result :=
  match s.hphase with
  | .idle => raise .misuse s
  | .done => raise .misuse s
  | .error => raise .inputTooLarge s
  | .active => finishOk (digestOf s.hctx.finish.v).toList { s with hctx := s.hctx.finish, hphase := .done }

/-- HASH N, DATA (42_hasher.md R216): legal in every phase; the context is re-initialised before the cap check. -/
def execHash (data : List Byte) (s : State) : Result :=
  if LEN_CAP < data.length then raise .inputTooLarge { s with hctx := s.hctx.init, hphase := .error }
  else
    finishOk (digestOf (s.hctx.hashAll data).v).toList { s with hctx := s.hctx.hashAll data, hphase := .done }

/-- STATUS (42_hasher.md R220): legal in every phase, writes nothing. -/
def execStatus (s : State) : Result :=
  finishOk ((enc32 (statusWord s)).toList ++ (enc64 s.hctx.len).toList ++ (enc64 s.rnonce).toList) s

end Sys2Proof.Machine
end

