-- ==== Sys2Proof/Machine/Operands.lean ====
section
/-! DEFINITION. The operand forms of SEARCH: its configuration checks, the partition of its range, and the candidate
message (43_search.md R241 to R243, R250). The other commands use their operands as they are. -/

namespace Sys2Proof.Machine

/-- The configuration checks, in order, on unbounded integers (43_search.md R241); `true` when one fails. -/
def configFails (tmplMax tlen noff lo hi : Nat) : Bool :=
  if tmplMax < tlen then true
  else if tlen < noff + 8 then true
  else if hi ≤ lo then true
  else false

/-- `c = ceil(L / NWORKERS)` (43_search.md R243). -/
def chunkSize (nworkers L : Nat) : Nat := (L + nworkers - 1) / nworkers

/-- `LO + min(k * c, L)` with `L = HI - LO`, on unbounded integers (43_search.md R243): where worker `k`'s sub-range starts,
and where worker `k - 1`'s ends. -/
def cutPoint (nworkers lo hi k : Nat) : Nat := lo + min (k * chunkSize nworkers (hi - lo)) (hi - lo)

/-- The sub-range `[CUR[k], END[k])` given to worker `k` (43_search.md R243). -/
def subRange (nworkers : Nat) (lo hi : DWord) (k : Nat) : DWord × DWord :=
  (BitVec.ofNat 64 (cutPoint nworkers lo.toNat hi.toNat k), BitVec.ofNat 64 (cutPoint nworkers lo.toNat hi.toNat (k + 1)))

/-- Worker `k` at the start of a search (43_search.md R243); its private context is not written. -/
def startWorker (nworkers : Nat) (lo hi : DWord) (k : Nat) (w : Worker) : Worker :=
  { w with st := .run, cur := (subRange nworkers lo hi k).1, endN := (subRange nworkers lo hi k).2 }

/-- `cand(n) = TMPL[0..NOFF) || enc64(n) || TMPL[NOFF+8 .. TLEN)` (43_search.md R250). -/
def cand (s : State) (n : DWord) : Except Fault (List Byte) :=
  match memRead s.config.tmplMax s.tmpl 0 s.noff.toNat with
  | .error f => .error f
  | .ok before =>
    match memRead s.config.tmplMax s.tmpl (s.noff.toNat + 8) (s.tlen.toNat - (s.noff.toNat + 8)) with
    | .error f => .error f
    | .ok after => .ok (before ++ (enc64 n).toList ++ after)

end Sys2Proof.Machine
end

