-- ==== Sys2Proof/Machine/Search.lean ====
section
/-! DEFINITION. The Nonce Search Engine (43_search.md): the SEARCH command's own step, which checks, loads and starts the
workers, and the later steps of the workers and of the engine. -/

namespace Sys2Proof.Machine

/-- The engine's first step after the checks pass (43_search.md R242, R243): the template bytes are already in `tmpl`.
`CMDSTATE` is BUSY until the response is sent (10_state.md R45). -/
def loadSearch (m : Mode) (noff : Word) (lo hi : DWord) (bound : U256) (tlen : Nat) (tmpl : List Host.Cell)
    (s : State) : State :=
  { s with
    tmpl := tmpl, tlen := BitVec.ofNat 32 tlen, noff := noff, lo := lo, hi := hi, bound := bound, mode := m
    found := false, rnonce := 0, outcome := .none, sphase := .searching, cmdState := .busy
    workers := s.workers.mapIdx (startWorker s.config.nworkers lo hi) }

/-- SEARCH up to the start of its workers (43_search.md R240): the configuration checks (R241), then the load and the
partition. -/
def startSearch (m : Mode) (noff : Word) (lo hi : DWord) (bound : U256) (tdata : List Byte) (s : State) : Result :=
  if configFails s.config.tmplMax tdata.length noff.toNat lo.toNat hi.toNat then raise .configError s
  else
    match memWrite s.config.tmplMax s.tmpl 0 tdata with
    | .error f => .fault f
    | .ok tmpl => .next (loadSearch m noff lo hi bound tdata.length tmpl s)

/-- SEARCH.LT (43_search.md R240, `M = 0`). -/
def execSearchLt (noff : Word) (lo hi : DWord) (bound : U256) (tdata : List Byte) (s : State) : Result :=
  startSearch .lt noff lo hi bound tdata s

/-- SEARCH.LTE (43_search.md R240, `M = 1`). -/
def execSearchLte (noff : Word) (lo hi : DWord) (bound : U256) (tdata : List Byte) (s : State) : Result :=
  startSearch .lte noff lo hi bound tdata s

/-! ### The agents' steps -/

/-- The workers with `WST[k] = RUN`, each with its number `k` (43_search.md R254). -/
def runningWorkers (s : State) : List (Worker × Nat) := s.workers.zipIdx.filter fun p => p.1.st = .run

/-- The scheduler's choice at this step: the next number of `sched`, or a free value when none is left (log 1). -/
def schedChoice (s : State) : Nat :=
  match s.sched with
  | n :: _ => n
  | [] => Config.freeSchedule s.tick

/-- The worker that moves: any enabled one may (93_implementation_defined.md U7). With one enabled worker there is nothing
to choose; otherwise the choice, taken modulo the number of enabled workers, selects it (log 1). -/
def pickWorker (s : State) : Option (Worker × Nat) :=
  match runningWorkers s with
  | [] => none
  | [p] => some p
  | p :: q :: ps => (p :: q :: ps)[schedChoice s % (p :: q :: ps).length]?

/-- The scheduler's choice is used up. -/
def useChoice (s : State) : State := { s with sched := s.sched.tail, tick := s.tick + 1 }

/-- A worker step (43_search.md R254), for worker `k` with state `w`. -/
def workerStep (k : Nat) (w : Worker) (s : State) : Result :=
  if s.found = true then .next (setWorker k { w with st := .stop } s)
  else if w.cur = w.endN then .next (setWorker k { w with st := .stop } s)
  else
    match cand s w.cur with
    | .error f => .fault f
    | .ok m =>
      if qualifies s.mode s.bound (digestOf (w.ctx.hashAll m).v) then
        .next (setWorker k { w with st := .stop, ctx := w.ctx.hashAll m } (report w.cur s))
      else .next (setWorker k { w with cur := w.cur + 1, ctx := w.ctx.hashAll m } s)

/-- The end step (43_search.md R259). -/
def endStep (s : State) : State :=
  { s with outcome := if s.found = true then .found else .exhausted, sphase := .done }

/-- The response of SEARCH (43_search.md R260, 30_encoding.md R108), after which the port is READY. -/
def searchResponse (s : State) : Result :=
  match s.outcome with
  | .found => finishOk (0x01 :: (enc64 s.rnonce).toList) s
  | .exhausted => finishOk (0x02 :: zeros 8) s
  | .none => .fault .noRuleApplies

/-- One step while a SEARCH holds the port: a running worker moves; when every worker has stopped, the end step; after the
end step, the response (43_search.md R254, R259, R260; log 10). -/
def engineStep (s : State) : Result :=
  match s.sphase with
  | .searching =>
    match pickWorker s with
    | some (w, k) => workerStep k w (useChoice s)
    | none => .next (endStep s)
  | .done => searchResponse s
  | .idle => .fault .noRuleApplies

end Sys2Proof.Machine
end

