-- ==== Sys2Proof/Machine/Dispatch.lean ====
section
/-! DEFINITION. One arm per command. -/

namespace Sys2Proof.Machine

def exec (i : Instr) (s : State) : Host.Outcome State Fault Refusal :=
  match i with
  | .init => Sys2Proof.Machine.execInit s
  | .update data => Sys2Proof.Machine.execUpdate data s
  | .finalize => Sys2Proof.Machine.execFinalize s
  | .hash data => Sys2Proof.Machine.execHash data s
  | .compress vin blk => Sys2Proof.Machine.execCompress vin blk s
  | .status => Sys2Proof.Machine.execStatus s
  | .searchLt noff lo hi bound tdata => Sys2Proof.Machine.execSearchLt noff lo hi bound tdata s
  | .searchLte noff lo hi bound tdata => Sys2Proof.Machine.execSearchLte noff lo hi bound tdata s

end Sys2Proof.Machine
end

