-- ==== Sys2Proof/Machine/Port.lean ====
section
/-! DEFINITION. The command port: what it does next when CORE is READY (10_state.md R45, 20_memory.md R83,
70_reset_and_hazards.md R324, R331), the answer to an illegal header (60_exceptions.md R295), and what the host does. -/

namespace Sys2Proof.Machine

/-- What the port does next when `CMDSTATE` is READY. -/
inductive PortAction where
  /-- Nothing is possible until the host acts. -/
  | wait (why : Fault)
  /-- The host accepts the pending response. -/
  | accept
  /-- A four-byte frame with an illegal header is taken. -/
  | illegal (rest : List Byte)
  /-- A whole frame is taken. -/
  | command (i : Instr) (rest : List Byte)
  deriving DecidableEq, Repr

/-- The next header is taken only after the whole previous response has been accepted (70_reset_and_hazards.md R331), and
only with its whole frame (30_encoding.md R103). -/
def portAction (s : State) : PortAction :=
  match s.tx with
  | _ :: _ => if s.hostAccepts = true then .accept else .wait .awaitingAcceptance
  | [] =>
    match decode s.rx with
    | .command i rest => .command i rest
    | .illegal _ rest => .illegal rest
    | .incomplete => .wait .awaitingFrame

/-- The host takes the whole pending response (log 11). -/
def acceptResponse (s : State) : State := { s with accepted := s.accepted ++ s.tx, tx := [] }

/-- The frame is consumed, whether or not the command then fails (30_encoding.md R103). -/
def takeFrame (rest : List Byte) (s : State) : State := { s with rx := rest }

/-- The answer to an illegal header: no state changes (30_encoding.md R102, R105; 60_exceptions.md R295). -/
def execIllegal (s : State) : Result := raise .illegalCmd s

/-- Reset (70_reset_and_hazards.md R320, R321): CORE's own state; what belongs to the host and to the scheduler stays
(log 12). -/
def resetCore (s : State) : State :=
  { State.resetOf s.config with
    host := s.host, hostAccepts := s.hostAccepts, accepted := s.accepted, sched := s.sched, tick := s.tick }

/-- The bytes of a frame placed at the front of the command stream, with the port ready to take it (log 14). -/
def placeFrame (frame : List Byte) (s : State) : State :=
  { acceptResponse s with rx := frame ++ s.rx, cmdState := .ready, host := .letRun :: s.host }

/-- A wait of CORE while the host has more to do is no stop: nothing changes (70_reset_and_hazards.md R324). -/
def orWait (s : State) : Result → Result
  | .next t => .next t
  | .fault .awaitingFrame => .next s
  | .fault .awaitingAcceptance => .next s
  | .fault f => .fault f
  | .refused r => .refused r

end Sys2Proof.Machine
end

