-- ==== Sys2Proof/Machine/Step.lean ====
section
/-! DEFINITION. One step of the machine. -/

namespace Sys2Proof.Machine

/-- One step of CORE itself: READY, the port (10_state.md R46); BUSY, the search engine (43_search.md). -/
def coreStep (s : State) : Result :=
  match s.cmdState with
  | .busy => engineStep s
  | .ready =>
    match portAction s with
    | .wait f => .fault f
    | .accept => .next (acceptResponse s)
    | .illegal rest => execIllegal (takeFrame rest s)
    | .command i rest => exec i (takeFrame rest s)

/-- One event of the host (70_reset_and_hazards.md R324). -/
def hostStep (e : HostEvent) (s : State) : Result :=
  match e with
  | .send b => .next { s with rx := s.rx ++ [b] }
  | .accepting on => .next { s with hostAccepts := on }
  | .reset => .next (resetCore s)
  | .letRun => orWait s (coreStep s)

/-- One step: the host's next event, if one is to come; else CORE moves by itself (log 2). -/
def step (s : State) : Host.Outcome State Fault Refusal :=
  match s.host with
  | e :: es => hostStep e { s with host := es }
  | [] => coreStep s

/-- The frame whose bits the opcode table numbers `w`, placed where the next step takes it (log 14). -/
def State.withFetchWord (s : State) (nbits w : Nat) : State := placeFrame (tableWordBytes nbits w) s

end Sys2Proof.Machine
end

