-- ==== Sys2Proof/Safety.lean ====
section
/-! DEFINITION. The terms in which claims speak: what stays the same, what message a context holds, what qualifies, and
the invariant of every reachable state. -/

namespace Sys2Proof.Machine

/-! ### What stays the same -/

/-- The host hasher is untouched: `HPHASE`, `V`, `BUF`, `FILL`, `LEN` (10_state.md R35 to R39). -/
abbrev SameHasher (s t : State) : Prop := t.hphase = s.hphase ∧ t.hctx = s.hctx

/-- The search configuration is untouched (10_state.md R41). -/
abbrev SameSearchConfig (s t : State) : Prop :=
  t.tmpl = s.tmpl ∧ t.tlen = s.tlen ∧ t.noff = s.noff ∧ t.lo = s.lo ∧ t.hi = s.hi ∧ t.bound = s.bound ∧ t.mode = s.mode

/-- The result slot and `OUTCOME` are untouched (10_state.md R42, R43). -/
abbrev SameResult (s t : State) : Prop := t.found = s.found ∧ t.rnonce = s.rnonce ∧ t.outcome = s.outcome

/-- The whole search engine is untouched (10_state.md R40 to R44). -/
abbrev SameSearch (s t : State) : Prop :=
  SameSearchConfig s t ∧ SameResult s t ∧ t.sphase = s.sphase ∧ t.workers = s.workers

/-- The build, the unread command stream, and what belongs to the host and to the scheduler are untouched. -/
abbrev SameOutside (s t : State) : Prop :=
  t.config = s.config ∧ t.rx = s.rx ∧ t.host = s.host ∧ t.hostAccepts = s.hostAccepts ∧ t.accepted = s.accepted ∧
    t.sched = s.sched ∧ t.tick = s.tick

/-- Exactly this response was sent and `CMDSTATE` is READY (30_encoding.md R108, 10_state.md R45). -/
abbrev Responds (s t : State) (response : List Byte) : Prop := t.tx = s.tx ++ response ∧ t.cmdState = .ready

/-- The padded block of "abc", the input of the spec's examples (41_compression.md R166). -/
def abcBlock : Block :=
  (Vector.replicate 64 0x00).set 0 0x61 |>.set 1 0x62 |>.set 2 0x63 |>.set 3 0x80 |>.set 63 0x18

/-! ### The message a context holds -/

/-- The context has absorbed exactly the message `m` since its initialisation (41_compression.md R177, 10_state.md R36 to
R39): `V` chains the whole blocks of `m`, `BUF[0..FILL)` holds the rest, and `LEN` counts the bytes. -/
structure HashCtx.Holds (c : HashCtx) (m : List Byte) : Prop where
  v_eq : c.v = chainBlocks IV m (m.length / 64)
  fill_eq : c.fill.val = m.length % 64
  buf_eq : c.buf.toList.take c.fill.val = m.drop (64 * (m.length / 64))
  len_eq : c.len.toNat = m.length

/-! ### Qualifying nonces -/

/-- `qualifies(SM3(cand(n)))` under the loaded configuration (00_scope.md R17; 43_search.md R250, R252). -/
def Qualifying (s : State) (n : DWord) : Prop :=
  ∃ m, cand s n = .ok m ∧ qualifies s.mode s.bound (sm3 m) = true

/-! ### The invariant -/

/-- The build's parameters are in the ranges of 00_scope.md R8, and there are `NWORKERS` workers (10_state.md R44). -/
structure BuildInv (s : State) : Prop where
  config_wf : s.config.wf
  workers_length : s.workers.length = s.config.nworkers

/-- The template memory is in canonical form and lies inside `TMPL_MAX` (20_memory.md R81). -/
structure TemplateInv (s : State) : Prop where
  tmpl_wf : memWf s.tmpl = true
  tmpl_bound : ∀ a b, memByte s.tmpl a = some b → a < s.config.tmplMax

/-- The host context's counters (10_state.md R38, R39; 42_hasher.md R207): the length is under the cap, and the fill is the
length modulo 64 while a message is being absorbed or was refused. -/
structure HasherInv (s : State) : Prop where
  len_cap : s.hctx.len.toNat ≤ LEN_CAP
  idle_zero : s.hphase = .idle → s.hctx.fill.val = 0 ∧ s.hctx.len.toNat = 0
  fill_mod : s.hphase = .active ∨ s.hphase = .error → s.hctx.fill.val = s.hctx.len.toNat % 64
  done_fill : s.hphase = .done → s.hctx.fill.val = 0

/-- The port (10_state.md R45): READY outside a search; BUSY during a search and until its response is sent, with no
earlier response pending (70_reset_and_hazards.md R331). -/
structure PortInv (s : State) : Prop where
  ready_not_searching : s.cmdState = .ready → s.sphase ≠ .searching
  busy_tx : s.cmdState = .busy → s.tx = []
  busy_phase : s.cmdState = .busy → s.sphase ≠ .idle

/-- The loaded configuration is one that passed the checks (43_search.md R241, R242) and its template bytes have values. -/
structure Loaded (s : State) : Prop where
  nonce_fits : s.noff.toNat + 8 ≤ s.tlen.toNat
  template_fits : s.tlen.toNat ≤ s.config.tmplMax
  range_nonempty : s.lo.toNat < s.hi.toNat
  template_written : ∀ a, a < s.tlen.toNat → (memByte s.tmpl a).isSome = true

/-- Worker `k` in its sub-range (43_search.md R243, R254): it is somewhere between the sub-range's two ends; while nothing
is found, it has tested without success every nonce below its cursor, and it stops only at the end. -/
structure WorkerInv (s : State) (k : Nat) (w : Worker) : Prop where
  cur_ge : cutPoint s.config.nworkers s.lo.toNat s.hi.toNat k ≤ w.cur.toNat
  cur_le : w.cur.toNat ≤ w.endN.toNat
  end_eq : w.endN.toNat = cutPoint s.config.nworkers s.lo.toNat s.hi.toNat (k + 1)
  tested : s.found = false → ∀ n : DWord,
    cutPoint s.config.nworkers s.lo.toNat s.hi.toNat k ≤ n.toNat → n.toNat < w.cur.toNat → ¬ Qualifying s n
  stopped : s.found = false → w.st = .stop → w.cur = w.endN

/-- The search engine in each phase (43_search.md R254 to R262). -/
structure SearchInv (s : State) : Prop where
  idle_clear : s.sphase = .idle → s.found = false ∧ s.outcome = .none
  loaded : s.sphase ≠ .idle → Loaded s
  searching_outcome : s.sphase = .searching → s.outcome = .none
  done_outcome : s.sphase = .done → s.outcome = if s.found = true then .found else .exhausted
  stopped_outside : s.sphase ≠ .searching → ∀ w ∈ s.workers, w.st = .stop
  slot_clear : s.found = false → s.rnonce = 0
  found_sound : s.found = true →
    s.lo.toNat ≤ s.rnonce.toNat ∧ s.rnonce.toNat < s.hi.toNat ∧ Qualifying s s.rnonce
  worker_inv : s.sphase = .searching → ∀ k w, s.workers[k]? = some w → WorkerInv s k w
  exhausted_complete : s.sphase = .done → s.found = false → ∀ n : DWord,
    s.lo.toNat ≤ n.toNat → n.toNat < s.hi.toNat → ¬ Qualifying s n

/-- The invariant of every reachable state. -/
structure Inv (s : State) : Prop where
  build : BuildInv s
  template : TemplateInv s
  hasher : HasherInv s
  port : PortInv s
  search : SearchInv s

/-! ### Runs -/

/-- A command as the host sends it: a legal one, or a header that is illegal (30_encoding.md R102). -/
inductive Command where
  | legal (i : Instr)
  | illegal (h : Word)
  deriving DecidableEq, Repr

/-- A legal command that has an encoding, or a header that is indeed illegal. -/
def Command.wf : Command → Bool
  | .legal i => i.wf
  | .illegal h => !(classifyHeader h).isOk

/-- The frame of a command; an illegal one is its four header bytes (30_encoding.md R102, R103). -/
def Command.frame : Command → List Byte
  | .legal i => encode i
  | .illegal h => (enc32 h).toList

/-- How many payload bytes follow the status `OK` in a command's response (30_encoding.md R108). -/
def payloadLength : Instr → Nat
  | .init => 0
  | .update _ => 0
  | .finalize => 32
  | .hash _ => 32
  | .compress _ _ => 32
  | .status => 20
  | .searchLt _ _ _ _ _ => 9
  | .searchLte _ _ _ _ _ => 9

/-- The bytes are one whole response to the command (30_encoding.md R108): the status byte, then with `OK` the payload; to an
illegal header `ILLEGAL_CMD` alone (60_exceptions.md R295). -/
def IsResponse : Command → List Byte → Prop
  | .legal i, r => ∃ (st : Status) (payload : List Byte), st ≠ .illegalCmd ∧ r = st.code :: payload ∧
      payload.length = if st = .ok then payloadLength i else 0
  | .illegal _, r => r = [Status.illegalCmd.code]

/-- Every response byte sent, whether or not the host has accepted it. -/
def sentBytes (s : State) : List Byte := s.accepted ++ s.tx

/-- The end of a run of the command sequence `cmds` from the state `start` (70_reset_and_hazards.md R325): the response of every
command, so of the last, has been sent; the port is READY; no search is running. Whether the host has accepted the last response
makes no difference. -/
structure AtEnd (start : State) (cmds : List Command) (s : State) : Prop where
  last_sent : ∃ responses, List.Forall₂ IsResponse cmds responses ∧ sentBytes s = sentBytes start ++ responses.flatten
  ready : s.cmdState = .ready
  not_searching : s.sphase ≠ .searching

/-- The answer is a next state. -/
abbrev Completes (r : Result) : Prop := ∃ t, r = .next t

/-- The data bytes an UPDATE carries; no other command counts. -/
def updateData : Instr → List Byte
  | .update data => data
  | .init => []
  | .finalize => []
  | .hash _ => []
  | .compress _ _ => []
  | .status => []
  | .searchLt _ _ _ _ _ => []
  | .searchLte _ _ _ _ _ => []

/-- Commands run one after another by `exec`, each from the state the one before left. -/
def execAll : List Instr → State → Result
  | [], s => .next s
  | i :: is, s =>
    match exec i s with
    | .next t => execAll is t
    | .fault f => .fault f
    | .refused r => .refused r

end Sys2Proof.Machine
end

