-- ==== Sys2Proof/Certificates/Slice0/Obligations.lean ====
section
/-! DEFINITION. The statements for the provers, in the order of the spec: codec and encoding, compression, hasher, search,
port and reset, and the invariant of the whole machine. -/

open Sys2Proof Sys2Proof.Machine

/-! ### Codec and encoding -/

/-- 40_codec.md R140: `be32(s) = s[0]*2^24 + s[1]*2^16 + s[2]*2^8 + s[3]`, so `s[0]` is bits 31:24; with R140's corner cases and
example. -/
def Obligations.WordReadsBigEndian : Prop :=
  (∀ s : Vector Byte 4,
    (be32 s).toNat = s[0].toNat * 2 ^ 24 + s[1].toNat * 2 ^ 16 + s[2].toNat * 2 ^ 8 + s[3].toNat ∧
    (be32 s).extractLsb' 24 8 = s[0]) ∧
  be32 #v[0, 0, 0, 0] = 0 ∧ be32 #v[0xff, 0xff, 0xff, 0xff] = 0xffffffff ∧ be32 #v[0x61, 0x62, 0x63, 0x80] = 0x61626380

/-- 40_codec.md R147: `u256(d)` is the sum of `d[i] * 256^(31-i)`; and, as R147 derives, the sum of the eight big-endian words
with the first the most significant. -/
def Obligations.DigestIntegerIsBigEndian : Prop :=
  ∀ d : Digest,
    (u256 d).toNat = ∑ i : Fin 32, d[i].toNat * 256 ^ (31 - i.val) ∧
    (u256 d).toNat = ∑ i : Fin 8, (bytesToWordsBE (k := 8) d)[i].toNat * 2 ^ (32 * (7 - i.val))

/-- 30_encoding.md sections 1 to 3: decoding the frame of a well-formed command, whatever follows it on the stream, gives that
command back with every operand, and exactly the bytes that follow. -/
def Obligations.DecodeOfEncodeIsTheCommand : Prop :=
  ∀ (i : Instr) (rest : List Byte), i.wf = true → decode (encode i ++ rest) = .command i rest

/-- 30_encoding.md sections 1 to 3, the other direction: whatever decodes to a command is that command's frame followed by the
rest, and the command is well-formed. So every command has one frame. -/
def Obligations.DecodedBytesAreTheEncoding : Prop :=
  ∀ (bs : List Byte) (i : Instr) (rest : List Byte), decode bs = .command i rest → bs = encode i ++ rest ∧ i.wf = true

/-- 30_encoding.md section 1 (R103): a stream that ends inside a frame holds no command: every proper prefix of a well-formed command's
frame is incomplete. With 70_reset_and_hazards.md section 2 (log 3): a READY port with such a stream, and a host that does
nothing more, is stuck. -/
def Obligations.PartOfAFrameWaits : Prop :=
  ∀ (i : Instr) (n : Nat), i.wf = true → n < (encode i).length →
    decode ((encode i).take n) = .incomplete ∧
    ∀ s : State, s.host = [] → s.cmdState = .ready → s.tx = [] → s.rx = (encode i).take n →
      step s = .fault .awaitingFrame

/-- 30_encoding.md R102: a command is legal when `OPC` is one of the seven values, `RSV = 0`, and `M = 0` unless
`OPC = 0x10`; otherwise the frame is the four header bytes alone and CORE answers `ILLEGAL_CMD`. 60_exceptions.md R295: the
next byte is read as the next header and no state changes. -/
def Obligations.IllegalHeaderIsAnsweredAlone : Prop :=
  ∀ (w : Word) (rest : List Byte),
    let opc := w.toNat % 256
    let m := w.toNat / 256 % 2
    let rsv := w.toNat / 512
    let legal := opc ∈ [0x01, 0x02, 0x03, 0x04, 0x05, 0x06, 0x10] ∧ rsv = 0 ∧ (m = 0 ∨ opc = 0x10)
    (legal → ∀ why r, decode ((enc32 w).toList ++ rest) ≠ .illegal why r) ∧
    (¬ legal → (∃ why, decode ((enc32 w).toList ++ rest) = .illegal why rest) ∧
      ∀ s : State, s.host = [] → s.cmdState = .ready → s.tx = [] → s.rx = (enc32 w).toList ++ rest →
        ∃ t, step s = .next t ∧ Responds s t [0x04] ∧ t.rx = rest ∧ SameHasher s t ∧ SameSearch s t ∧
          SameOutside { s with rx := rest } t)

/-- 30_encoding.md section 7: worked encodings, byte by byte, decode to the commands they stand for. -/
def Obligations.WorkedEncodingsDecode : Prop :=
  decode [0x00, 0x00, 0x00, 0x01] = .command .init [] ∧
  decode [0x00, 0x00, 0x00, 0x02, 0x00, 0x00, 0x00, 0x03, 0x61, 0x62, 0x63] = .command (.update [0x61, 0x62, 0x63]) [] ∧
  decode [0x00, 0x00, 0x00, 0x02, 0x00, 0x00, 0x00, 0x00] = .command (.update []) [] ∧
  decode [0x00, 0x00, 0x00, 0x03] = .command .finalize [] ∧
  decode [0x00, 0x00, 0x00, 0x06] = .command .status [] ∧
  decode ([0x00, 0x00, 0x01, 0x10, 0x00, 0x00, 0x00, 0x00, 0x00, 0x00, 0x00, 0x00, 0x00, 0x00, 0x00, 0x00,
    0x00, 0x00, 0x00, 0x00, 0x00, 0x00, 0x00, 0x04] ++ List.replicate 32 0xff ++ [0x00, 0x00, 0x00, 0x08] ++
    List.replicate 8 0x00) = .command (.searchLte 0 0 4 (BitVec.allOnes 256) (List.replicate 8 0)) [] ∧
  decode [0x00, 0x00, 0x01, 0x01] = .illegal .modeBit []

/-! ### Compression -/

/-- 00_scope.md section 5: `rotl(x, n)` is the left rotation by `n mod 32`: bit `i` of the result is bit `i - n` modulo 32. -/
def Obligations.RotationIsModulo32 : Prop :=
  ∀ (x : Word) (n i : Nat), i < 32 → (rotl x n).getLsbD i = x.getLsbD ((i + (32 - n % 32)) % 32)

/-- 41_compression.md R166, R167 and R168: the block's 16 big-endian words, the recurrence for `W[16..67]` over the final
words, and `W'[j] = W[j] ^ W[j+4]`; with the rules' corner case and examples. -/
def Obligations.ExpansionMeetsTheRecurrence : Prop :=
  (∀ b : Block,
    (∀ i : Fin 16, (expandW b)[i.val] = be32 #v[b[4 * i.val], b[4 * i.val + 1], b[4 * i.val + 2], b[4 * i.val + 3]]) ∧
    (∀ j : Fin 68, 16 ≤ j.val → (expandW b)[j] =
      P1 ((expandW b)[j.val - 16] ^^^ (expandW b)[j.val - 9] ^^^ rotl (expandW b)[j.val - 3] 15) ^^^
        rotl (expandW b)[j.val - 13] 7 ^^^ (expandW b)[j.val - 6]) ∧
    (∀ j : Fin 64, wPrime (expandW b) j = (expandW b)[j.val] ^^^ (expandW b)[j.val + 4])) ∧
  (∀ j : Fin 68, (expandW (Vector.replicate 64 0))[j] = 0) ∧
  (expandW abcBlock)[0] = 0x61626380 ∧ (∀ i : Fin 14, (expandW abcBlock)[i.val + 1] = 0) ∧ (expandW abcBlock)[15] = 0x18 ∧
  (expandW abcBlock)[16] = 0x9092e200 ∧ (expandW abcBlock)[19] = 0x719c70ed ∧ (expandW abcBlock)[67] = 0xb99c0545 ∧
  wPrime (expandW abcBlock) 0 = 0x61626380 ∧ wPrime (expandW abcBlock) 11 = 0x18 ∧
  wPrime (expandW abcBlock) 15 = 0x719c70f5

/-- 41_compression.md R169, R170 and R171: `CF` loads `A..H` from the chaining state, takes the 64 rounds in order, each with
R169's equations on the register from before the round, and XORs the final register with the chaining state word by word;
with the rules' examples. -/
def Obligations.CompressionRunsTheRounds : Prop :=
  (∀ (v : Chain) (b : Block), ∃ r : Nat → WorkReg,
    r 0 = { a := v[0], b := v[1], c := v[2], d := v[3], e := v[4], f := v[5], g := v[6], h := v[7] } ∧
    (∀ j : Fin 64, ∀ ss1 ss2 tt1 tt2 : Word,
      ss1 = rotl (rotl (r j.val).a 12 + (r j.val).e + rotl (T j.val) (j.val % 32)) 7 →
      ss2 = ss1 ^^^ rotl (r j.val).a 12 →
      tt1 = FF j.val (r j.val).a (r j.val).b (r j.val).c + (r j.val).d + ss2 + wPrime (expandW b) j →
      tt2 = GG j.val (r j.val).e (r j.val).f (r j.val).g + (r j.val).h + ss1 + (expandW b)[j.val] →
      (r (j.val + 1)).d = (r j.val).c ∧ (r (j.val + 1)).c = rotl (r j.val).b 9 ∧ (r (j.val + 1)).b = (r j.val).a ∧
      (r (j.val + 1)).a = tt1 ∧ (r (j.val + 1)).h = (r j.val).g ∧ (r (j.val + 1)).g = rotl (r j.val).f 19 ∧
      (r (j.val + 1)).f = (r j.val).e ∧ (r (j.val + 1)).e = P0 tt2 ∧
      (v = IV → b = abcBlock → j = 0 →
        ss1 = 0x51368692 ∧ ss2 = 0x505071aa ∧ tt1 = 0xb9edc12b ∧ tt2 = 0xc067debb)) ∧
    CF v b = #v[(r 64).a ^^^ v[0], (r 64).b ^^^ v[1], (r 64).c ^^^ v[2], (r 64).d ^^^ v[3], (r 64).e ^^^ v[4],
      (r 64).f ^^^ v[5], (r 64).g ^^^ v[6], (r 64).h ^^^ v[7]]) ∧
  CF IV abcBlock =
    #v[0x66c7f0f4, 0x62eeedd9, 0xd1f2d46b, 0xdc10e4e2, 0x4167c487, 0x5cf2f7a2, 0x297da02b, 0x8f4ba8e0] ∧
  CF IV (Vector.replicate 64 0x00) =
    #v[0xa1203a40, 0x4a5566cd, 0x536fcee8, 0x20df7e13, 0x35c58f56, 0xb7c4c62e, 0x813c32cc, 0x47bf9b6c]

/-- 41_compression.md R175: COMPRESS completes in every phase, responds `OK` with the 32 bytes of `CF(VIN, BLK)`, and changes
nothing else; its frame is 100 bytes, header `0x00000005`, with `VIN` eight big-endian words. With the rule's example. -/
def Obligations.CompressCompletes : Prop :=
  ∀ (vin : Chain) (blk : Block) (s : State), ∃ t, exec (.compress vin blk) s = .next t ∧
    Responds s t (0x00 :: (wordsToBytesBE (k := 8) (CF vin blk)).toList) ∧
    SameHasher s t ∧ SameSearch s t ∧ SameOutside s t ∧
    (∀ (bytes : Vector Byte 32), bytesToWordsBE (k := 8) bytes = vin →
      encode (.compress vin blk) = [0x00, 0x00, 0x00, 0x05] ++ bytes.toList ++ blk.toList) ∧
    (encode (.compress vin blk)).length = 100 ∧
    (vin = IV → blk = abcBlock → t.tx = s.tx ++ [0x00,
      0x66, 0xc7, 0xf0, 0xf4, 0x62, 0xee, 0xed, 0xd9, 0xd1, 0xf2, 0xd4, 0x6b, 0xdc, 0x10, 0xe4, 0xe2,
      0x41, 0x67, 0xc4, 0x87, 0x5c, 0xf2, 0xf7, 0xa2, 0x29, 0x7d, 0xa0, 0x2b, 0x8f, 0x4b, 0xa8, 0xe0])

/-! ### Hasher -/

/-- 42_hasher.md R203: INIT completes in every phase: `V` is `IV`, `FILL` and `LEN` are 0, `HPHASE` is ACTIVE, no other state is
written, the response is `OK`; its frame is the header `0x00000001`. -/
def Obligations.InitCompletes : Prop :=
  encode .init = [0x00, 0x00, 0x00, 0x01] ∧
  ∀ s : State, ∃ t, exec .init s = .next t ∧ Responds s t [0x00] ∧
    (∀ i : Fin 8, t.hctx.v[i] = IV[i]) ∧ t.hctx.fill = 0 ∧ t.hctx.len = 0 ∧ t.hctx.buf = s.hctx.buf ∧
    t.hphase = .active ∧ SameSearch s t ∧ SameOutside s t

/-- 42_hasher.md sections 1 and 3: UPDATE in ACTIVE under the cap completes. `BUF[0..FILL)` and the data form one stream; its
whole blocks are compressed in order, `FILL` is what remains, `LEN` grows by `N`, and every byte of `BUF` is the last byte of
the stream written to its index, or unchanged where none was. -/
def Obligations.UpdateAbsorbs : Prop :=
  ∀ (data : List Byte) (s : State), s.hphase = .active → s.hctx.len.toNat + data.length ≤ LEN_CAP →
    let stream := s.hctx.buf.toList.take s.hctx.fill.val ++ data
    let q := (s.hctx.fill.val + data.length) / 64
    ∃ t, exec (.update data) s = .next t ∧ Responds s t [0x00] ∧ t.hphase = .active ∧
      t.hctx.len.toNat = s.hctx.len.toNat + data.length ∧
      t.hctx.fill.val = (s.hctx.fill.val + data.length) % 64 ∧
      t.hctx.v = chainBlocks s.hctx.v stream q ∧
      (∀ i : Fin 64, t.hctx.buf[i] =
        if i.val < t.hctx.fill.val then stream.getD (64 * q + i.val) 0
        else if 1 ≤ q then stream.getD (64 * (q - 1) + i.val) 0
        else s.hctx.buf[i]) ∧
      SameSearch s t ∧ SameOutside s t

/-- 42_hasher.md R205: UPDATE with `N = 0` in ACTIVE responds `OK` and changes nothing; in the other phases the phase checks
still apply. The premise on `LEN` is the cap that every reachable state keeps. -/
def Obligations.EmptyUpdateChangesNothing : Prop :=
  ∀ s : State, s.hctx.len.toNat ≤ LEN_CAP → ∃ t, exec (.update []) s = .next t ∧
    SameHasher s t ∧ SameSearch s t ∧ SameOutside s t ∧
    Responds s t (match s.hphase with
      | .active => [0x00]
      | .idle => [0x02]
      | .done => [0x02]
      | .error => [0x01])

/-- 42_hasher.md R208: an UPDATE that fails the cap check absorbs nothing and goes to ERROR; in ERROR every UPDATE and FINALIZE
responds `INPUT_TOO_LARGE` and changes nothing; and only INIT, HASH or reset leaves ERROR: the step that does is a reset, or the
one that takes INIT or HASH off the stream. -/
def Obligations.CapFailureIsSticky : Prop :=
  (∀ (data : List Byte) (s : State), s.hphase = .active → LEN_CAP < s.hctx.len.toNat + data.length →
    ∃ t, exec (.update data) s = .next t ∧ Responds s t [0x01] ∧ t.hphase = .error ∧ t.hctx = s.hctx ∧
      SameSearch s t ∧ SameOutside s t) ∧
  (∀ (i : Instr) (s : State), s.hphase = .error → (i = .finalize ∨ ∃ data, i = .update data) →
    ∃ t, exec i s = .next t ∧ Responds s t [0x01] ∧ SameHasher s t ∧ SameSearch s t ∧ SameOutside s t) ∧
  (∀ s t : State, s.hphase = .error → step s = .next t → t.hphase ≠ .error →
    (∃ es, s.host = .reset :: es) ∨
    (s.cmdState = .ready ∧ s.tx = [] ∧ (s.host = [] ∨ ∃ es, s.host = .letRun :: es) ∧
      ∃ i rest, decode s.rx = .command i rest ∧ (i = .init ∨ ∃ data, i = .hash data)))

/-- 42_hasher.md R209 and 60_exceptions.md R293: UPDATE or FINALIZE in DONE or in IDLE responds `MISUSE` and changes no
state. -/
def Obligations.MisuseChangesNothing : Prop :=
  ∀ (i : Instr) (s : State), (s.hphase = .idle ∨ s.hphase = .done) → (i = .finalize ∨ ∃ data, i = .update data) →
    ∃ t, exec i s = .next t ∧ Responds s t [0x02] ∧ SameHasher s t ∧ SameSearch s t ∧ SameOutside s t

/-- 42_hasher.md section 4: FINALIZE in ACTIVE completes: the `0x80` marker, the zeros, the length field with its high four
bytes 0, in one block when `FILL <= 55` and in two otherwise; the digest is `V`; `FILL` is 0, `LEN` unchanged, `HPHASE` DONE. The
premise on `LEN` is the cap that every reachable state keeps (log 9). -/
def Obligations.FinalizeCompletes : Prop :=
  encode .finalize = [0x00, 0x00, 0x00, 0x03] ∧
  ∀ s : State, s.hphase = .active → s.hctx.len.toNat ≤ LEN_CAP →
    let bytes := s.hctx.buf.toList.take s.hctx.fill.val
    let field := List.replicate 4 0x00 ++ (enc32 (BitVec.ofNat 32 (8 * s.hctx.len.toNat))).toList
    ∃ t, exec .finalize s = .next t ∧
      Responds s t (0x00 :: (wordsToBytesBE (k := 8) t.hctx.v).toList) ∧
      t.hphase = .done ∧ t.hctx.fill = 0 ∧ t.hctx.len = s.hctx.len ∧ SameSearch s t ∧ SameOutside s t ∧
      field = (enc64 (BitVec.ofNat 64 (8 * s.hctx.len.toNat))).toList ∧
      (s.hctx.fill.val ≤ 55 →
        t.hctx.buf.toList = bytes ++ [0x80] ++ List.replicate (55 - s.hctx.fill.val) 0x00 ++ field ∧
        t.hctx.v = CF s.hctx.v t.hctx.buf) ∧
      (56 ≤ s.hctx.fill.val → ∃ first : Block,
        first.toList = bytes ++ [0x80] ++ List.replicate (63 - s.hctx.fill.val) 0x00 ∧
        t.hctx.buf.toList = List.replicate 56 0x00 ++ field ∧
        t.hctx.v = CF (CF s.hctx.v first) t.hctx.buf)

/-- 42_hasher.md section 6: HASH completes in every phase. Under the cap it responds `OK` and `SM3(DATA)` and leaves DONE,
`LEN = N`, `FILL = 0`; over the cap it responds `INPUT_TOO_LARGE` and leaves a re-initialised context in ERROR. -/
def Obligations.HashCompletes : Prop :=
  ∀ (data : List Byte) (s : State),
    (data.length ≤ LEN_CAP → ∃ t, exec (.hash data) s = .next t ∧
      Responds s t (0x00 :: (sm3 data).toList) ∧ t.hphase = .done ∧ t.hctx.len.toNat = data.length ∧ t.hctx.fill = 0 ∧
      wordsToBytesBE (k := 8) t.hctx.v = sm3 data ∧ SameSearch s t ∧ SameOutside s t) ∧
    (LEN_CAP < data.length → ∃ t, exec (.hash data) s = .next t ∧
      Responds s t [0x01] ∧ t.hphase = .error ∧ t.hctx = { s.hctx with v := IV, fill := 0, len := 0 } ∧
      SameSearch s t ∧ SameOutside s t)

/-- 42_hasher.md section 6 (the law of HASH) and 30_encoding.md section 6: HASH ends in the state that INIT; UPDATE; FINALIZE
ends in, but for its one response in place of three. -/
def Obligations.HashIsInitUpdateFinalize : Prop :=
  ∀ (data : List Byte) (s : State), data.length ≤ LEN_CAP →
    ∃ t u digest, exec (.hash data) s = .next t ∧ execAll [.init, .update data, .finalize] s = .next u ∧
      Responds s t (0x00 :: digest) ∧ Responds s u ([0x00, 0x00] ++ 0x00 :: digest) ∧ digest.length = 32 ∧
      SameHasher t u ∧ SameSearch t u ∧ SameOutside t u

/-- 42_hasher.md section 5 (`pad(m)`): `pad(m)` starts with `m` and the `0x80` marker, ends with the bit length as eight
big-endian bytes, has zeros between, is a whole number of blocks, and has `floor(|m|/64) + 1` of them when
`|m| mod 64 <= 55` and `floor(|m|/64) + 2` otherwise. -/
def Obligations.PaddingShape : Prop :=
  ∀ m : List Byte, m.length ≤ LEN_CAP →
    (∃ k < 64, pad m = m ++ [0x80] ++ List.replicate k 0x00 ++ (enc64 (BitVec.ofNat 64 (8 * m.length))).toList) ∧
    (pad m).length = 64 * (m.length / 64 + if m.length % 64 ≤ 55 then 1 else 2)

/-- 42_hasher.md section 7 (streaming equivalence): however a message of at most `LEN_CAP` bytes is cut into UPDATEs, and
whatever STATUS and COMPRESS commands stand between them, INIT; the UPDATEs; FINALIZE ends with the response `OK` and the SM3
digest of the whole message; and with no other command between, every UPDATE responds `OK`. -/
def Obligations.StreamingEquivalence : Prop :=
  (∀ (cmds : List Instr) (s : State),
    (∀ i ∈ cmds, i = .status ∨ (∃ v b, i = .compress v b) ∨ ∃ d, i = .update d) →
    let message := (cmds.map updateData).flatten
    message.length ≤ LEN_CAP →
    ∃ t before, execAll ([.init] ++ cmds ++ [.finalize]) s = .next t ∧
      t.tx = before ++ 0x00 :: (sm3 message).toList ∧ t.hphase = .done ∧ t.hctx.len.toNat = message.length ∧
      SameSearch s t ∧ SameOutside s t) ∧
  (∀ (chunks : List (List Byte)) (s : State), chunks.flatten.length ≤ LEN_CAP →
    ∃ t, execAll ([.init] ++ chunks.map .update ++ [.finalize]) s = .next t ∧
      t.tx = s.tx ++ [0x00] ++ List.replicate chunks.length 0x00 ++ 0x00 :: (sm3 chunks.flatten).toList)

/-- 10_state.md R47 (the status word, each field mirroring the register named, bits 31:14 reading as 0, and every field 0 after reset) in STATUS's response,
which 42_hasher.md section 8 gives; STATUS completes in every phase and changes nothing. -/
def Obligations.StatusCompletes : Prop :=
  encode .status = [0x00, 0x00, 0x00, 0x06] ∧
  ∀ s : State, ∃ t sw, exec .status s = .next t ∧
    Responds s t (0x00 :: ((enc32 sw).toList ++ (enc64 s.hctx.len).toList ++ (enc64 s.rnonce).toList)) ∧
    sw.toNat % 4 = (match s.hphase with | .idle => 0 | .active => 1 | .done => 2 | .error => 3) ∧
    sw.toNat / 4 % 4 = (match s.sphase with | .idle => 0 | .searching => 1 | .done => 2) ∧
    sw.toNat / 16 % 64 = s.hctx.fill.val ∧
    sw.toNat / 1024 % 2 = (match s.mode with | .lt => 0 | .lte => 1) ∧
    sw.toNat / 2048 % 2 = (if s.found = true then 1 else 0) ∧
    sw.toNat / 4096 % 4 = (match s.outcome with | .none => 0 | .found => 1 | .exhausted => 2) ∧
    sw.toNat / 16384 = 0 ∧
    (∀ c : Config, s = State.resetOf c → sw = 0) ∧
    SameHasher s t ∧ SameSearch s t ∧ SameOutside s t

/-- 42_hasher.md section 1 (the phase table), with the cap of its sections 3 and 6, 41_compression.md section 6 for COMPRESS and
43_search.md section 6 for SEARCH: what each command does in each `HPHASE`: the phase it leaves and the status it answers. -/
def Obligations.PhaseTable : Prop :=
  ∀ (i : Instr) (s : State), ∃ t, exec i s = .next t ∧
    match i with
    | .init => t.hphase = .active ∧ t.hctx.v = IV ∧ t.hctx.fill = 0 ∧ t.hctx.len = 0 ∧ Responds s t [0x00]
    | .update data =>
      match s.hphase with
      | .idle => Responds s t [0x02] ∧ SameHasher s t
      | .active =>
        if s.hctx.len.toNat + data.length ≤ LEN_CAP then
          Responds s t [0x00] ∧ t.hphase = .active ∧ t.hctx.len.toNat = s.hctx.len.toNat + data.length
        else Responds s t [0x01] ∧ t.hphase = .error ∧ t.hctx = s.hctx
      | .done => Responds s t [0x02] ∧ SameHasher s t
      | .error => Responds s t [0x01] ∧ SameHasher s t
    | .finalize =>
      match s.hphase with
      | .idle => Responds s t [0x02] ∧ SameHasher s t
      | .active => Responds s t (0x00 :: (wordsToBytesBE (k := 8) t.hctx.v).toList) ∧ t.hphase = .done
      | .done => Responds s t [0x02] ∧ SameHasher s t
      | .error => Responds s t [0x01] ∧ SameHasher s t
    | .hash data => t.hphase = if data.length ≤ LEN_CAP then .done else .error
    | .status => SameHasher s t
    | .compress _ _ => SameHasher s t
    | .searchLt _ _ _ _ _ => SameHasher s t
    | .searchLte _ _ _ _ _ => SameHasher s t

/-! ### Search -/

/-- 43_search.md R241 and 60_exceptions.md R294: a SEARCH whose template does not fit, whose nonce field is outside it, or whose
range is empty or inverted responds `CONFIG_ERROR` and writes nothing, and its whole frame is still consumed; the checks
are on unbounded integers. -/
def Obligations.BadSearchIsRejected : Prop :=
  ∀ (i : Instr) (noff : Word) (lo hi : DWord) (bound : U256) (tdata : List Byte) (s : State),
    (i = .searchLt noff lo hi bound tdata ∨ i = .searchLte noff lo hi bound tdata) →
    (s.config.tmplMax < tdata.length ∨ tdata.length < noff.toNat + 8 ∨ hi.toNat ≤ lo.toNat) →
    (∃ t, exec i s = .next t ∧ Responds s t [0x03] ∧ SameHasher s t ∧ SameSearch s t ∧ SameOutside s t) ∧
    ∀ rest, s.host = [] → s.cmdState = .ready → s.tx = [] → decode s.rx = .command i rest →
      ∃ t, step s = .next t ∧ Responds s t [0x03] ∧ t.rx = rest ∧ SameHasher s t ∧ SameSearch s t ∧
        SameOutside { s with rx := rest } t

/-- 43_search.md R242 (the load) and section 1 (the partition): a SEARCH that passes the checks completes its own step: the
template, the registers and the slot are as R242 writes them, every byte of `TMPL` at or above `TLEN` is unchanged, and worker
`k` runs on `[LO + min(k*c, L), LO + min((k+1)*c, L))` with `L = HI - LO` and `c = ceil(L / NWORKERS)`. No response is sent yet.
From then until the end step nothing but reset writes the configuration. -/
def Obligations.SearchStarts : Prop :=
  (∀ (i : Instr) (m : Mode) (noff : Word) (lo hi : DWord) (bound : U256) (tdata : List Byte) (s : State),
    ((i = .searchLt noff lo hi bound tdata ∧ m = .lt) ∨ (i = .searchLte noff lo hi bound tdata ∧ m = .lte)) →
    s.config.wf → tdata.length ≤ s.config.tmplMax → noff.toNat + 8 ≤ tdata.length → lo.toNat < hi.toNat →
    ∃ t c, exec i s = .next t ∧
      (∀ a, a < tdata.length → memByte t.tmpl a = tdata[a]?) ∧
      (∀ a, tdata.length ≤ a → memByte t.tmpl a = memByte s.tmpl a) ∧
      t.tlen.toNat = tdata.length ∧ t.noff = noff ∧ t.lo = lo ∧ t.hi = hi ∧ t.bound = bound ∧ t.mode = m ∧
      t.found = false ∧ t.rnonce = 0 ∧ t.outcome = .none ∧ t.sphase = .searching ∧
      t.cmdState = .busy ∧ t.tx = s.tx ∧ SameHasher s t ∧ SameOutside s t ∧
      hi.toNat - lo.toNat ≤ s.config.nworkers * c ∧ s.config.nworkers * (c - 1) < hi.toNat - lo.toNat ∧
      t.workers.length = s.workers.length ∧
      ∀ k w, s.workers[k]? = some w → ∃ v, t.workers[k]? = some v ∧ v.st = .run ∧
        v.cur.toNat = lo.toNat + min (k * c) (hi.toNat - lo.toNat) ∧
        v.endN.toNat = lo.toNat + min ((k + 1) * c) (hi.toNat - lo.toNat) ∧ v.ctx = w.ctx) ∧
  (∀ u v : State, u.cmdState = .busy → u.sphase = .searching → step u = .next v →
    SameSearchConfig u v ∨ ∃ es, u.host = .reset :: es)

/-- 43_search.md section 1 (the partition): the sub-ranges are in ascending order and pairwise disjoint and cover `[LO, HI)`
exactly: every nonce of the range lies in exactly one of them, and none lies outside the range. -/
def Obligations.PartitionCoversTheRange : Prop :=
  ∀ n lo hi : Nat, 1 ≤ n → lo < hi →
    (∀ x, lo ≤ x → x < hi → ∃! k, k < n ∧ cutPoint n lo hi k ≤ x ∧ x < cutPoint n lo hi (k + 1)) ∧
    (∀ k x, k < n → cutPoint n lo hi k ≤ x → x < cutPoint n lo hi (k + 1) → lo ≤ x ∧ x < hi) ∧
    (∀ j k x y, j < k → x < cutPoint n lo hi (j + 1) → cutPoint n lo hi k ≤ y → x < y)

/-- 43_search.md section 2 (`cand(n)`): under a loaded configuration every candidate is defined, has the template's length, and
is the template with the nonce's eight big-endian bytes in place of bytes `NOFF .. NOFF+7`, whose own values do not matter. -/
def Obligations.CandidateReplacesTheNonceField : Prop :=
  ∀ (s : State) (n : DWord), Loaded s →
    ∃ m, cand s n = .ok m ∧ m.length = s.tlen.toNat ∧
      (∀ i, i < s.tlen.toNat → (i < s.noff.toNat ∨ s.noff.toNat + 8 ≤ i) → m[i]? = memByte s.tmpl i) ∧
      (∀ j : Fin 8, m[s.noff.toNat + j.val]? = some (enc64 n)[j]) ∧
      (∀ tmpl, (∀ a, (a < s.noff.toNat ∨ s.noff.toNat + 8 ≤ a) → memByte tmpl a = memByte s.tmpl a) →
        cand { s with tmpl := tmpl } n = .ok m)

/-- 43_search.md R251 and R252: the digest is read as a 256-bit big-endian integer, `d[0]` the most significant byte; `lt`
compares with `<` and `lte` with `<=`, unsigned, on all 256 bits. -/
def Obligations.ComparatorIsUnsigned : Prop :=
  ∀ (d : Digest) (bound : U256),
    (u256 d).toNat = ∑ i : Fin 32, d[i].toNat * 256 ^ (31 - i.val) ∧
    (qualifies .lt bound d = true ↔ (∑ i : Fin 32, d[i].toNat * 256 ^ (31 - i.val)) < bound.toNat) ∧
    (qualifies .lte bound d = true ↔ (∑ i : Fin 32, d[i].toNat * 256 ^ (31 - i.val)) ≤ bound.toNat)

/-- 43_search.md section 2 (the comparator's corner cases, which the spec marks as derived): `BOUND = 0` under `lt` never
qualifies and under `lte` only the all-zero digest does; `BOUND = 2^256 - 1` under `lte` always qualifies and under `lt` all but
`ff*32`; a digest equal to the boundary qualifies under `lte` alone. -/
def Obligations.ComparatorCorners : Prop :=
  ∀ d : Digest,
    qualifies .lt 0 d = false ∧
    (qualifies .lte 0 d = true ↔ d = Vector.replicate 32 0x00) ∧
    qualifies .lte (BitVec.allOnes 256) d = true ∧
    (qualifies .lt (BitVec.allOnes 256) d = true ↔ d ≠ Vector.replicate 32 0xff) ∧
    qualifies .lte (u256 d) d = true ∧ qualifies .lt (u256 d) d = false

/-- 43_search.md R254 (the worker step) with R256's report: during a search some running worker moves; it stops when `FOUND = 1`
or when its sub-range is done; otherwise it tests `SM3(cand(CUR))`, and either reports the nonce and
stops or goes on to the next one. No other worker, no configuration register and no host-hasher register is written. -/
def Obligations.WorkerTestsOneCandidate : Prop :=
  ∀ s : State, s.host = [] → s.cmdState = .busy → s.sphase = .searching → Loaded s → s.config.tmplMax ≤ LEN_CAP →
    (∃ w ∈ s.workers, w.st = WorkerState.run) →
    ∃ (k : Nat) (w : Worker) (t : State) (v : Worker), s.workers[k]? = some w ∧ w.st = .run ∧ step s = .next t ∧ t.workers[k]? = some v ∧
      v.endN = w.endN ∧
      (s.found = true ∨ w.cur = w.endN → v.st = .stop ∧ v.cur = w.cur ∧ v.ctx = w.ctx ∧ t.found = s.found ∧
        t.rnonce = s.rnonce) ∧
      (s.found = false → w.cur ≠ w.endN → ∃ m, cand s w.cur = .ok m ∧
        (qualifies s.mode s.bound (sm3 m) = true →
          v.st = .stop ∧ v.cur = w.cur ∧ t.found = true ∧ t.rnonce = w.cur) ∧
        (qualifies s.mode s.bound (sm3 m) = false →
          v.st = .run ∧ v.cur = w.cur + 1 ∧ t.found = false ∧ t.rnonce = s.rnonce)) ∧
      (∀ j, j ≠ k → t.workers[j]? = s.workers[j]?) ∧
      SameSearchConfig s t ∧ SameHasher s t ∧ t.outcome = s.outcome ∧ t.sphase = .searching ∧ t.cmdState = .busy ∧
      t.tx = s.tx ∧ t.config = s.config ∧ t.rx = s.rx ∧ t.host = [] ∧ t.hostAccepts = s.hostAccepts ∧
      t.accepted = s.accepted

/-- 93_implementation_defined.md section 1, U7 ("every interleaving"): whichever worker is running, some scheduler choice makes
it the one that moves (log 1). -/
def Obligations.AnyRunningWorkerMayMove : Prop :=
  ∀ (s : State) (k : Nat) (w : Worker), s.host = [] → s.cmdState = .busy → s.sphase = .searching → Loaded s →
    s.workers[k]? = some w → w.st = .run →
    ∃ n, ∀ rest, ∃ t, step { s with sched := n :: rest } = .next t ∧ t.workers[k]? ≠ some w ∧ t.sched = rest ∧
      ∀ j, j ≠ k → t.workers[j]? = s.workers[j]?

/-- 43_search.md R256: `report(n)` writes the slot when `FOUND = 0` and discards otherwise; and once `FOUND = 1` no step writes
`FOUND` or `RNONCE`, but for reset and the step that takes the next SEARCH off the stream and loads its configuration. -/
def Obligations.ResultSlotIsWriteOnce : Prop :=
  (∀ (n : DWord) (s : State), s.found = false → report n s = { s with found := true, rnonce := n }) ∧
  (∀ (n : DWord) (s : State), s.found = true → report n s = s) ∧
  (∀ s t : State, step s = .next t → s.found = true →
    (t.found = true ∧ t.rnonce = s.rnonce) ∨
    (∃ es, s.host = .reset :: es) ∨
    (s.cmdState = .ready ∧ s.tx = [] ∧ (s.host = [] ∨ ∃ es, s.host = .letRun :: es) ∧
      (∃ noff lo hi bound tdata rest, decode s.rx = .command (.searchLt noff lo hi bound tdata) rest ∨
        decode s.rx = .command (.searchLte noff lo hi bound tdata) rest) ∧
      t.sphase = .searching ∧ t.found = false ∧ t.rnonce = 0))

/-- 43_search.md R259: the end step is taken when every worker has stopped, sets `OUTCOME` by `FOUND` and `SPHASE` to DONE, and
writes nothing else; and no other step but reset ends a search, so none ends while a worker runs. -/
def Obligations.EndStepWaitsForEveryWorker : Prop :=
  (∀ s : State, s.host = [] → s.cmdState = .busy → s.sphase = .searching → (∀ w ∈ s.workers, w.st = .stop) →
    step s = .next { s with outcome := if s.found = true then .found else .exhausted, sphase := .done }) ∧
  (∀ s t : State, s.cmdState = .busy → s.sphase = .searching → step s = .next t → t.sphase ≠ .searching →
    (∃ es, s.host = .reset :: es) ∨
    ((∀ w ∈ s.workers, w.st = .stop) ∧ t.sphase = .done ∧ (t.outcome = .found ↔ s.found = true) ∧
      (t.outcome = .exhausted ↔ s.found = false)))

/-- 43_search.md R260: after the end step SEARCH responds `00 01` and the nonce when `OUTCOME` is FOUND, `00 02` and eight zero
bytes when it is EXHAUSTED, and the port is READY. -/
def Obligations.SearchResponds : Prop :=
  ∀ s : State, s.host = [] → s.cmdState = .busy → s.sphase = .done →
    (s.outcome = .found → ∃ t, step s = .next t ∧ Responds s t ([0x00, 0x01] ++ (enc64 s.rnonce).toList) ∧
      SameHasher s t ∧ SameSearch s t ∧ SameOutside s t) ∧
    (s.outcome = .exhausted → ∃ t, step s = .next t ∧ Responds s t ([0x00, 0x02] ++ List.replicate 8 0x00) ∧
      SameHasher s t ∧ SameSearch s t ∧ SameOutside s t)

/-- 43_search.md R265: no search step, the command's own first step included, writes the host hasher context or reads it: with any other host context the same
step is taken, with the same effect on everything else. -/
def Obligations.SearchIgnoresTheHasher : Prop :=
  (∀ (s : State) (p : HPhase) (c : HashCtx), s.host = [] → s.cmdState = .busy →
    (∀ t, step s = .next t → SameHasher s t ∧ step { s with hphase := p, hctx := c } = .next { t with hphase := p, hctx := c }) ∧
    (∀ f, step s = .fault f → step { s with hphase := p, hctx := c } = .fault f)) ∧
  (∀ (s : State) (p : HPhase) (c : HashCtx) (i : Instr) (noff : Word) (lo hi : DWord) (bound : U256) (tdata : List Byte),
    (i = .searchLt noff lo hi bound tdata ∨ i = .searchLte noff lo hi bound tdata) →
    ∃ t, exec i s = .next t ∧ SameHasher s t ∧
      exec i { s with hphase := p, hctx := c } = .next { t with hphase := p, hctx := c })

/-- 70_reset_and_hazards.md R329: during a search no command runs (no byte of the command stream is consumed) and no step but
reset writes the template, the boundary or any other configuration register. -/
def Obligations.ConfigurationIsFixedDuringSearch : Prop :=
  ∀ s t : State, s.cmdState = .busy → step s = .next t →
    (∃ es, s.host = .reset :: es) ∨ (SameSearchConfig s t ∧ ∃ more, t.rx = s.rx ++ more)

/-- 43_search.md section 6 (which nonce is reported): in every step from a state of the invariant, a reported nonce stays the
first qualifying nonce of some worker's sub-range. With `NWORKERS = 1` the only sub-range is `[LO, HI)`, so it is the lowest. -/
def Obligations.ReportedNonceIsAWorkersFirst : Prop :=
  let firstOfAWorker (s : State) : Prop := s.found = true → ∃ k < s.config.nworkers,
    cutPoint s.config.nworkers s.lo.toNat s.hi.toNat k ≤ s.rnonce.toNat ∧
    s.rnonce.toNat < cutPoint s.config.nworkers s.lo.toNat s.hi.toNat (k + 1) ∧ Qualifying s s.rnonce ∧
    ∀ n : DWord, cutPoint s.config.nworkers s.lo.toNat s.hi.toNat k ≤ n.toNat → n.toNat < s.rnonce.toNat → ¬ Qualifying s n
  ∀ s t : State, Inv s → firstOfAWorker s → step s = .next t → firstOfAWorker t

/-- 43_search.md section 6 ("A model must admit every such `k`"): from the start of a search, whichever worker's sub-range holds
a qualifying nonce, some schedule makes the search report that worker's first one. -/
def Obligations.EveryWorkersFirstIsAdmitted : Prop :=
  ∀ (s : State) (k : Nat) (w : Worker) (f : DWord), Inv s → s.host = [] → s.cmdState = .busy → s.sphase = .searching →
    s.found = false → s.workers[k]? = some w → w.st = .run →
    w.cur.toNat ≤ f.toNat → f.toNat < w.endN.toNat → Qualifying s f →
    (∀ n : DWord, w.cur.toNat ≤ n.toNat → n.toNat < f.toNat → ¬ Qualifying s n) →
    ∃ sched steps t, Sys2Proof.core.run steps { s with sched := sched } = .next t ∧ t.found = true ∧ t.rnonce = f

/-- 43_search.md section 6 (soundness, completeness, termination): from any state of a running search the machine answers
within `(HI - LO) + NWORKERS` worker steps, the end step and the response, whatever the schedule: either Found with a nonce of
the range that qualifies, or Exhausted and no nonce of the range qualifies. The host context and the configuration are as
before. -/
def Obligations.SearchAnswersCorrectly : Prop :=
  ∀ s : State, Inv s → s.host = [] → s.cmdState = .busy → s.sphase = .searching →
    ∃ steps t, steps ≤ (s.hi.toNat - s.lo.toNat) + s.config.nworkers + 2 ∧ Sys2Proof.core.run steps s = .next t ∧
      t.cmdState = .ready ∧ t.sphase = .done ∧ SameHasher s t ∧ SameSearchConfig s t ∧
      ((∃ r : DWord, t.tx = [0x00, 0x01] ++ (enc64 r).toList ∧ s.lo.toNat ≤ r.toNat ∧ r.toNat < s.hi.toNat ∧
          Qualifying s r) ∨
        (t.tx = [0x00, 0x02] ++ List.replicate 8 0x00 ∧
          ∀ r : DWord, s.lo.toNat ≤ r.toNat → r.toNat < s.hi.toNat → ¬ Qualifying s r))

/-! ### Port, errors, reset -/

/-- 20_memory.md section 7 and 30_encoding.md section 1: with a READY port, no response pending and a whole frame of a legal
command at the front of the stream, a step consumes the frame and is `exec` of the command. -/
def Obligations.StepRunsTheDecodedCommand : Prop :=
  ∀ (s : State) (i : Instr) (rest : List Byte), s.host = [] → s.cmdState = .ready → s.tx = [] →
    decode s.rx = .command i rest → step s = exec i { s with rx := rest }

/-- 70_reset_and_hazards.md section 3 (back-pressure): with a response pending no header is taken: the host accepts the whole
response first, and a host that never accepts stalls CORE. That it accepts in one step is the model's choice (log 11), and that a
stall is this stop is log 3. -/
def Obligations.ResponseIsAcceptedFirst : Prop :=
  ∀ s : State, s.host = [] → s.cmdState = .ready → s.tx ≠ [] →
    (s.hostAccepts = true → step s = .next { s with tx := [], accepted := s.accepted ++ s.tx }) ∧
    (s.hostAccepts = false → step s = .fault .awaitingAcceptance)

/-- 30_encoding.md R108: a command that ends in its own step sends one response, the status byte alone unless it is `OK`, and
with `OK` the payload of its row: 0 bytes for INIT and UPDATE, 32 for FINALIZE, HASH and COMPRESS, 20 for STATUS. A SEARCH
either sends the status byte alone or none yet; R260 gives its 10 bytes when it ends. 60_exceptions.md R291: no other status
code is sent. -/
def Obligations.ResponseFrames : Prop :=
  ∀ (i : Instr) (s : State), ∃ t response, exec i s = .next t ∧ t.tx = s.tx ++ response ∧
    match i with
    | .init => response = [0x00]
    | .update _ => response = [0x00] ∨ response = [0x01] ∨ response = [0x02]
    | .finalize => (∃ p, response = 0x00 :: p ∧ p.length = 32) ∨ response = [0x01] ∨ response = [0x02]
    | .hash _ => (∃ p, response = 0x00 :: p ∧ p.length = 32) ∨ response = [0x01]
    | .compress _ _ => ∃ p, response = 0x00 :: p ∧ p.length = 32
    | .status => ∃ p, response = 0x00 :: p ∧ p.length = 20
    | .searchLt _ _ _ _ _ => response = [0x03] ∨ (response = [] ∧ t.cmdState = .busy)
    | .searchLte _ _ _ _ _ => response = [0x03] ∨ (response = [] ∧ t.cmdState = .busy)

/-- 70_reset_and_hazards.md R321: reset at any time, also during a SEARCH, abandons the command with no response and leaves the
state of the reset table, for every value the table gives; any partly received frame is discarded. -/
def Obligations.ResetAtAnyTime : Prop :=
  ∀ (s : State) (es : List HostEvent), s.host = .reset :: es → ∃ t, step s = .next t ∧
    t.cmdState = .ready ∧ t.hphase = .idle ∧ t.hctx.fill = 0 ∧ t.hctx.len = 0 ∧ t.sphase = .idle ∧
    t.tlen = 0 ∧ t.noff = 0 ∧ t.lo = 0 ∧ t.hi = 0 ∧ t.mode = .lt ∧ t.found = false ∧ t.rnonce = 0 ∧ t.outcome = .none ∧
    (∀ w ∈ t.workers, w.st = .stop) ∧ t.workers.length = s.config.nworkers ∧ t.tx = [] ∧
    (decode s.rx = .incomplete → t.rx = [])

/-- The model's own reading of reset (log 12, resting on 70_reset_and_hazards.md section 1): every unread byte of the command
stream is dropped, no byte of the template keeps a value (log 5), and the build, the host's side and the scheduler's side are
kept. -/
def Obligations.ResetKeepsTheHostSide : Prop :=
  ∀ (s : State) (es : List HostEvent), s.host = .reset :: es → ∃ t, step s = .next t ∧
    t.rx = [] ∧ (∀ a, memByte t.tmpl a = none) ∧ t.config = s.config ∧ t.host = es ∧ t.hostAccepts = s.hostAccepts ∧
    t.accepted = s.accepted ∧ t.sched = s.sched ∧ t.tick = s.tick

/-- 70_reset_and_hazards.md section 2 (what the host may do): sending a byte, opening or closing the acceptance line, and
letting CORE wait, for the rest of a frame or for acceptance, change nothing else; a wait is no stop (log 2). -/
def Obligations.HostActsOnThePortOnly : Prop :=
  ∀ (s : State) (es : List HostEvent),
    (∀ b, s.host = .send b :: es → step s = .next { s with host := es, rx := s.rx ++ [b] }) ∧
    (∀ on, s.host = .accepting on :: es → step s = .next { s with host := es, hostAccepts := on }) ∧
    (s.host = .letRun :: es → ∀ t, coreStep { s with host := es } = .next t → step s = .next t) ∧
    (s.host = .letRun :: es → s.cmdState = .ready → s.tx = [] → decode s.rx = .incomplete →
      step s = .next { s with host := es }) ∧
    (s.host = .letRun :: es → s.cmdState = .ready → s.tx ≠ [] → s.hostAccepts = false →
      step s = .next { s with host := es })

/-! ### The whole machine -/

/-- 70_reset_and_hazards.md section 1: the state right after reset, of every build, meets the invariant. -/
def Obligations.ResetMeetsTheInvariant : Prop :=
  Inv State.reset ∧ ∀ c : Config, c.wf → Inv (State.resetOf c)

/-- Every step keeps the invariant: the template memory canonical and within `TMPL_MAX` (20_memory.md R81), `FILL = LEN mod 64`
and `LEN <= LEN_CAP` (10_state.md R38, R39), the port's discipline (10_state.md R45), the workers inside their sub-ranges, a
found nonce qualifying and an exhausted range empty of qualifying nonces (43_search.md section 6). -/
def Obligations.EveryStepKeepsTheInvariant : Prop :=
  ∀ s t : State, Inv s → step s = .next t → Inv t

/-- 93_implementation_defined.md section 2 ("No behaviour of CORE is treated as `fault`"): no step is ever refused, and from a
state of the invariant a step stops only in the two stuck cases S11 and S12. -/
def Obligations.OnlyTheStuckCasesStop : Prop :=
  (∀ (s : State) (r : Refusal), step s ≠ .refused r) ∧
  (∀ (s : State) (f : Fault), Inv s → step s = .fault f →
    s.cmdState = .ready ∧ s.host = [] ∧
    ((f = .awaitingFrame ∧ s.tx = [] ∧ decode s.rx = .incomplete) ∨
      (f = .awaitingAcceptance ∧ s.tx ≠ [] ∧ s.hostAccepts = false)))

/-- 70_reset_and_hazards.md section 2 (R325, the end of a run) with 30_encoding.md section 4 (one response for every frame, in
order): a finite sequence of legal and illegal commands, all of it on the stream, has not ended before it starts, and comes to its
end with every frame taken and one response a command sent, in order, the last not yet accepted. A host that accepts nothing still
gets the response of a single command. That a response is accepted in one step is the model's choice (log 11). -/
def Obligations.EveryRunEndsWithItsResponses : Prop :=
  ∀ (cmds : List Command) (s : State), (∀ c ∈ cmds, c.wf = true) → Inv s → s.host = [] → s.cmdState = .ready →
    s.rx = (cmds.map Command.frame).flatten → (s.hostAccepts = true ∨ s.tx = [] ∧ cmds.length ≤ 1) →
    (cmds ≠ [] → ¬ AtEnd s cmds s) ∧
    ∃ steps t, Sys2Proof.core.run steps s = .next t ∧ AtEnd s cmds t ∧ t.rx = [] ∧ (cmds ≠ [] → t.tx ≠ [])

/-- 10_state.md section 3 and 42_hasher.md section 1 (R37, R202): the stale bytes of `BUF`, at `FILL` and above, are never read
before being overwritten: with any other bytes there every command does the same to everything else, sends the same response, and
leaves the same bytes below the new `FILL`. -/
def Obligations.StaleBufferBytesAreNeverRead : Prop :=
  ∀ (i : Instr) (s : State) (buf : Block), (∀ j : Fin 64, j.val < s.hctx.fill.val → buf[j] = s.hctx.buf[j]) →
    ∃ t buf', exec i s = .next t ∧
      exec i { s with hctx := { s.hctx with buf := buf } } = .next { t with hctx := { t.hctx with buf := buf' } } ∧
      ∀ j : Fin 64, j.val < t.hctx.fill.val → buf'[j] = t.hctx.buf[j]

/-- What a worker's private context holds after a candidate (log 8, DEDUCED from 43_search.md section 3 and 42_hasher.md section 6,
the model's own and unsafe): what a HASH of the candidate leaves, so the digest words in `V`, `FILL = 0` and the candidate's
length. A worker that only stops leaves its context as it was. -/
def Obligations.PrivateContextAfterACandidate : Prop :=
  ∀ (k : Nat) (w : Worker) (s t : State), s.workers[k]? = some w → workerStep k w s = .next t →
    ∃ v, t.workers[k]? = some v ∧
      (s.found = true ∨ w.cur = w.endN → v.ctx = w.ctx) ∧
      (s.found = false → w.cur ≠ w.endN → ∃ m, cand s w.cur = .ok m ∧
        (m.length ≤ LEN_CAP → wordsToBytesBE (k := 8) v.ctx.v = sm3 m ∧ v.ctx.fill = 0 ∧ v.ctx.len.toNat = m.length))
end

