-- ==== Sys2Proof/Laws/Codec.lean ====
section
/-! SUPPORT. The codec's inverses (40_codec.md R141 to R147) and how the decoder takes a field off the front of a stream. -/

namespace Sys2Proof.Laws

open Sys2Proof

/-! ### 32-bit words -/

theorem be32_getLsbD (s : Vector Byte 4) (i : Nat) :
    (be32 s).getLsbD i =
      if i < 8 then s[3].getLsbD i else if i < 16 then s[2].getLsbD (i - 8)
      else if i < 24 then s[1].getLsbD (i - 16) else s[0].getLsbD (i - 24) := by
  simp only [be32, BitVec.getLsbD_append]
  split_ifs <;> first | omega | rfl

theorem be32_enc32 (w : Word) : be32 (enc32 w) = w := by
  apply BitVec.eq_of_getLsbD_eq
  intro i hi
  rw [be32_getLsbD]
  simp only [enc32, Vector.getElem_mk, List.getElem_toArray, List.getElem_cons_zero, List.getElem_cons_succ,
    BitVec.getLsbD_extractLsb']
  interval_cases i <;> simp

theorem enc32_be32 (s : Vector Byte 4) : enc32 (be32 s) = s := by
  ext i hi j hj
  simp only [be32, enc32]
  interval_cases i <;>
    simp only [Vector.getElem_mk, List.getElem_toArray, List.getElem_cons_zero, List.getElem_cons_succ,
      BitVec.getElem_extractLsb', BitVec.getLsbD_append] <;>
    split_ifs <;> first | omega | (rw [← BitVec.getLsbD_eq_getElem]; congr 1; omega)

theorem be32_toNat (s : Vector Byte 4) :
    (be32 s).toNat = s[0].toNat * 2 ^ 24 + s[1].toNat * 2 ^ 16 + s[2].toNat * 2 ^ 8 + s[3].toNat := by
  have h0 := s[0].isLt
  have h1 := s[1].isLt
  have h2 := s[2].isLt
  have h3 := s[3].isLt
  simp only [be32, BitVec.toNat_append]
  rw [← Nat.shiftLeft_add_eq_or_of_lt (by omega), ← Nat.shiftLeft_add_eq_or_of_lt (by omega),
    ← Nat.shiftLeft_add_eq_or_of_lt (by omega)]
  simp only [Nat.shiftLeft_eq]
  omega

theorem rev32_rev32 (w : Word) : rev32 (rev32 w) = w := by
  apply BitVec.eq_of_getLsbD_eq
  intro i hi
  simp only [rev32, BitVec.getLsbD_or, BitVec.getLsbD_shiftLeft, BitVec.getLsbD_setWidth, BitVec.getLsbD_extractLsb']
  interval_cases i <;> simp

/-! ### 64-bit words -/

theorem be64_getLsbD (s : Vector Byte 8) (i : Nat) (hi : i < 64) :
    (be64 s).getLsbD i = (s[7 - i / 8]'(by omega)).getLsbD (i % 8) := by
  simp only [be64, BitVec.getLsbD_append, be32_getLsbD]
  simp only [Vector.getElem_mk, List.getElem_toArray, List.getElem_cons_zero, List.getElem_cons_succ]
  interval_cases i <;> simp

theorem be64_enc64 (v : DWord) : be64 (enc64 v) = v := by
  apply BitVec.eq_of_getLsbD_eq
  intro i hi
  rw [be64_getLsbD _ _ hi]
  simp only [enc64, Vector.getElem_ofFn, BitVec.getLsbD_extractLsb']
  have : 8 * (7 - (7 - i / 8)) + i % 8 = i := by omega
  rw [this]
  simp [Nat.mod_lt]

theorem enc64_be64 (s : Vector Byte 8) : enc64 (be64 s) = s := by
  ext i hi j hj
  simp only [enc64, Vector.getElem_ofFn, BitVec.getElem_extractLsb']
  rw [be64_getLsbD _ _ (by omega), ← BitVec.getLsbD_eq_getElem]
  congr 1
  · congr 1; omega
  · omega

/-- A small number as eight bytes: four zero bytes, then its four (40_codec.md R142). -/
theorem enc64_small (n : Nat) (h : n < 2 ^ 32) : (enc64 (BitVec.ofNat 64 n)).toList = zeros 4 ++ (enc32 (BitVec.ofNat 32 n)).toList := by
  have hh : ∀ k, (BitVec.ofNat 64 n).extractLsb' (32 + k) 8 = (0 : Byte) := by
    intro k
    apply BitVec.eq_of_toNat_eq
    simp only [BitVec.extractLsb'_toNat, BitVec.toNat_ofNat, Nat.shiftRight_eq_div_pow]
    have h64 : n % 2 ^ 64 = n := Nat.mod_eq_of_lt (lt_of_lt_of_le h (by norm_num))
    rw [h64, Nat.div_eq_of_lt]
    · rfl
    · exact lt_of_lt_of_le h (Nat.pow_le_pow_right (by omega) (by omega))
  have hl : ∀ k, k + 8 ≤ 32 → (BitVec.ofNat 64 n).extractLsb' k 8 = (BitVec.ofNat 32 n).extractLsb' k 8 := by
    intro k hk
    apply BitVec.eq_of_toNat_eq
    have h64 : n % 2 ^ 64 = n := Nat.mod_eq_of_lt (lt_of_lt_of_le h (by norm_num))
    have h32 : n % 2 ^ 32 = n := Nat.mod_eq_of_lt h
    simp only [BitVec.extractLsb'_toNat, BitVec.toNat_ofNat, Nat.shiftRight_eq_div_pow, h64, h32]
  have e : (enc64 (BitVec.ofNat 64 n)).toList = [(BitVec.ofNat 64 n).extractLsb' (32+24) 8, (BitVec.ofNat 64 n).extractLsb' (32+16) 8, (BitVec.ofNat 64 n).extractLsb' (32+8) 8, (BitVec.ofNat 64 n).extractLsb' (32+0) 8, (BitVec.ofNat 64 n).extractLsb' 24 8, (BitVec.ofNat 64 n).extractLsb' 16 8, (BitVec.ofNat 64 n).extractLsb' 8 8, (BitVec.ofNat 64 n).extractLsb' 0 8] := by
    apply List.ext_getElem
    · simp
    · intro i h1 h2
      have : i < 8 := by simpa using h1
      interval_cases i <;> simp [enc64]
  rw [e, hh, hh, hh, hh, hl _ (by omega), hl _ (by omega), hl _ (by omega), hl _ (by omega)]
  rfl

/-! ### Word lists -/

theorem bytesToWordsBE_wordsToBytesBE {k : Nat} (w : Vector Word k) : bytesToWordsBE (wordsToBytesBE w) = w := by
  ext i hi : 1
  rw [← be32_enc32 w[i]]
  simp only [bytesToWordsBE, wordsToBytesBE, Vector.getElem_ofFn]
  congr 1
  ext j hj : 1
  have e1 : (4 * i + 1) / 4 = i := by omega
  have e2 : (4 * i + 2) / 4 = i := by omega
  have e3 : (4 * i + 3) / 4 = i := by omega
  interval_cases j <;>
    simp [e1, e2, e3]

theorem wordsToBytesBE_bytesToWordsBE {k : Nat} (s : Vector Byte (4 * k)) : wordsToBytesBE (bytesToWordsBE s) = s := by
  ext i hi : 1
  obtain ⟨q, r, hr, rfl⟩ : ∃ q r, r < 4 ∧ i = 4 * q + r := ⟨i / 4, i % 4, Nat.mod_lt _ (by omega), by omega⟩
  have hq : (4 * q + r) / 4 = q := by omega
  have hm : (4 * q + r) % 4 = r := by omega
  simp only [bytesToWordsBE, wordsToBytesBE, Vector.getElem_ofFn, enc32_be32, hq, hm]
  interval_cases r <;> rfl

/-! ### 256-bit integers -/

/-- The number whose base-256 digits are the bytes, the first the most significant (40_codec.md R147). -/
def beNat (l : List Byte) : Nat := l.foldl (fun a b => a * 256 + b.toNat) 0

theorem beNat_append_singleton (xs : List Byte) (x : Byte) : beNat (xs ++ [x]) = beNat xs * 256 + x.toNat := by
  simp [beNat, List.foldl_append]

theorem beNat_lt (l : List Byte) : beNat l < 256 ^ l.length := by
  induction l using List.reverseRecOn with
  | nil => simp [beNat]
  | append_singleton xs x ih =>
    have hx := x.isLt
    rw [beNat_append_singleton, List.length_append, List.length_singleton, pow_succ]
    omega

theorem beNat_inj : ∀ a b : List Byte, a.length = b.length → beNat a = beNat b → a = b := by
  intro a
  induction a using List.reverseRecOn with
  | nil => intro b hb _; exact (List.length_eq_zero_iff.mp hb.symm).symm
  | append_singleton xs x ih =>
    intro b
    induction b using List.reverseRecOn with
    | nil => intro hb _; simp at hb
    | append_singleton ys y _ =>
      intro hb hv
      have hx := x.isLt
      have hy := y.isLt
      simp only [List.length_append, List.length_singleton, Nat.add_right_cancel_iff] at hb
      rw [beNat_append_singleton, beNat_append_singleton] at hv
      rw [ih ys hb (by omega), BitVec.eq_of_toNat_eq (show x.toNat = y.toNat by omega)]

theorem foldl_u256 (l : List Byte) (a : Nat) :
    l.foldl (fun acc b => acc * 256 + b.setWidth 256) (BitVec.ofNat 256 a) =
      BitVec.ofNat 256 (l.foldl (fun a b => a * 256 + b.toNat) a) := by
  induction l generalizing a with
  | nil => rfl
  | cons x xs ih =>
    have hstep : BitVec.ofNat 256 a * 256 + x.setWidth 256 = BitVec.ofNat 256 (a * 256 + x.toNat) := by
      rw [BitVec.ofNat_add, BitVec.ofNat_mul]
      congr 1
      exact BitVec.eq_of_toNat_eq (by rw [BitVec.toNat_setWidth, BitVec.toNat_ofNat])
    rw [List.foldl_cons, List.foldl_cons, hstep, ih]

theorem u256_eq_ofNat (d : Vector Byte 32) : u256 d = BitVec.ofNat 256 (beNat d.toList) := foldl_u256 d.toList 0

theorem pow_256_32 : (256 : Nat) ^ 32 = 2 ^ 256 := by norm_num

theorem u256_toNat (d : Vector Byte 32) : (u256 d).toNat = beNat d.toList := by
  have h := beNat_lt d.toList
  rw [Vector.length_toList, pow_256_32] at h
  rw [u256_eq_ofNat, BitVec.toNat_ofNat, Nat.mod_eq_of_lt h]

theorem beNat_topBytes (v : U256) (n : Nat) (hn : n ≤ 32) :
    beNat ((List.range n).map fun i => (v.extractLsb' (8 * (31 - i)) 8 : Byte)) = v.toNat / 256 ^ (32 - n) := by
  induction n with
  | zero =>
    rw [Nat.sub_zero, pow_256_32, Nat.div_eq_of_lt v.isLt]
    rfl
  | succ n ih =>
    have e : 32 - n = (32 - (n + 1)) + 1 := by omega
    have e2 : (2 : Nat) ^ (8 * (31 - n)) = 256 ^ (32 - (n + 1)) := by
      rw [show (256 : Nat) = 2 ^ 8 by rfl, ← pow_mul, show 8 * (31 - n) = 8 * (32 - (n + 1)) by omega]
    rw [List.range_succ, List.map_append, List.map_singleton, beNat_append_singleton, ih (by omega),
      BitVec.extractLsb'_toNat, Nat.shiftRight_eq_div_pow, e2, e, pow_succ, ← Nat.div_div_eq_div_mul]
    generalize v.toNat / 256 ^ (32 - (n + 1)) = q
    omega

theorem u256_enc256 (v : U256) : u256 (enc256 v) = v := by
  have hl : (enc256 v).toList = (List.range 32).map fun i => (v.extractLsb' (8 * (31 - i)) 8 : Byte) := by
    apply List.ext_getElem
    · simp
    · intro i h1 h2
      simp [enc256]
  apply BitVec.eq_of_toNat_eq
  rw [u256_toNat, hl, beNat_topBytes v 32 (le_refl _), Nat.sub_self, pow_zero, Nat.div_one]

theorem enc256_u256 (d : Vector Byte 32) : enc256 (u256 d) = d := by
  apply Vector.toList_inj.mp
  apply beNat_inj
  · simp
  · rw [← u256_toNat, ← u256_toNat, u256_enc256]

/-! ### Taking fields off a stream -/

theorem takeBytes_append {n : Nat} (v : Vector Byte n) (rest : List Byte) :
    takeBytes n (v.toList ++ rest) = some (v, rest) := by
  unfold takeBytes
  rw [dif_pos (by simp)]
  congr 2
  · apply Vector.toList_inj.mp
    simp
  · simp

theorem takeBytes_some {n : Nat} {bs : List Byte} {v : Vector Byte n} {rest : List Byte}
    (h : takeBytes n bs = some (v, rest)) : bs = v.toList ++ rest := by
  unfold takeBytes at h
  split at h
  · cases h
    simp
  · cases h

theorem takeBytes_none {n : Nat} {bs : List Byte} : takeBytes n bs = none ↔ bs.length < n := by
  unfold takeBytes
  split <;> simp <;> omega

theorem takeWord_append (w : Word) (rest : List Byte) : takeWord ((enc32 w).toList ++ rest) = some (w, rest) := by
  simp [takeWord, takeBytes_append, be32_enc32]

theorem takeDWord_append (v : DWord) (rest : List Byte) : takeDWord ((enc64 v).toList ++ rest) = some (v, rest) := by
  simp [takeDWord, takeBytes_append, be64_enc64]

theorem takeWord_some {bs : List Byte} {w : Word} {rest : List Byte} (h : takeWord bs = some (w, rest)) :
    bs = (enc32 w).toList ++ rest := by
  simp only [takeWord, Option.map_eq_some_iff] at h
  obtain ⟨⟨s, r⟩, hs, he⟩ := h
  cases he
  rw [enc32_be32]
  exact takeBytes_some hs

theorem takeDWord_some {bs : List Byte} {v : DWord} {rest : List Byte} (h : takeDWord bs = some (v, rest)) :
    bs = (enc64 v).toList ++ rest := by
  simp only [takeDWord, Option.map_eq_some_iff] at h
  obtain ⟨⟨s, r⟩, hs, he⟩ := h
  cases he
  rw [enc64_be64]
  exact takeBytes_some hs

theorem takeData_append (data rest : List Byte) (h : data.length < 2 ^ 32) :
    takeData (encodeData data ++ rest) = some (data, rest) := by
  have hn : (BitVec.ofNat 32 data.length).toNat = data.length := by
    rw [BitVec.toNat_ofNat]; exact Nat.mod_eq_of_lt h
  simp [takeData, encodeData, takeWord_append, hn, List.append_assoc]

theorem takeData_some {bs data rest : List Byte} (h : takeData bs = some (data, rest)) :
    bs = encodeData data ++ rest ∧ data.length < 2 ^ 32 := by
  unfold takeData at h
  split at h
  · cases h
  · rename_i n r hw
    split at h
    · rename_i hle
      cases h
      have hb := takeWord_some hw
      have hn := n.isLt
      have hlen : (r.take n.toNat).length = n.toNat := by simp [hle]
      refine ⟨?_, by omega⟩
      rw [hb, encodeData, hlen]
      simp
    · cases h

theorem length_encodeData (data : List Byte) : (encodeData data).length = 4 + data.length := by
  simp [encodeData]

end Sys2Proof.Laws
end

