-- ==== Sys2Proof/Laws/Decode.lean ====
section
/-! SUPPORT. What the decoder takes off a command stream, and the headers that are legal (30_encoding.md R101 to R106). -/

namespace Sys2Proof.Laws

open Sys2Proof

/-- The header that names a command (30_encoding.md R104). -/
def headerOf : Instr → Header
  | .init => .init
  | .update _ => .update
  | .finalize => .finalize
  | .hash _ => .hash
  | .compress _ _ => .compress
  | .status => .status
  | .searchLt _ _ _ _ _ => .search .lt
  | .searchLte _ _ _ _ _ => .search .lte

/-- The header of every command is legal and names it (30_encoding.md R101, R104). -/
theorem classify_headerWord (i : Instr) : classifyHeader (headerWord i) = .ok (headerOf i) := by
  cases i <;> (simp only [headerWord, headerOf]; decide)

/-- SEARCH's operands come back from their bytes (30_encoding.md R103). -/
theorem takeSearch_append (m : Mode) (noff : Word) (lo hi : DWord) (bound : U256) (tdata rest : List Byte) (h : tdata.length < 2^32) :
   takeSearch m (encodeSearch noff lo hi bound tdata ++ rest) = some (match m with | .lt => .searchLt noff lo hi bound tdata | .lte => .searchLte noff lo hi bound tdata, rest) := by
  cases m <;> simp [takeSearch, encodeSearch, List.append_assoc, takeWord_append, takeDWord_append, takeBytes_append, takeData_append _ _ h, u256_enc256]

/-- The operands of a well-formed command come back from their bytes (30_encoding.md R103). -/
theorem takeOperands_append (i : Instr) (rest : List Byte) (h : i.wf = true) :
    takeOperands (headerOf i) (encodeOperands i ++ rest) = some (i, rest) := by
  cases i with
  | init => rfl
  | finalize => rfl
  | status => rfl
  | update d => simp [headerOf, takeOperands, encodeOperands, takeData_append _ _ (show d.length < 2^32 by simpa [Instr.wf] using h)]
  | hash d => simp [headerOf, takeOperands, encodeOperands, takeData_append _ _ (show d.length < 2^32 by simpa [Instr.wf] using h)]
  | compress v b =>
    have h1 : takeBytes 32 ((wordsToBytesBE v).toList ++ (b.toList ++ rest)) = some (wordsToBytesBE v, b.toList ++ rest) := takeBytes_append _ _
    simp [headerOf, takeOperands, encodeOperands, takeCompress, List.append_assoc, h1, takeBytes_append, bytesToWordsBE_wordsToBytesBE]
  | searchLt a b c d e => exact takeSearch_append .lt a b c d e rest (by simpa [Instr.wf] using h)
  | searchLte a b c d e => exact takeSearch_append .lte a b c d e rest (by simpa [Instr.wf] using h)

/-- A legal header is one of the eight header words (30_encoding.md R101, R102, R104). -/
theorem headerWord_of_classify {h : Word} {hd : Header} (e : classifyHeader h = .ok hd) (i : Instr) (hi : headerOf i = hd) : h = headerWord i := by
  have hr : headerRsv h = 0 := by
    unfold classifyHeader at e; split at e
    · cases e
    · split_ifs at e; simp_all
  have key : h.toNat = (headerOpc h).toNat + 256 * (headerM h).toNat + 512 * (headerRsv h).toNat := by
    simp [headerOpc, headerM, headerRsv, BitVec.extractLsb'_toNat, Nat.shiftRight_eq_div_pow]
    have := h.isLt
    omega
  have hM : headerM h = 0 ∨ headerM h = 1 := by
    have : ∀ m : BitVec 1, m = 0 ∨ m = 1 := by decide
    exact this _
  have hM2 : headerM h = 0 ∨ headerOpc h = 0x10 := by
    unfold classifyHeader at e; split at e
    · cases e
    · split_ifs at e with h1 h2; tauto
  unfold classifyHeader at e; split at e
  · cases e
  rename_i hd' ho
  split_ifs at e
  cases e
  subst hi
  apply BitVec.eq_of_toNat_eq
  rw [key, hr]
  unfold opcodeMap at ho
  split_ifs at ho <;> (cases i <;> simp_all [headerOf, headerWord])

/-- Operands taken off a stream are well-formed, and their bytes stood in front of the rest (30_encoding.md R103). -/
theorem takeOperands_some {hd : Header} {bs : List Byte} {i : Instr} {rest : List Byte} (h : takeOperands hd bs = some (i, rest)) :
    headerOf i = hd ∧ bs = encodeOperands i ++ rest ∧ i.wf = true := by
  cases hd with
  | init => cases h; exact ⟨rfl, rfl, rfl⟩
  | finalize => cases h; exact ⟨rfl, rfl, rfl⟩
  | status => cases h; exact ⟨rfl, rfl, rfl⟩
  | update =>
    simp only [takeOperands, Option.map_eq_some_iff] at h
    obtain ⟨⟨d, r⟩, hd, he⟩ := h
    cases he
    obtain ⟨h1, h2⟩ := takeData_some hd
    exact ⟨rfl, h1, by simpa [Instr.wf] using h2⟩
  | hash =>
    simp only [takeOperands, Option.map_eq_some_iff] at h
    obtain ⟨⟨d, r⟩, hd, he⟩ := h
    cases he
    obtain ⟨h1, h2⟩ := takeData_some hd
    exact ⟨rfl, h1, by simpa [Instr.wf] using h2⟩
  | compress =>
    simp only [takeOperands, takeCompress, Option.bind_eq_bind, Option.bind_eq_some_iff] at h
    obtain ⟨⟨v, r⟩, h1, ⟨b, r2⟩, h2, h3⟩ := h
    cases h3
    refine ⟨rfl, ?_, rfl⟩
    have e2 := takeBytes_some h2
    dsimp only at e2 ⊢
    rw [takeBytes_some h1, e2, encodeOperands]
    have := wordsToBytesBE_bytesToWordsBE (k := 8) v
    rw [this, List.append_assoc]
  | search m =>
    simp only [takeOperands, takeSearch, Option.bind_eq_bind, Option.bind_eq_some_iff] at h
    obtain ⟨⟨noff, r1⟩, h1, ⟨lo, r2⟩, h2, ⟨hi, r3⟩, h3, ⟨bd, r4⟩, h4, ⟨td, r5⟩, h5, h6⟩ := h
    obtain ⟨h5a, h5b⟩ := takeData_some h5
    have e1 := takeWord_some h1
    have e2 := takeDWord_some h2
    have e3 := takeDWord_some h3
    have e4 := takeBytes_some h4
    dsimp only at h1 h2 h3 h4 e1 e2 e3 e4 h5a h6
    have hb : bs = encodeSearch noff lo hi (u256 bd) td ++ r5 := by
      rw [e1, e2, e3, e4, h5a, encodeSearch, enc256_u256]; simp
    cases m <;> cases h6 <;> exact ⟨rfl, hb, by simpa [Instr.wf] using h5b⟩

/-- An illegal header is illegal whatever follows it (30_encoding.md R102). -/
theorem decode_illegal_append {bs : List Byte} {why} {r : List Byte} (h : decode bs = .illegal why r) (t : List Byte) : decode (bs ++ t) = .illegal why (r ++ t) := by
  unfold decode at h
  split at h
  · cases h
  rename_i w r1 hw
  split at h
  · rename_i why hc
    cases h
    rw [takeWord_some hw, List.append_assoc]
    simp only [decode, takeWord_append, hc]
  · split at h <;> cases h

/-- Which headers are legal, as numbers (30_encoding.md R102). -/
theorem classify_isOk_iff (w : Word) : (∃ hd, classifyHeader w = .ok hd) ↔ (w.toNat % 256 ∈ [0x01, 0x02, 0x03, 0x04, 0x05, 0x06, 0x10] ∧ w.toNat / 512 = 0 ∧ (w.toNat / 256 % 2 = 0 ∨ w.toNat % 256 = 0x10)) := by
  have ho : (headerOpc w).toNat = w.toNat % 256 := by simp [headerOpc]
  have hm : (headerM w).toNat = w.toNat / 256 % 2 := by simp [headerM, BitVec.extractLsb'_toNat, Nat.shiftRight_eq_div_pow]
  have hr : (headerRsv w).toNat = w.toNat / 512 := by
    simp [headerRsv, BitVec.extractLsb'_toNat, Nat.shiftRight_eq_div_pow]
    have := w.isLt
    omega
  rw [← ho, ← hm, ← hr]
  have hcl : classifyHeader w = match opcodeMap (headerOpc w) (headerM w) with
    | none => .error .unassignedOpcode
    | some hd =>
      if (headerRsv w) ≠ 0 then .error .reservedBits
      else if (headerM w) ≠ 0 ∧ (headerOpc w) ≠ 0x10 then .error .modeBit
      else .ok hd := rfl
  rw [hcl]
  clear hcl ho hm hr
  generalize headerRsv w = r
  generalize headerM w = mm
  generalize headerOpc w = oo
  have hz : r.toNat = 0 ↔ r = 0 := by rw [BitVec.toNat_eq]; simp
  rw [hz]
  have key : ∀ (oo : Byte) (mm : BitVec 1), (opcodeMap oo mm).isSome = true ↔ oo.toNat ∈ [1,2,3,4,5,6,16] := by decide
  have k2 : ∀ mm : BitVec 1, mm.toNat = 0 ↔ mm = 0 := by decide
  have k3 : oo.toNat = 16 ↔ oo = 16 := by rw [BitVec.toNat_eq]; rfl
  rw [← key oo mm, k2, k3]
  cases opcodeMap oo mm with
  | none => simp
  | some hd =>
    dsimp only
    split_ifs with c1 c2
    · simpa using fun h => absurd h c1
    · simp only [Option.isSome_some, true_and]; constructor
      · rintro ⟨_, h⟩; cases h
      · rintro ⟨_, h⟩; tauto
    · simp only [Option.isSome_some, true_and]; constructor
      · intro _; tauto
      · intro _; exact ⟨_, rfl⟩

end Sys2Proof.Laws
end

