-- ==== Sys2Proof/Laws/Memory.lean ====
section
/-! SUPPORT. The laws of the two byte memories: read after write, everything else unchanged, the canonical form kept
(00_scope.md R14, 20_memory.md R80, R81). -/

namespace Sys2Proof.Machine

open Sys2Proof

/-! ### The template memory -/

theorem memByte_memSet (m : List Host.Cell) (a : Nat) (x : Byte) (b : Nat) :
    memByte (memSet m a x) b = if b = a then some x else memByte m b := by
  induction m with
  | nil => simp [memSet, memByte]
  | cons c m ih =>
    obtain ⟨k, y⟩ := c
    simp only [memSet]
    split_ifs with h1 h2 h3 h3 h3
    all_goals simp only [memByte, ih]
    all_goals split_ifs <;> first | rfl | omega

/-- Read after write, one byte. -/
theorem memByte_memSet_same (m : List Host.Cell) (a : Nat) (x : Byte) : memByte (memSet m a x) a = some x := by
  simp [memByte_memSet]

/-- A write leaves every other byte alone. -/
theorem memByte_memSet_other (m : List Host.Cell) (a : Nat) (x : Byte) (b : Nat) (h : b ≠ a) :
    memByte (memSet m a x) b = memByte m b := by
  simp [memByte_memSet, h]

theorem memWf_cons {k : Nat} {y : Byte} {m : List Host.Cell} :
    memWf ((k, y) :: m) = true ↔ (∀ c ∈ m.head?, k < c.1) ∧ memWf m = true := by
  cases m with
  | nil => simp [memWf]
  | cons c m => obtain ⟨k', y'⟩ := c; simp [memWf]

theorem memWf_memSet (m : List Host.Cell) (a : Nat) (x : Byte) (h : memWf m = true) : memWf (memSet m a x) = true := by
  induction m with
  | nil => rfl
  | cons c m ih =>
    obtain ⟨k, y⟩ := c
    have hm := memWf_cons.mp h
    simp only [memSet]
    split_ifs with h1 h2
    · exact memWf_cons.mpr ⟨by simpa using h1, h⟩
    · subst h2
      exact memWf_cons.mpr hm
    · refine memWf_cons.mpr ⟨?_, ih hm.2⟩
      intro c hc
      cases m with
      | nil =>
        simp only [memSet, List.head?_cons, Option.mem_def, Option.some.injEq] at hc
        subst hc
        simp only
        omega
      | cons d m =>
        obtain ⟨k', y'⟩ := d
        have hk : k < k' := hm.1 (k', y') (by simp)
        simp only [memSet] at hc
        split_ifs at hc <;> simp only [List.head?_cons, Option.mem_def, Option.some.injEq] at hc <;> subst hc <;>
          simp only <;> omega

/-- What a run of writes leaves at every address. -/
theorem memByte_memSetAll (xs : List Byte) : ∀ (m : List Host.Cell) (a b : Nat),
    memByte (memSetAll m a xs) b = if a ≤ b ∧ b < a + xs.length then xs[b - a]? else memByte m b := by
  induction xs with
  | nil => intro m a b; simp [memSetAll]
  | cons x xs ih =>
    intro m a b
    simp only [memSetAll, ih, memByte_memSet, List.length_cons]
    by_cases hb : b = a
    · subst hb
      simp
    · by_cases h : a ≤ b
      · obtain ⟨j, rfl⟩ : ∃ j, b = a + 1 + j := ⟨b - a - 1, by omega⟩
        have e : a + 1 + j - a = j + 1 := by omega
        have e' : a + 1 + j - (a + 1) = j := by omega
        rw [e, e', List.getElem?_cons_succ]
        split_ifs <;> first | rfl | omega
      · split_ifs <;> first | rfl | omega

theorem memWf_memSetAll (xs : List Byte) : ∀ (m : List Host.Cell) (a : Nat), memWf m = true →
    memWf (memSetAll m a xs) = true := by
  induction xs with
  | nil => intro m a h; exact h
  | cons x xs ih => intro m a h; exact ih _ _ (memWf_memSet m a x h)

/-- Everything `MemWrite` can do. -/
theorem memWrite_ok {size : Nat} {m t : List Host.Cell} {a : Nat} {v : List Byte} (h : memWrite size m a v = .ok t) :
    a + v.length ≤ size ∧ t = memSetAll m a v := by
  unfold memWrite at h
  split at h
  · cases h; exact ⟨‹_›, rfl⟩
  · cases h

theorem memWrite_eq_ok {size : Nat} {m : List Host.Cell} {a : Nat} {v : List Byte} (h : a + v.length ≤ size) :
    memWrite size m a v = .ok (memSetAll m a v) := by
  simp [memWrite, h]

/-- Two memories equal byte by byte, in canonical form, are the same list. -/
theorem memWf_ext : ∀ (m n : List Host.Cell), memWf m = true → memWf n = true → (∀ a, memByte m a = memByte n a) →
    m = n := by
  have low : ∀ (m : List Host.Cell) (k : Nat), memWf m = true → (∀ c ∈ m.head?, k < c.1) → memByte m k = none := by
    intro m
    induction m with
    | nil => intros; rfl
    | cons c m ih =>
      obtain ⟨k', y'⟩ := c
      intro k hm hk
      have h1 : k < k' := hk (k', y') (by simp)
      have hm' := memWf_cons.mp hm
      simp only [memByte]
      rw [if_neg (by omega)]
      exact ih k hm'.2 fun c hc => lt_trans h1 (hm'.1 c hc)
  intro m
  induction m with
  | nil =>
    intro n _ _ h
    cases n with
    | nil => rfl
    | cons c n => obtain ⟨k, y⟩ := c; have := h k; simp [memByte] at this
  | cons c m ih =>
    obtain ⟨k, y⟩ := c
    intro n hm hn h
    cases n with
    | nil => have := h k; simp [memByte] at this
    | cons d n =>
      obtain ⟨k', y'⟩ := d
      have hm' := memWf_cons.mp hm
      have hn' := memWf_cons.mp hn
      have hkk : k = k' := by
        rcases Nat.lt_trichotomy k k' with hlt | heq | hgt
        · have h1 := h k
          rw [low ((k', y') :: n) k hn (by simpa using hlt)] at h1
          simp [memByte] at h1
        · exact heq
        · have h1 := h k'
          rw [low ((k, y) :: m) k' hm (by simpa using hgt)] at h1
          simp [memByte] at h1
      subst hkk
      have hy : y = y' := by have := h k; simpa [memByte] using this
      subst hy
      rw [ih n hm'.2 hn'.2]
      intro a
      by_cases ha : a = k
      · subst ha
        rw [low m a hm'.2 hm'.1, low n a hn'.2 hn'.1]
      · have := h a
        simpa [memByte, ha] using this

/-- Everything a read of `n` bytes can answer with, when it answers: the bytes that are there. -/
theorem memBytes_ok : ∀ (n : Nat) {m : List Host.Cell} {a : Nat} {xs : List Byte}, memBytes m a n = .ok xs →
    xs.length = n ∧ ∀ i, i < n → memByte m (a + i) = xs[i]? := by
  intro n
  induction n with
  | zero => intro m a xs h; cases h; simp
  | succ n ih =>
    intro m a xs h
    simp only [memBytes] at h
    split at h
    · cases h
    · rename_i x hx
      split at h
      · rename_i ys hys
        cases h
        obtain ⟨hl, hb⟩ := ih hys
        refine ⟨by simp [hl], ?_⟩
        intro i hi
        cases i with
        | zero => simpa using hx
        | succ i =>
          have := hb i (by omega)
          rw [List.getElem?_cons_succ, ← this]
          congr 1
          omega
      · cases h

/-- A read of bytes that all have values answers. -/
theorem memBytes_isOk : ∀ (n : Nat) (m : List Host.Cell) (a : Nat), (∀ i, i < n → (memByte m (a + i)).isSome = true) →
    ∃ xs, memBytes m a n = .ok xs := by
  intro n
  induction n with
  | zero => intro m a _; exact ⟨[], rfl⟩
  | succ n ih =>
    intro m a h
    obtain ⟨x, hx⟩ := Option.isSome_iff_exists.mp (h 0 (by omega))
    obtain ⟨xs, hxs⟩ := ih m (a + 1) (by
      intro i hi
      have := h (i + 1) (by omega)
      rwa [show a + 1 + i = a + (i + 1) by omega])
    refine ⟨x :: xs, ?_⟩
    simp only [Nat.add_zero] at hx
    simp [memBytes, hx, hxs]

/-! ### The block buffer -/

/-- What a run of writes leaves at every index of the buffer. -/
theorem getElem_bufWrite (xs : List Byte) : ∀ (buf : Block) (a i : Nat) (hi : i < 64),
    (bufWrite buf a xs)[i] = if a ≤ i ∧ i < a + xs.length then xs.getD (i - a) 0 else buf[i] := by
  induction xs with
  | nil =>
    intro buf a i hi
    rw [if_neg (by simp)]
    rfl
  | cons x xs ih =>
    intro buf a i hi
    rw [bufWrite, ih, Vector.getElem_setIfInBounds]
    simp only [List.length_cons]
    by_cases hb : i = a
    · subst hb
      rw [if_neg (by omega), if_pos rfl, if_pos (by omega)]
      simp
    · by_cases h : a ≤ i
      · obtain ⟨j, rfl⟩ : ∃ j, i = a + 1 + j := ⟨i - a - 1, by omega⟩
        have e : a + 1 + j - a = j + 1 := by omega
        have e' : a + 1 + j - (a + 1) = j := by omega
        rw [e, e', List.getD_cons_succ]
        split_ifs <;> first | rfl | omega
      · split_ifs <;> first | rfl | omega

theorem toList_bufWrite (xs : List Byte) (buf : Block) (a : Nat) (h : a + xs.length ≤ 64) :
    (bufWrite buf a xs).toList = buf.toList.take a ++ xs ++ buf.toList.drop (a + xs.length) := by
  apply List.ext_getElem
  · simp; omega
  · intro i h1 h2
    have hi : i < 64 := by simpa using h1
    rw [Vector.getElem_toList, getElem_bufWrite]
    by_cases hlo : i < a
    · rw [if_neg (by omega), List.getElem_append_left (by simp; omega), List.getElem_append_left (by simp; omega)]
      simp
    · by_cases hhi : i < a + xs.length
      · rw [if_pos (by omega), List.getElem_append_left (by simp; omega), List.getElem_append_right (by simp; omega),
          List.getD_eq_getElem _ _ (by omega)]
        congr 1
        simp
        omega
      · rw [if_neg (by omega), List.getElem_append_right (by simp; omega)]
        simp
        congr 1
        omega

end Sys2Proof.Machine
end

