-- ==== Sys2Proof/Laws/Sm3.lean ====
section
/-! SUPPORT. Blocks of a byte string and the chaining over them (41_compression.md R177, 42_hasher.md R214, R215). -/

namespace Sys2Proof

theorem getElem_blockAt (s : List Byte) (i j : Nat) (hj : j < 64) : (blockAt s i)[j] = s.getD (64 * i + j) 0 := by
  simp [blockAt]

theorem toList_blockAt (s : List Byte) (i : Nat) (h : 64 * (i + 1) ≤ s.length) :
    (blockAt s i).toList = (s.drop (64 * i)).take 64 := by
  apply List.ext_getElem
  · simp; omega
  · intro j h1 h2
    have hj : j < 64 := by simpa using h1
    rw [Vector.getElem_toList, getElem_blockAt _ _ _ hj, List.getD_eq_getElem _ _ (by omega)]
    simp

theorem blockAt_drop (s : List Byte) (a i : Nat) : blockAt (s.drop (64 * a)) i = blockAt s (a + i) := by
  ext j hj : 1
  rw [getElem_blockAt _ _ _ hj, getElem_blockAt _ _ _ hj]
  simp only [List.getD_eq_getElem?_getD, List.getElem?_drop]
  congr 2
  ring

theorem blockAt_append (s t : List Byte) (i : Nat) (h : 64 * (i + 1) ≤ s.length) : blockAt (s ++ t) i = blockAt s i := by
  ext j hj : 1
  rw [getElem_blockAt _ _ _ hj, getElem_blockAt _ _ _ hj]
  simp only [List.getD_eq_getElem?_getD]
  rw [List.getElem?_append_left (by omega)]

theorem blockAt_block (b : Block) (t : List Byte) : blockAt (b.toList ++ t) 0 = b := by
  ext j hj : 1
  rw [getElem_blockAt _ _ _ hj, List.getD_eq_getElem _ _ (by simp; omega), List.getElem_append_left (by simp; omega)]
  simp

@[simp] theorem chainBlocks_zero (v : Chain) (s : List Byte) : chainBlocks v s 0 = v := rfl

theorem chainBlocks_succ (v : Chain) (s : List Byte) (n : Nat) :
    chainBlocks v s (n + 1) = CF (chainBlocks v s n) (blockAt s n) := by
  simp [chainBlocks, List.range_succ]

theorem chainBlocks_add (v : Chain) (s : List Byte) (a b : Nat) :
    chainBlocks v s (a + b) = chainBlocks (chainBlocks v s a) (s.drop (64 * a)) b := by
  induction b with
  | zero => rw [Nat.add_zero, chainBlocks_zero]
  | succ b ih => rw [← Nat.add_assoc, chainBlocks_succ, chainBlocks_succ, ih, blockAt_drop]

theorem chainBlocks_append (v : Chain) (s t : List Byte) (n : Nat) (h : 64 * n ≤ s.length) :
    chainBlocks v (s ++ t) n = chainBlocks v s n := by
  induction n with
  | zero => rw [chainBlocks_zero, chainBlocks_zero]
  | succ n ih => rw [chainBlocks_succ, chainBlocks_succ, ih (by omega), blockAt_append _ _ _ (by omega)]

/-- One whole block in front is one compression. -/
theorem chainBlocks_block (v : Chain) (b : Block) (t : List Byte) (n : Nat) :
    chainBlocks v (b.toList ++ t) (n + 1) = chainBlocks (CF v b) t n := by
  have h1 : chainBlocks v (b.toList ++ t) 1 = CF v b := by
    rw [show (1 : Nat) = 0 + 1 from rfl, chainBlocks_succ, blockAt_block, chainBlocks_zero]
  rw [Nat.add_comm n 1, chainBlocks_add, h1, List.drop_append_of_le_length (by simp), List.drop_of_length_le (by simp),
    List.nil_append]

@[simp] theorem length_zeros (n : Nat) : (zeros n).length = n := by simp [zeros]

theorem zeros_add (a b : Nat) : zeros (a + b) = zeros a ++ zeros b := List.replicate_add ..

theorem length_pad (m : List Byte) : (pad m).length = m.length + 1 + padZeros m.length + 8 := by
  simp [pad]
  omega

/-! ### The expansion and the rounds -/

/-- After `k` steps of the expansion: the other words are as before, and every word written meets the recurrence (41_compression.md
R167). -/
theorem foldl_expand_get (k : Nat) (hk : k ≤ 52) (w0 : Vector Word 68) (j : Nat) (hj : j < 68) :
    let w := ((List.finRange 52).take k).foldl (fun (w : Vector Word 68) (i : Fin 52) => w.set (i.val + 16) (expandRhs w i)) w0
    (j < 16 ∨ 16 + k ≤ j → w[j] = w0[j]) ∧
    (∀ i : Fin 52, i.val < k → w[i.val + 16] = expandRhs w i) := by
  induction k with
  | zero => simp
  | succ k ih =>
    intro w
    have hw : w = (((List.finRange 52).take k).foldl (fun (w : Vector Word 68) (i : Fin 52) => w.set (i.val + 16) (expandRhs w i)) w0).set (k + 16) (expandRhs (((List.finRange 52).take k).foldl (fun (w : Vector Word 68) (i : Fin 52) => w.set (i.val + 16) (expandRhs w i)) w0) ⟨k, by omega⟩) := by
      simp only [w]
      rw [List.take_succ_eq_append_getElem (by simp; omega), List.foldl_append]
      simp
    obtain ⟨h1, h2⟩ := ih (by omega)
    revert hw h1 h2
    generalize (((List.finRange 52).take k).foldl (fun (w : Vector Word 68) (i : Fin 52) => w.set (i.val + 16) (expandRhs w i)) w0) = u
    intro hw h1 h2
    constructor
    · intro h
      rw [hw, Vector.getElem_set_ne _ _ (by omega)]
      exact h1 (by omega)
    · intro i hi
      have hloc : ∀ i : Fin 52, i.val ≤ k → expandRhs w i = expandRhs u i := by
        intro i hi
        simp only [expandRhs, hw]
        rw [Vector.getElem_set_ne _ _ (by omega), Vector.getElem_set_ne _ _ (by omega), Vector.getElem_set_ne _ _ (by omega), Vector.getElem_set_ne _ _ (by omega), Vector.getElem_set_ne _ _ (by omega)]
      rw [hloc i (by omega)]
      by_cases he : i.val = k
      · have : i = ⟨k, by omega⟩ := Fin.ext he
        rw [this]
        simp [hw]
      · rw [← h2 i (by omega)]
        simp only [hw]
        rw [Vector.getElem_set_ne _ _ (by omega)]

/-- Every word of the whole expansion: the loaded words, and the recurrence over the final words (41_compression.md R166, R167). -/
theorem expandW_get (b : Block) (j : Nat) (hj : j < 68) :
  (j < 16 → (expandW b)[j] = (loadBlock b ++ Vector.replicate 52 (0 : Word))[j]) ∧ (∀ i : Fin 52, (expandW b)[i.val + 16] = expandRhs (expandW b) i) := by
  obtain ⟨h1, h2⟩ := foldl_expand_get 52 (by omega) (loadBlock b ++ Vector.replicate 52 (0 : Word)) j hj
  rw [List.take_of_length_le (by simp)] at h1 h2
  exact ⟨fun h => h1 (.inl h), fun i => h2 i i.isLt⟩

theorem rotl_mod (x : Word) (n : Nat) : rotl x (n % 32) = rotl x n := by simp [rotl]

/-- One more round (41_compression.md R169, R171). -/
theorem runRounds_succ (w : Vector Word 68) (r : WorkReg) (j : Fin 64) :
    runRounds w ((List.finRange 64).take (j.val + 1)) r = sm3Round (runRounds w ((List.finRange 64).take j.val) r) j.val w[j.val] (wPrime w j) := by
  unfold runRounds
  rw [List.take_succ_eq_append_getElem (by simp), List.foldl_append]
  simp

end Sys2Proof
end

