-- ==== Sys2Proof/Laws/Hasher.lean ====
section
/-! SUPPORT. What the primitives of the Streaming Hasher do to a context (42_hasher.md R201, R202, R210 to R216). -/

namespace Sys2Proof.Machine

open Sys2Proof

/-- The bytes of the partial block, `BUF[0..FILL)` (10_state.md R37). -/
abbrev HashCtx.partialBytes (c : HashCtx) : List Byte := c.buf.toList.take c.fill.val

@[simp] theorem HashCtx.length_partialBytes (c : HashCtx) : c.partialBytes.length = c.fill.val := by
  simp

@[simp] theorem HashCtx.absorb_len (c : HashCtx) (b : Byte) : (c.absorb b).len = c.len := by
  simp only [HashCtx.absorb]
  split <;> rfl

/-- Everything `absorb` can do (42_hasher.md R201). -/
theorem HashCtx.absorb_cases (c : HashCtx) (b : Byte) :
    (c.fill.val = 63 ∧ (c.absorb b).fill.val = 0 ∧ (c.absorb b).v = CF c.v (c.absorb b).buf ∧
      (c.absorb b).buf.toList = c.partialBytes ++ [b] ∧ (c.absorb b).buf = c.buf.set c.fill.val b) ∨
    (c.fill.val < 63 ∧ (c.absorb b).fill.val = c.fill.val + 1 ∧ (c.absorb b).v = c.v ∧
      (c.absorb b).partialBytes = c.partialBytes ++ [b] ∧ (c.absorb b).buf = c.buf.set c.fill.val b) := by
  have hlt := c.fill.isLt
  have hset : (c.buf.set c.fill.val b).toList = c.buf.toList.set c.fill.val b := Vector.toList_set hlt
  by_cases h : c.fill.val + 1 = 64
  · left
    have e : c.absorb b = { c with buf := c.buf.set c.fill.val b, v := CF c.v (c.buf.set c.fill.val b), fill := 0 } := by
      simp [HashCtx.absorb, h]
    refine ⟨by omega, by rw [e]; rfl, by rw [e], ?_, by rw [e]⟩
    rw [e]
    simp only [hset]
    rw [List.set_eq_take_append_cons_drop, if_pos (by simp), List.drop_of_length_le (by simp; omega)]
  · right
    have e : c.absorb b = { c with buf := c.buf.set c.fill.val b, fill := c.fill + 1 } := by
      simp [HashCtx.absorb, h]
    have hf : (c.fill + 1).val = c.fill.val + 1 := by
      rw [Fin.val_add, show (1 : Fin 64).val = 1 from rfl, Nat.mod_eq_of_lt (by omega)]
    refine ⟨by omega, by rw [e]; exact hf, by rw [e], ?_, by rw [e]⟩
    rw [e]
    simp only [HashCtx.partialBytes, hset, hf]
    rw [List.take_succ_eq_append_getElem (by simp), List.take_set_of_le (le_refl _)]
    simp

theorem HashCtx.absorbAll_cons (c : HashCtx) (b : Byte) (bs : List Byte) :
    c.absorbAll (b :: bs) = (c.absorb b).absorbAll bs := rfl

@[simp] theorem HashCtx.absorbAll_nil (c : HashCtx) : c.absorbAll [] = c := rfl

theorem HashCtx.absorbAll_append (c : HashCtx) (a b : List Byte) :
    c.absorbAll (a ++ b) = (c.absorbAll a).absorbAll b := by
  simp [HashCtx.absorbAll]

@[simp] theorem HashCtx.absorbAll_len (c : HashCtx) (bs : List Byte) : (c.absorbAll bs).len = c.len := by
  induction bs generalizing c with
  | nil => rfl
  | cons b bs ih => rw [absorbAll_cons, ih, absorb_len]

/-- Absorbing a chunk: the partial block and the chunk form one stream; its whole blocks are compressed in order, the rest
stays in `BUF` (42_hasher.md R201, R206). -/
theorem HashCtx.absorbAll_spec (data : List Byte) : ∀ c : HashCtx,
    (c.absorbAll data).v = chainBlocks c.v (c.partialBytes ++ data) ((c.fill.val + data.length) / 64) ∧
    (c.absorbAll data).fill.val = (c.fill.val + data.length) % 64 ∧
    (c.absorbAll data).partialBytes = (c.partialBytes ++ data).drop (64 * ((c.fill.val + data.length) / 64)) := by
  induction data with
  | nil =>
    intro c
    have hlt := c.fill.isLt
    have h0 : c.fill.val / 64 = 0 := by omega
    simp [Nat.mod_eq_of_lt hlt, h0]
  | cons b bs ih =>
    intro c
    have hlt := c.fill.isLt
    rw [absorbAll_cons]
    obtain ⟨hv, hf, hb⟩ := ih (c.absorb b)
    rcases c.absorb_cases b with ⟨h1, h2, h3, h4, -⟩ | ⟨h1, h2, h3, h4, -⟩
    · have hq : (c.fill.val + (b :: bs).length) / 64 = bs.length / 64 + 1 := by simp only [List.length_cons]; omega
      have hp : (c.absorb b).partialBytes = [] := by simp [HashCtx.partialBytes, h2]
      have hs : c.partialBytes ++ b :: bs = (c.absorb b).buf.toList ++ bs := by rw [h4]; simp
      rw [hv, hf, hb, hp, h2, h3, hq, hs, chainBlocks_block]
      refine ⟨by simp, by simp only [List.length_cons]; omega, ?_⟩
      simp only [List.nil_append, Nat.zero_add]
      rw [show 64 * (bs.length / 64 + 1) = 64 + 64 * (bs.length / 64) by ring, ← List.drop_drop,
        List.drop_left' (by simp)]
    · have hs : c.partialBytes ++ b :: bs = (c.absorb b).partialBytes ++ bs := by rw [h4]; simp
      have hn : (c.absorb b).fill.val + bs.length = c.fill.val + (b :: bs).length := by simp only [List.length_cons]; omega
      rw [hv, hf, hb, h3, hs, hn]
      exact ⟨rfl, rfl, rfl⟩

/-- Every byte of `BUF` after a chunk: the last byte of the stream written there, or the byte from before (42_hasher.md R201). -/
theorem HashCtx.absorbAll_buf (data : List Byte) : ∀ (c : HashCtx) (i : Fin 64),
    (c.absorbAll data).buf[i] =
      if i.val < (c.fill.val + data.length) % 64 then (c.partialBytes ++ data).getD (64 * ((c.fill.val + data.length) / 64) + i.val) 0
      else if 1 ≤ (c.fill.val + data.length) / 64 then (c.partialBytes ++ data).getD (64 * ((c.fill.val + data.length) / 64 - 1) + i.val) 0
      else c.buf[i] := by
  induction data with
  | nil =>
    intro c i
    have hlt := c.fill.isLt
    have hi := i.isLt
    have h0 : c.fill.val / 64 = 0 := by omega
    simp [Nat.mod_eq_of_lt hlt, h0]
    intro h
    simp [h]
  | cons b bs ih =>
    intro c i
    have hlt := c.fill.isLt
    have hi := i.isLt
    rw [HashCtx.absorbAll_cons, ih]
    have hl : (b :: bs).length = bs.length + 1 := rfl
    rcases c.absorb_cases b with ⟨h1, h2, h3, h4, h5⟩ | ⟨h1, h2, h3, h4, h5⟩
    · have hq : (c.fill.val + (b :: bs).length) / 64 = bs.length / 64 + 1 := by omega
      have hm : (c.fill.val + (b :: bs).length) % 64 = bs.length % 64 := by omega
      have hp : (c.absorb b).partialBytes = [] := by simp [HashCtx.partialBytes, h2]
      have hs : c.partialBytes ++ b :: bs = (c.absorb b).buf.toList ++ bs := by rw [h4]; simp
      rw [hq, hm, hp, hs, h2]
      simp only [List.nil_append, Nat.zero_add, List.getD_eq_getElem?_getD]
      have e : ∀ k, ((c.absorb b).buf.toList ++ bs)[64 + k]? = bs[k]? := by
        intro k; rw [List.getElem?_append_right (by simp)]; simp
      rw [show 64 * (bs.length / 64 + 1) + i.val = 64 + (64 * (bs.length / 64) + i.val) by ring, e]
      by_cases c1 : i.val < bs.length % 64
      · simp [c1]
      · simp only [c1, if_false]
        by_cases c2 : 1 ≤ bs.length / 64
        · rw [if_pos c2, if_pos (by omega), show 64 * (bs.length / 64 + 1 - 1) + i.val = 64 + (64 * (bs.length / 64 - 1) + i.val) by omega, e]
        · rw [if_neg c2, if_pos (by omega), show 64 * (bs.length / 64 + 1 - 1) + i.val = i.val by omega, List.getElem?_append_left (by simp)]
          simp
    · have hs : c.partialBytes ++ b :: bs = (c.absorb b).partialBytes ++ bs := by rw [h4]; simp
      have hn : (c.absorb b).fill.val + bs.length = c.fill.val + (b :: bs).length := by omega
      rw [hn, hs]
      split_ifs with c1 c2
      · rfl
      · rfl
      · rw [h5]
        simp only [Fin.getElem_fin]
        rw [Vector.getElem_set_ne]
        omega

/-! ### The body of FINALIZE -/

theorem HashCtx.toList_marked (c : HashCtx) : (c.buf.set c.fill.val 0x80).toList =
    c.partialBytes ++ [0x80] ++ c.buf.toList.drop (c.fill.val + 1) := by
  have hlt := c.fill.isLt
  have hset : (c.buf.set c.fill.val 0x80).toList = c.buf.toList.set c.fill.val 0x80 := Vector.toList_set hlt
  rw [hset, List.set_eq_take_append_cons_drop, if_pos (by simp)]
  simp

theorem toList_bufWrite_after (buf : Block) (p q xs : List Byte) (h : buf.toList = p ++ q) (hx : p.length + xs.length ≤ 64) :
    (bufWrite buf p.length xs).toList = p ++ xs ++ q.drop xs.length := by
  rw [toList_bufWrite _ _ _ hx, h, List.take_left', List.drop_append]
  · simp
  · rfl

/-- Single-block padding writes the block `BUF[0..FILL) || 80 || zeros || 00 00 00 00 || enc32(bitlen)` (42_hasher.md R211). -/
theorem HashCtx.finish_one (c : HashCtx) (h : c.fill.val ≤ 55) :
    c.finish.buf.toList = c.partialBytes ++ [0x80] ++ zeros (55 - c.fill.val) ++ zeros 4 ++ (enc32 c.bitlen).toList ∧
    c.finish.v = CF c.v c.finish.buf ∧ c.finish.fill.val = 0 ∧ c.finish.len = c.len := by
  have e : c.finish = { c.padOne (c.buf.set c.fill.val 0x80) with fill := 0 } := by simp [HashCtx.finish, h]
  have hp := c.length_partialBytes
  have l64 : c.buf.toList.length = 64 := by simp
  rw [e]
  refine ⟨?_, rfl, rfl, rfl⟩
  simp only [HashCtx.padOne]
  have s1 := toList_bufWrite_after (c.buf.set c.fill.val 0x80) (c.partialBytes ++ [0x80]) _ (zeros (55 - c.fill.val))
    c.toList_marked (by simp only [List.length_append, List.length_singleton, hp, length_zeros]; omega)
  simp only [List.length_append, List.length_singleton, hp] at s1
  have s2 := toList_bufWrite_after _ (c.partialBytes ++ [0x80] ++ zeros (55 - c.fill.val)) _ (zeros 4) s1
    (by simp only [List.length_append, List.length_singleton, hp, length_zeros]; omega)
  simp only [List.length_append, List.length_singleton, hp, length_zeros,
    show c.fill.val + 1 + (55 - c.fill.val) = 56 by omega] at s2
  have s3 := toList_bufWrite_after _ (c.partialBytes ++ [0x80] ++ zeros (55 - c.fill.val) ++ zeros 4) _
    (enc32 c.bitlen).toList s2
    (by simp only [List.length_append, List.length_singleton, hp, length_zeros, Vector.length_toList]; omega)
  simp only [List.length_append, List.length_singleton, hp, length_zeros,
    show c.fill.val + 1 + (55 - c.fill.val) + 4 = 60 by omega] at s3
  rw [s3]
  simp only [List.drop_drop, Vector.length_toList]
  rw [List.drop_of_length_le (by omega), List.append_nil]

/-- Two-block padding: the first block ends in zeros, the second is 56 zeros and the length field (42_hasher.md R212). -/
theorem HashCtx.finish_two (c : HashCtx) (h : 56 ≤ c.fill.val) :
    ∃ first : Block, first.toList = c.partialBytes ++ [0x80] ++ zeros (63 - c.fill.val) ∧
    c.finish.buf.toList = zeros 56 ++ zeros 4 ++ (enc32 c.bitlen).toList ∧
    c.finish.v = CF (CF c.v first) c.finish.buf ∧ c.finish.fill.val = 0 ∧ c.finish.len = c.len := by
  have hlt := c.fill.isLt
  have e : c.finish = { c.padTwo (c.buf.set c.fill.val 0x80) with fill := 0 } := by
    simp [HashCtx.finish, show ¬ c.fill.val ≤ 55 by omega]
  have hp := c.length_partialBytes
  have l64 : c.buf.toList.length = 64 := by simp
  rw [e]
  refine ⟨bufWrite (c.buf.set c.fill.val 0x80) (c.fill.val + 1) (zeros (63 - c.fill.val)), ?_, ?_, rfl, rfl, rfl⟩
  · have s1 := toList_bufWrite_after (c.buf.set c.fill.val 0x80) (c.partialBytes ++ [0x80]) _ (zeros (63 - c.fill.val))
      c.toList_marked (by simp only [List.length_append, List.length_singleton, hp, length_zeros]; omega)
    simp only [List.length_append, List.length_singleton, hp] at s1
    rw [s1]
    simp only [List.drop_drop, length_zeros]
    rw [List.drop_of_length_le (by omega), List.append_nil]
  · simp only [HashCtx.padTwo]
    generalize bufWrite (c.buf.set c.fill.val 0x80) (c.fill.val + 1) (zeros (63 - c.fill.val)) = b
    have s1 := toList_bufWrite_after b [] b.toList (zeros 56) (by simp) (by simp)
    simp only [List.length_nil, List.nil_append] at s1
    have s2 := toList_bufWrite_after _ (zeros 56) _ (zeros 4) s1 (by simp)
    rw [length_zeros] at s2
    have s3 := toList_bufWrite_after _ (zeros 56 ++ zeros 4) _ (enc32 c.bitlen).toList s2 (by simp)
    rw [List.length_append, length_zeros, length_zeros] at s3
    rw [show (60 : Nat) = 56 + 4 from rfl, s3]
    simp only [List.drop_drop, Vector.length_toList]
    rw [List.drop_of_length_le (by simp), List.append_nil]

/-! ### The message a context holds -/

/-- `ctx_init()` holds the empty message (42_hasher.md R202). -/
theorem HashCtx.holds_init (c : HashCtx) : c.init.Holds [] where
  v_eq := rfl
  fill_eq := rfl
  buf_eq := rfl
  len_eq := rfl

/-- Absorbing extends the message, once `LEN` is brought up to date (42_hasher.md R204). -/
theorem HashCtx.Holds.absorbAll {c : HashCtx} {m : List Byte} (h : c.Holds m) (data : List Byte) (n : DWord)
    (hn : n.toNat = m.length + data.length) : HashCtx.Holds { c.absorbAll data with len := n } (m ++ data) := by
  obtain ⟨hv, hf, hb⟩ := HashCtx.absorbAll_spec data c
  have hfill := h.fill_eq
  have hdm := Nat.div_add_mod m.length 64
  have hcat : c.partialBytes ++ data = (m ++ data).drop (64 * (m.length / 64)) := by
    rw [List.drop_append_of_le_length (by omega), ← h.buf_eq]
  have hq : (m ++ data).length / 64 = m.length / 64 + (c.fill.val + data.length) / 64 := by
    rw [List.length_append]; omega
  constructor
  · show (c.absorbAll data).v = _
    rw [hv, hcat, h.v_eq, hq, chainBlocks_add, chainBlocks_append _ _ _ _ (by omega)]
  · show (c.absorbAll data).fill.val = _
    rw [hf, List.length_append]; omega
  · show (c.absorbAll data).partialBytes = _
    rw [hb, hcat, hq, List.drop_drop]
    congr 1
    ring
  · show n.toNat = _
    rw [hn, List.length_append]

/-- Below the cap the length field loses nothing (42_hasher.md R207, R210). -/
theorem HashCtx.bitlen_eq (c : HashCtx) (n : Nat) (h : c.len.toNat = n) (hn : n ≤ LEN_CAP) :
    c.bitlen = BitVec.ofNat 32 (8 * n) := by
  subst h
  apply BitVec.eq_of_toNat_eq
  have h8 : BitVec.toNat (8 : DWord) = 8 := rfl
  simp only [LEN_CAP] at hn
  simp only [HashCtx.bitlen, BitVec.toNat_setWidth, BitVec.toNat_mul, BitVec.toNat_ofNat, h8]
  omega

/-- The bytes FINALIZE compresses are the last blocks of `pad(m)`, so the digest is `SM3(m)` (42_hasher.md R214, R215). -/
theorem HashCtx.Holds.finish {c : HashCtx} {m : List Byte} (h : c.Holds m) (hm : m.length ≤ LEN_CAP) :
    digestOf c.finish.v = sm3 m := by
  have hbit := c.bitlen_eq m.length h.len_eq hm
  have hfill := h.fill_eq
  have hdm := Nat.div_add_mod m.length 64
  have hml : m.length % 64 < 64 := Nat.mod_lt _ (by omega)
  have hd : ∀ t, (m ++ t).drop (64 * (m.length / 64)) = c.partialBytes ++ t := by
    intro t
    rw [List.drop_append_of_le_length (by omega), ← h.buf_eq]
  unfold sm3
  congr 1
  rw [length_pad]
  by_cases hle : c.fill.val ≤ 55
  · obtain ⟨hb, hv, -, -⟩ := c.finish_one hle
    have hz : padZeros m.length = 55 - c.fill.val := by unfold padZeros; omega
    have hq : (m.length + 1 + padZeros m.length + 8) / 64 = m.length / 64 + (0 + 1) := by rw [hz]; omega
    have hs : (pad m).drop (64 * (m.length / 64)) = c.finish.buf.toList ++ [] := by
      rw [hb, hbit, pad]
      simp only [List.append_assoc, hz, hd, List.append_nil]
    rw [hq, chainBlocks_add, hs, chainBlocks_block, chainBlocks_zero, hv, h.v_eq]
    rw [pad]
    simp only [List.append_assoc]
    rw [chainBlocks_append _ _ _ _ (by omega)]
  · obtain ⟨first, hf, hb, hv, -, -⟩ := c.finish_two (by omega)
    have hz : padZeros m.length = (63 - c.fill.val) + 56 := by unfold padZeros; omega
    have hq : (m.length + 1 + padZeros m.length + 8) / 64 = m.length / 64 + (0 + 1 + 1) := by rw [hz]; omega
    have hzz := zeros_add (63 - c.fill.val) 56
    have hs : (pad m).drop (64 * (m.length / 64)) = first.toList ++ (c.finish.buf.toList ++ []) := by
      rw [hf, hb, hbit, pad]
      simp only [List.append_assoc, hz, hzz, hd, List.append_nil]
    rw [hq, chainBlocks_add, hs, chainBlocks_block, chainBlocks_block, chainBlocks_zero, hv, h.v_eq]
    rw [pad]
    simp only [List.append_assoc]
    rw [chainBlocks_append _ _ _ _ (by omega)]

/-- Any context that runs a whole message through answers with its SM3 digest (42_hasher.md R216; 43_search.md R255). -/
theorem HashCtx.digest_hashAll (c : HashCtx) (m : List Byte) (hm : m.length ≤ LEN_CAP) :
    digestOf (c.hashAll m).v = sm3 m := by
  have hn : (BitVec.ofNat 64 m.length).toNat = 0 + m.length := by
    rw [BitVec.toNat_ofNat]
    simp only [LEN_CAP] at hm
    omega
  exact HashCtx.Holds.finish (HashCtx.Holds.absorbAll c.holds_init m _ hn) hm

theorem HashCtx.finish_fill (c : HashCtx) : c.finish.fill.val = 0 := rfl

theorem HashCtx.finish_len (c : HashCtx) : c.finish.len = c.len := by
  by_cases h : c.fill.val ≤ 55
  · exact (c.finish_one h).2.2.2
  · exact (c.finish_two (by omega)).choose_spec.2.2.2.2

/-! ### What a context's stale bytes do not touch -/

/-- The two contexts differ at most in the stale bytes of `BUF`, those at `FILL` and above (10_state.md R37). -/
structure HashCtx.Agree (c d : HashCtx) : Prop where
  v : d.v = c.v
  fill : d.fill = c.fill
  len : d.len = c.len
  bytes : d.partialBytes = c.partialBytes

/-- `absorb` reads nothing else (42_hasher.md R201). -/
theorem HashCtx.Agree.absorb {c d : HashCtx} (h : HashCtx.Agree c d) (b : Byte) : HashCtx.Agree (c.absorb b) (d.absorb b) := by
  have hf := congrArg Fin.val h.fill
  rcases c.absorb_cases b with ⟨h1, h2, h3, h4, -⟩ | ⟨h1, h2, h3, h4, -⟩ <;>
    rcases d.absorb_cases b with ⟨g1, g2, g3, g4, -⟩ | ⟨g1, g2, g3, g4, -⟩ <;> try omega
  · have hb : (d.absorb b).buf = (c.absorb b).buf := Vector.toList_inj.mp (by rw [h4, g4, h.bytes])
    exact ⟨by rw [g3, h3, h.v, hb], Fin.ext (by omega), by simp [h.len], by simp [HashCtx.partialBytes, h2, g2]⟩
  · exact ⟨by rw [g3, h3, h.v], Fin.ext (by omega), by simp [h.len], by rw [g4, h4, h.bytes]⟩

theorem HashCtx.Agree.absorbAll (data : List Byte) : ∀ {c d : HashCtx}, HashCtx.Agree c d → HashCtx.Agree (c.absorbAll data) (d.absorbAll data) := by
  induction data with
  | nil => intro c d h; exact h
  | cons b bs ih => intro c d h; exact ih (h.absorb b)

/-- FINALIZE's body reads nothing else (42_hasher.md R210 to R212). -/
theorem HashCtx.Agree.finish {c d : HashCtx} (h : HashCtx.Agree c d) : HashCtx.Agree c.finish d.finish := by
  have hf := congrArg Fin.val h.fill
  have hb : d.bitlen = c.bitlen := by simp [HashCtx.bitlen, h.len]
  refine ⟨?_, rfl, by rw [HashCtx.finish_len, HashCtx.finish_len, h.len], by simp [HashCtx.partialBytes, HashCtx.finish_fill]⟩
  by_cases hc : c.fill.val ≤ 55
  · obtain ⟨a1, a2, -⟩ := c.finish_one hc
    obtain ⟨b1, b2, -⟩ := d.finish_one (by omega)
    have : d.finish.buf = c.finish.buf := Vector.toList_inj.mp (by rw [a1, b1, h.bytes, hf, hb])
    rw [a2, b2, this, h.v]
  · obtain ⟨f1, a0, a1, a2, -⟩ := c.finish_two (by omega)
    obtain ⟨f2, b0, b1, b2, -⟩ := d.finish_two (by omega)
    have : d.finish.buf = c.finish.buf := Vector.toList_inj.mp (by rw [a1, b1, hb])
    have e : f2 = f1 := Vector.toList_inj.mp (by rw [a0, b0, h.bytes, hf])
    rw [a2, b2, this, e, h.v]

/-! ### The commands in ACTIVE -/

/-- UPDATE in ACTIVE under the cap (42_hasher.md R204). -/
theorem execUpdate_active (d : List Byte) (s : State) (hp : s.hphase = .active) (hl : s.hctx.len.toNat + d.length ≤ LEN_CAP) :
    execUpdate d s = .next (respond .ok [] { s with hctx := { s.hctx.absorbAll d with len := s.hctx.len + BitVec.ofNat 64 d.length } }) := by
  simp only [execUpdate, hp, show ¬ LEN_CAP < s.hctx.len.toNat + d.length by omega, if_false]; rfl

/-- FINALIZE in ACTIVE (42_hasher.md R210). -/
theorem execFinalize_active (s : State) (hp : s.hphase = .active) :
    execFinalize s = .next (respond .ok (digestOf s.hctx.finish.v).toList { s with hctx := s.hctx.finish, hphase := .done }) := by
  simp only [execFinalize, hp]; rfl

end Sys2Proof.Machine
end

