-- ==== Sys2Proof/Laws/PerInstr.lean ====
section
/-! SUPPORT. Statements about every command as syntax, one lemma per constructor. -/

namespace Sys2Proof.Laws.EncodedLength

open Sys2Proof

/-- The length of a command's frame (30_encoding.md R103): 4, `8 + N`, 100 or `60 + TLEN` bytes. -/
def Statement (i : Instr) : Prop :=
  (encode i).length = match i with
    | .init => 4
    | .update data => 8 + data.length
    | .finalize => 4
    | .hash data => 8 + data.length
    | .compress _ _ => 100
    | .status => 4
    | .searchLt _ _ _ _ tdata => 60 + tdata.length
    | .searchLte _ _ _ _ tdata => 60 + tdata.length

theorem init : Statement .init := by simp [Statement, encode, encodeOperands]

theorem update (data : List Byte) : Statement (.update data) := by
  simp [Statement, encode, encodeOperands, length_encodeData]
  omega

theorem finalize : Statement .finalize := by simp [Statement, encode, encodeOperands]

theorem hash (data : List Byte) : Statement (.hash data) := by
  simp [Statement, encode, encodeOperands, length_encodeData]
  omega

theorem compress (vin : Chain) (blk : Block) : Statement (.compress vin blk) := by
  simp [Statement, encode, encodeOperands]

theorem status : Statement .status := by simp [Statement, encode, encodeOperands]

theorem searchLt (noff : Word) (lo hi : DWord) (bound : U256) (tdata : List Byte) :
    Statement (.searchLt noff lo hi bound tdata) := by
  simp [Statement, encode, encodeOperands, encodeSearch, length_encodeData]
  omega

theorem searchLte (noff : Word) (lo hi : DWord) (bound : U256) (tdata : List Byte) :
    Statement (.searchLte noff lo hi bound tdata) := by
  simp [Statement, encode, encodeOperands, encodeSearch, length_encodeData]
  omega

end Sys2Proof.Laws.EncodedLength
end

