-- ==== Sys2Proof/Laws/State.lean ====
section
/-! SUPPORT. The fields of State under each named update, so that no later proof unfolds a record update. -/

namespace Sys2Proof.Machine

/-! ### `respond` -/

@[simp] theorem respond_config (st : Status) (p : List Byte) (s : State) : (respond st p s).config = s.config := rfl
@[simp] theorem respond_cmdState (st : Status) (p : List Byte) (s : State) : (respond st p s).cmdState = .ready := rfl
@[simp] theorem respond_rx (st : Status) (p : List Byte) (s : State) : (respond st p s).rx = s.rx := rfl
@[simp] theorem respond_tx (st : Status) (p : List Byte) (s : State) : (respond st p s).tx = s.tx ++ st.code :: p := rfl
@[simp] theorem respond_hphase (st : Status) (p : List Byte) (s : State) : (respond st p s).hphase = s.hphase := rfl
@[simp] theorem respond_hctx (st : Status) (p : List Byte) (s : State) : (respond st p s).hctx = s.hctx := rfl
@[simp] theorem respond_sphase (st : Status) (p : List Byte) (s : State) : (respond st p s).sphase = s.sphase := rfl
@[simp] theorem respond_tmpl (st : Status) (p : List Byte) (s : State) : (respond st p s).tmpl = s.tmpl := rfl
@[simp] theorem respond_tlen (st : Status) (p : List Byte) (s : State) : (respond st p s).tlen = s.tlen := rfl
@[simp] theorem respond_noff (st : Status) (p : List Byte) (s : State) : (respond st p s).noff = s.noff := rfl
@[simp] theorem respond_lo (st : Status) (p : List Byte) (s : State) : (respond st p s).lo = s.lo := rfl
@[simp] theorem respond_hi (st : Status) (p : List Byte) (s : State) : (respond st p s).hi = s.hi := rfl
@[simp] theorem respond_bound (st : Status) (p : List Byte) (s : State) : (respond st p s).bound = s.bound := rfl
@[simp] theorem respond_mode (st : Status) (p : List Byte) (s : State) : (respond st p s).mode = s.mode := rfl
@[simp] theorem respond_found (st : Status) (p : List Byte) (s : State) : (respond st p s).found = s.found := rfl
@[simp] theorem respond_rnonce (st : Status) (p : List Byte) (s : State) : (respond st p s).rnonce = s.rnonce := rfl
@[simp] theorem respond_outcome (st : Status) (p : List Byte) (s : State) : (respond st p s).outcome = s.outcome := rfl
@[simp] theorem respond_workers (st : Status) (p : List Byte) (s : State) : (respond st p s).workers = s.workers := rfl
@[simp] theorem respond_host (st : Status) (p : List Byte) (s : State) : (respond st p s).host = s.host := rfl
@[simp] theorem respond_hostAccepts (st : Status) (p : List Byte) (s : State) : (respond st p s).hostAccepts = s.hostAccepts := rfl
@[simp] theorem respond_accepted (st : Status) (p : List Byte) (s : State) : (respond st p s).accepted = s.accepted := rfl
@[simp] theorem respond_sched (st : Status) (p : List Byte) (s : State) : (respond st p s).sched = s.sched := rfl
@[simp] theorem respond_tick (st : Status) (p : List Byte) (s : State) : (respond st p s).tick = s.tick := rfl

/-! ### `takeFrame` -/

@[simp] theorem takeFrame_config (r : List Byte) (s : State) : (takeFrame r s).config = s.config := rfl
@[simp] theorem takeFrame_cmdState (r : List Byte) (s : State) : (takeFrame r s).cmdState = s.cmdState := rfl
@[simp] theorem takeFrame_rx (r : List Byte) (s : State) : (takeFrame r s).rx = r := rfl
@[simp] theorem takeFrame_tx (r : List Byte) (s : State) : (takeFrame r s).tx = s.tx := rfl
@[simp] theorem takeFrame_hphase (r : List Byte) (s : State) : (takeFrame r s).hphase = s.hphase := rfl
@[simp] theorem takeFrame_hctx (r : List Byte) (s : State) : (takeFrame r s).hctx = s.hctx := rfl
@[simp] theorem takeFrame_sphase (r : List Byte) (s : State) : (takeFrame r s).sphase = s.sphase := rfl
@[simp] theorem takeFrame_tmpl (r : List Byte) (s : State) : (takeFrame r s).tmpl = s.tmpl := rfl
@[simp] theorem takeFrame_tlen (r : List Byte) (s : State) : (takeFrame r s).tlen = s.tlen := rfl
@[simp] theorem takeFrame_noff (r : List Byte) (s : State) : (takeFrame r s).noff = s.noff := rfl
@[simp] theorem takeFrame_lo (r : List Byte) (s : State) : (takeFrame r s).lo = s.lo := rfl
@[simp] theorem takeFrame_hi (r : List Byte) (s : State) : (takeFrame r s).hi = s.hi := rfl
@[simp] theorem takeFrame_bound (r : List Byte) (s : State) : (takeFrame r s).bound = s.bound := rfl
@[simp] theorem takeFrame_mode (r : List Byte) (s : State) : (takeFrame r s).mode = s.mode := rfl
@[simp] theorem takeFrame_found (r : List Byte) (s : State) : (takeFrame r s).found = s.found := rfl
@[simp] theorem takeFrame_rnonce (r : List Byte) (s : State) : (takeFrame r s).rnonce = s.rnonce := rfl
@[simp] theorem takeFrame_outcome (r : List Byte) (s : State) : (takeFrame r s).outcome = s.outcome := rfl
@[simp] theorem takeFrame_workers (r : List Byte) (s : State) : (takeFrame r s).workers = s.workers := rfl
@[simp] theorem takeFrame_host (r : List Byte) (s : State) : (takeFrame r s).host = s.host := rfl
@[simp] theorem takeFrame_hostAccepts (r : List Byte) (s : State) : (takeFrame r s).hostAccepts = s.hostAccepts := rfl
@[simp] theorem takeFrame_accepted (r : List Byte) (s : State) : (takeFrame r s).accepted = s.accepted := rfl
@[simp] theorem takeFrame_sched (r : List Byte) (s : State) : (takeFrame r s).sched = s.sched := rfl
@[simp] theorem takeFrame_tick (r : List Byte) (s : State) : (takeFrame r s).tick = s.tick := rfl

/-! ### `acceptResponse` -/

@[simp] theorem acceptResponse_config (s : State) : (acceptResponse s).config = s.config := rfl
@[simp] theorem acceptResponse_cmdState (s : State) : (acceptResponse s).cmdState = s.cmdState := rfl
@[simp] theorem acceptResponse_rx (s : State) : (acceptResponse s).rx = s.rx := rfl
@[simp] theorem acceptResponse_tx (s : State) : (acceptResponse s).tx = [] := rfl
@[simp] theorem acceptResponse_hphase (s : State) : (acceptResponse s).hphase = s.hphase := rfl
@[simp] theorem acceptResponse_hctx (s : State) : (acceptResponse s).hctx = s.hctx := rfl
@[simp] theorem acceptResponse_sphase (s : State) : (acceptResponse s).sphase = s.sphase := rfl
@[simp] theorem acceptResponse_tmpl (s : State) : (acceptResponse s).tmpl = s.tmpl := rfl
@[simp] theorem acceptResponse_tlen (s : State) : (acceptResponse s).tlen = s.tlen := rfl
@[simp] theorem acceptResponse_noff (s : State) : (acceptResponse s).noff = s.noff := rfl
@[simp] theorem acceptResponse_lo (s : State) : (acceptResponse s).lo = s.lo := rfl
@[simp] theorem acceptResponse_hi (s : State) : (acceptResponse s).hi = s.hi := rfl
@[simp] theorem acceptResponse_bound (s : State) : (acceptResponse s).bound = s.bound := rfl
@[simp] theorem acceptResponse_mode (s : State) : (acceptResponse s).mode = s.mode := rfl
@[simp] theorem acceptResponse_found (s : State) : (acceptResponse s).found = s.found := rfl
@[simp] theorem acceptResponse_rnonce (s : State) : (acceptResponse s).rnonce = s.rnonce := rfl
@[simp] theorem acceptResponse_outcome (s : State) : (acceptResponse s).outcome = s.outcome := rfl
@[simp] theorem acceptResponse_workers (s : State) : (acceptResponse s).workers = s.workers := rfl
@[simp] theorem acceptResponse_host (s : State) : (acceptResponse s).host = s.host := rfl
@[simp] theorem acceptResponse_hostAccepts (s : State) : (acceptResponse s).hostAccepts = s.hostAccepts := rfl
@[simp] theorem acceptResponse_accepted (s : State) : (acceptResponse s).accepted = s.accepted ++ s.tx := rfl
@[simp] theorem acceptResponse_sched (s : State) : (acceptResponse s).sched = s.sched := rfl
@[simp] theorem acceptResponse_tick (s : State) : (acceptResponse s).tick = s.tick := rfl

/-! ### `setWorker` -/

@[simp] theorem setWorker_config (k : Nat) (w : Worker) (s : State) : (setWorker k w s).config = s.config := rfl
@[simp] theorem setWorker_cmdState (k : Nat) (w : Worker) (s : State) : (setWorker k w s).cmdState = s.cmdState := rfl
@[simp] theorem setWorker_rx (k : Nat) (w : Worker) (s : State) : (setWorker k w s).rx = s.rx := rfl
@[simp] theorem setWorker_tx (k : Nat) (w : Worker) (s : State) : (setWorker k w s).tx = s.tx := rfl
@[simp] theorem setWorker_hphase (k : Nat) (w : Worker) (s : State) : (setWorker k w s).hphase = s.hphase := rfl
@[simp] theorem setWorker_hctx (k : Nat) (w : Worker) (s : State) : (setWorker k w s).hctx = s.hctx := rfl
@[simp] theorem setWorker_sphase (k : Nat) (w : Worker) (s : State) : (setWorker k w s).sphase = s.sphase := rfl
@[simp] theorem setWorker_tmpl (k : Nat) (w : Worker) (s : State) : (setWorker k w s).tmpl = s.tmpl := rfl
@[simp] theorem setWorker_tlen (k : Nat) (w : Worker) (s : State) : (setWorker k w s).tlen = s.tlen := rfl
@[simp] theorem setWorker_noff (k : Nat) (w : Worker) (s : State) : (setWorker k w s).noff = s.noff := rfl
@[simp] theorem setWorker_lo (k : Nat) (w : Worker) (s : State) : (setWorker k w s).lo = s.lo := rfl
@[simp] theorem setWorker_hi (k : Nat) (w : Worker) (s : State) : (setWorker k w s).hi = s.hi := rfl
@[simp] theorem setWorker_bound (k : Nat) (w : Worker) (s : State) : (setWorker k w s).bound = s.bound := rfl
@[simp] theorem setWorker_mode (k : Nat) (w : Worker) (s : State) : (setWorker k w s).mode = s.mode := rfl
@[simp] theorem setWorker_found (k : Nat) (w : Worker) (s : State) : (setWorker k w s).found = s.found := rfl
@[simp] theorem setWorker_rnonce (k : Nat) (w : Worker) (s : State) : (setWorker k w s).rnonce = s.rnonce := rfl
@[simp] theorem setWorker_outcome (k : Nat) (w : Worker) (s : State) : (setWorker k w s).outcome = s.outcome := rfl
@[simp] theorem setWorker_workers (k : Nat) (w : Worker) (s : State) : (setWorker k w s).workers = s.workers.set k w := rfl
@[simp] theorem setWorker_host (k : Nat) (w : Worker) (s : State) : (setWorker k w s).host = s.host := rfl
@[simp] theorem setWorker_hostAccepts (k : Nat) (w : Worker) (s : State) : (setWorker k w s).hostAccepts = s.hostAccepts := rfl
@[simp] theorem setWorker_accepted (k : Nat) (w : Worker) (s : State) : (setWorker k w s).accepted = s.accepted := rfl
@[simp] theorem setWorker_sched (k : Nat) (w : Worker) (s : State) : (setWorker k w s).sched = s.sched := rfl
@[simp] theorem setWorker_tick (k : Nat) (w : Worker) (s : State) : (setWorker k w s).tick = s.tick := rfl

/-! ### `useChoice` -/

@[simp] theorem useChoice_config (s : State) : (useChoice s).config = s.config := rfl
@[simp] theorem useChoice_cmdState (s : State) : (useChoice s).cmdState = s.cmdState := rfl
@[simp] theorem useChoice_rx (s : State) : (useChoice s).rx = s.rx := rfl
@[simp] theorem useChoice_tx (s : State) : (useChoice s).tx = s.tx := rfl
@[simp] theorem useChoice_hphase (s : State) : (useChoice s).hphase = s.hphase := rfl
@[simp] theorem useChoice_hctx (s : State) : (useChoice s).hctx = s.hctx := rfl
@[simp] theorem useChoice_sphase (s : State) : (useChoice s).sphase = s.sphase := rfl
@[simp] theorem useChoice_tmpl (s : State) : (useChoice s).tmpl = s.tmpl := rfl
@[simp] theorem useChoice_tlen (s : State) : (useChoice s).tlen = s.tlen := rfl
@[simp] theorem useChoice_noff (s : State) : (useChoice s).noff = s.noff := rfl
@[simp] theorem useChoice_lo (s : State) : (useChoice s).lo = s.lo := rfl
@[simp] theorem useChoice_hi (s : State) : (useChoice s).hi = s.hi := rfl
@[simp] theorem useChoice_bound (s : State) : (useChoice s).bound = s.bound := rfl
@[simp] theorem useChoice_mode (s : State) : (useChoice s).mode = s.mode := rfl
@[simp] theorem useChoice_found (s : State) : (useChoice s).found = s.found := rfl
@[simp] theorem useChoice_rnonce (s : State) : (useChoice s).rnonce = s.rnonce := rfl
@[simp] theorem useChoice_outcome (s : State) : (useChoice s).outcome = s.outcome := rfl
@[simp] theorem useChoice_workers (s : State) : (useChoice s).workers = s.workers := rfl
@[simp] theorem useChoice_host (s : State) : (useChoice s).host = s.host := rfl
@[simp] theorem useChoice_hostAccepts (s : State) : (useChoice s).hostAccepts = s.hostAccepts := rfl
@[simp] theorem useChoice_accepted (s : State) : (useChoice s).accepted = s.accepted := rfl
@[simp] theorem useChoice_sched (s : State) : (useChoice s).sched = s.sched.tail := rfl
@[simp] theorem useChoice_tick (s : State) : (useChoice s).tick = s.tick + 1 := rfl

/-! ### `endStep` -/

@[simp] theorem endStep_config (s : State) : (endStep s).config = s.config := rfl
@[simp] theorem endStep_cmdState (s : State) : (endStep s).cmdState = s.cmdState := rfl
@[simp] theorem endStep_rx (s : State) : (endStep s).rx = s.rx := rfl
@[simp] theorem endStep_tx (s : State) : (endStep s).tx = s.tx := rfl
@[simp] theorem endStep_hphase (s : State) : (endStep s).hphase = s.hphase := rfl
@[simp] theorem endStep_hctx (s : State) : (endStep s).hctx = s.hctx := rfl
@[simp] theorem endStep_sphase (s : State) : (endStep s).sphase = .done := rfl
@[simp] theorem endStep_tmpl (s : State) : (endStep s).tmpl = s.tmpl := rfl
@[simp] theorem endStep_tlen (s : State) : (endStep s).tlen = s.tlen := rfl
@[simp] theorem endStep_noff (s : State) : (endStep s).noff = s.noff := rfl
@[simp] theorem endStep_lo (s : State) : (endStep s).lo = s.lo := rfl
@[simp] theorem endStep_hi (s : State) : (endStep s).hi = s.hi := rfl
@[simp] theorem endStep_bound (s : State) : (endStep s).bound = s.bound := rfl
@[simp] theorem endStep_mode (s : State) : (endStep s).mode = s.mode := rfl
@[simp] theorem endStep_found (s : State) : (endStep s).found = s.found := rfl
@[simp] theorem endStep_rnonce (s : State) : (endStep s).rnonce = s.rnonce := rfl
@[simp] theorem endStep_outcome (s : State) : (endStep s).outcome = if s.found = true then .found else .exhausted := rfl
@[simp] theorem endStep_workers (s : State) : (endStep s).workers = s.workers := rfl
@[simp] theorem endStep_host (s : State) : (endStep s).host = s.host := rfl
@[simp] theorem endStep_hostAccepts (s : State) : (endStep s).hostAccepts = s.hostAccepts := rfl
@[simp] theorem endStep_accepted (s : State) : (endStep s).accepted = s.accepted := rfl
@[simp] theorem endStep_sched (s : State) : (endStep s).sched = s.sched := rfl
@[simp] theorem endStep_tick (s : State) : (endStep s).tick = s.tick := rfl

/-! ### `loadSearch` -/

@[simp] theorem loadSearch_config (m : Mode) (noff : Word) (lo hi : DWord) (bound : U256) (n : Nat) (t : List Host.Cell) (s : State) : (loadSearch m noff lo hi bound n t s).config = s.config := rfl
@[simp] theorem loadSearch_cmdState (m : Mode) (noff : Word) (lo hi : DWord) (bound : U256) (n : Nat) (t : List Host.Cell) (s : State) : (loadSearch m noff lo hi bound n t s).cmdState = .busy := rfl
@[simp] theorem loadSearch_rx (m : Mode) (noff : Word) (lo hi : DWord) (bound : U256) (n : Nat) (t : List Host.Cell) (s : State) : (loadSearch m noff lo hi bound n t s).rx = s.rx := rfl
@[simp] theorem loadSearch_tx (m : Mode) (noff : Word) (lo hi : DWord) (bound : U256) (n : Nat) (t : List Host.Cell) (s : State) : (loadSearch m noff lo hi bound n t s).tx = s.tx := rfl
@[simp] theorem loadSearch_hphase (m : Mode) (noff : Word) (lo hi : DWord) (bound : U256) (n : Nat) (t : List Host.Cell) (s : State) : (loadSearch m noff lo hi bound n t s).hphase = s.hphase := rfl
@[simp] theorem loadSearch_hctx (m : Mode) (noff : Word) (lo hi : DWord) (bound : U256) (n : Nat) (t : List Host.Cell) (s : State) : (loadSearch m noff lo hi bound n t s).hctx = s.hctx := rfl
@[simp] theorem loadSearch_sphase (m : Mode) (noff : Word) (lo hi : DWord) (bound : U256) (n : Nat) (t : List Host.Cell) (s : State) : (loadSearch m noff lo hi bound n t s).sphase = .searching := rfl
@[simp] theorem loadSearch_tmpl (m : Mode) (noff : Word) (lo hi : DWord) (bound : U256) (n : Nat) (t : List Host.Cell) (s : State) : (loadSearch m noff lo hi bound n t s).tmpl = t := rfl
@[simp] theorem loadSearch_tlen (m : Mode) (noff : Word) (lo hi : DWord) (bound : U256) (n : Nat) (t : List Host.Cell) (s : State) : (loadSearch m noff lo hi bound n t s).tlen = BitVec.ofNat 32 n := rfl
@[simp] theorem loadSearch_noff (m : Mode) (noff : Word) (lo hi : DWord) (bound : U256) (n : Nat) (t : List Host.Cell) (s : State) : (loadSearch m noff lo hi bound n t s).noff = noff := rfl
@[simp] theorem loadSearch_lo (m : Mode) (noff : Word) (lo hi : DWord) (bound : U256) (n : Nat) (t : List Host.Cell) (s : State) : (loadSearch m noff lo hi bound n t s).lo = lo := rfl
@[simp] theorem loadSearch_hi (m : Mode) (noff : Word) (lo hi : DWord) (bound : U256) (n : Nat) (t : List Host.Cell) (s : State) : (loadSearch m noff lo hi bound n t s).hi = hi := rfl
@[simp] theorem loadSearch_bound (m : Mode) (noff : Word) (lo hi : DWord) (bound : U256) (n : Nat) (t : List Host.Cell) (s : State) : (loadSearch m noff lo hi bound n t s).bound = bound := rfl
@[simp] theorem loadSearch_mode (m : Mode) (noff : Word) (lo hi : DWord) (bound : U256) (n : Nat) (t : List Host.Cell) (s : State) : (loadSearch m noff lo hi bound n t s).mode = m := rfl
@[simp] theorem loadSearch_found (m : Mode) (noff : Word) (lo hi : DWord) (bound : U256) (n : Nat) (t : List Host.Cell) (s : State) : (loadSearch m noff lo hi bound n t s).found = false := rfl
@[simp] theorem loadSearch_rnonce (m : Mode) (noff : Word) (lo hi : DWord) (bound : U256) (n : Nat) (t : List Host.Cell) (s : State) : (loadSearch m noff lo hi bound n t s).rnonce = 0 := rfl
@[simp] theorem loadSearch_outcome (m : Mode) (noff : Word) (lo hi : DWord) (bound : U256) (n : Nat) (t : List Host.Cell) (s : State) : (loadSearch m noff lo hi bound n t s).outcome = .none := rfl
@[simp] theorem loadSearch_workers (m : Mode) (noff : Word) (lo hi : DWord) (bound : U256) (n : Nat) (t : List Host.Cell) (s : State) : (loadSearch m noff lo hi bound n t s).workers = s.workers.mapIdx (startWorker s.config.nworkers lo hi) := rfl
@[simp] theorem loadSearch_host (m : Mode) (noff : Word) (lo hi : DWord) (bound : U256) (n : Nat) (t : List Host.Cell) (s : State) : (loadSearch m noff lo hi bound n t s).host = s.host := rfl
@[simp] theorem loadSearch_hostAccepts (m : Mode) (noff : Word) (lo hi : DWord) (bound : U256) (n : Nat) (t : List Host.Cell) (s : State) : (loadSearch m noff lo hi bound n t s).hostAccepts = s.hostAccepts := rfl
@[simp] theorem loadSearch_accepted (m : Mode) (noff : Word) (lo hi : DWord) (bound : U256) (n : Nat) (t : List Host.Cell) (s : State) : (loadSearch m noff lo hi bound n t s).accepted = s.accepted := rfl
@[simp] theorem loadSearch_sched (m : Mode) (noff : Word) (lo hi : DWord) (bound : U256) (n : Nat) (t : List Host.Cell) (s : State) : (loadSearch m noff lo hi bound n t s).sched = s.sched := rfl
@[simp] theorem loadSearch_tick (m : Mode) (noff : Word) (lo hi : DWord) (bound : U256) (n : Nat) (t : List Host.Cell) (s : State) : (loadSearch m noff lo hi bound n t s).tick = s.tick := rfl

/-! ### `resetCore` -/

@[simp] theorem resetCore_config (s : State) : (resetCore s).config = s.config := rfl
@[simp] theorem resetCore_cmdState (s : State) : (resetCore s).cmdState = (State.resetOf s.config).cmdState := rfl
@[simp] theorem resetCore_rx (s : State) : (resetCore s).rx = (State.resetOf s.config).rx := rfl
@[simp] theorem resetCore_tx (s : State) : (resetCore s).tx = (State.resetOf s.config).tx := rfl
@[simp] theorem resetCore_hphase (s : State) : (resetCore s).hphase = (State.resetOf s.config).hphase := rfl
@[simp] theorem resetCore_hctx (s : State) : (resetCore s).hctx = (State.resetOf s.config).hctx := rfl
@[simp] theorem resetCore_sphase (s : State) : (resetCore s).sphase = (State.resetOf s.config).sphase := rfl
@[simp] theorem resetCore_tmpl (s : State) : (resetCore s).tmpl = (State.resetOf s.config).tmpl := rfl
@[simp] theorem resetCore_tlen (s : State) : (resetCore s).tlen = (State.resetOf s.config).tlen := rfl
@[simp] theorem resetCore_noff (s : State) : (resetCore s).noff = (State.resetOf s.config).noff := rfl
@[simp] theorem resetCore_lo (s : State) : (resetCore s).lo = (State.resetOf s.config).lo := rfl
@[simp] theorem resetCore_hi (s : State) : (resetCore s).hi = (State.resetOf s.config).hi := rfl
@[simp] theorem resetCore_bound (s : State) : (resetCore s).bound = (State.resetOf s.config).bound := rfl
@[simp] theorem resetCore_mode (s : State) : (resetCore s).mode = (State.resetOf s.config).mode := rfl
@[simp] theorem resetCore_found (s : State) : (resetCore s).found = (State.resetOf s.config).found := rfl
@[simp] theorem resetCore_rnonce (s : State) : (resetCore s).rnonce = (State.resetOf s.config).rnonce := rfl
@[simp] theorem resetCore_outcome (s : State) : (resetCore s).outcome = (State.resetOf s.config).outcome := rfl
@[simp] theorem resetCore_workers (s : State) : (resetCore s).workers = (State.resetOf s.config).workers := rfl
@[simp] theorem resetCore_host (s : State) : (resetCore s).host = s.host := rfl
@[simp] theorem resetCore_hostAccepts (s : State) : (resetCore s).hostAccepts = s.hostAccepts := rfl
@[simp] theorem resetCore_accepted (s : State) : (resetCore s).accepted = s.accepted := rfl
@[simp] theorem resetCore_sched (s : State) : (resetCore s).sched = s.sched := rfl
@[simp] theorem resetCore_tick (s : State) : (resetCore s).tick = s.tick := rfl

/-! ### `placeFrame` -/

@[simp] theorem placeFrame_config (b : List Byte) (s : State) : (placeFrame b s).config = s.config := rfl
@[simp] theorem placeFrame_cmdState (b : List Byte) (s : State) : (placeFrame b s).cmdState = .ready := rfl
@[simp] theorem placeFrame_rx (b : List Byte) (s : State) : (placeFrame b s).rx = b ++ s.rx := rfl
@[simp] theorem placeFrame_tx (b : List Byte) (s : State) : (placeFrame b s).tx = [] := rfl
@[simp] theorem placeFrame_hphase (b : List Byte) (s : State) : (placeFrame b s).hphase = s.hphase := rfl
@[simp] theorem placeFrame_hctx (b : List Byte) (s : State) : (placeFrame b s).hctx = s.hctx := rfl
@[simp] theorem placeFrame_sphase (b : List Byte) (s : State) : (placeFrame b s).sphase = s.sphase := rfl
@[simp] theorem placeFrame_tmpl (b : List Byte) (s : State) : (placeFrame b s).tmpl = s.tmpl := rfl
@[simp] theorem placeFrame_tlen (b : List Byte) (s : State) : (placeFrame b s).tlen = s.tlen := rfl
@[simp] theorem placeFrame_noff (b : List Byte) (s : State) : (placeFrame b s).noff = s.noff := rfl
@[simp] theorem placeFrame_lo (b : List Byte) (s : State) : (placeFrame b s).lo = s.lo := rfl
@[simp] theorem placeFrame_hi (b : List Byte) (s : State) : (placeFrame b s).hi = s.hi := rfl
@[simp] theorem placeFrame_bound (b : List Byte) (s : State) : (placeFrame b s).bound = s.bound := rfl
@[simp] theorem placeFrame_mode (b : List Byte) (s : State) : (placeFrame b s).mode = s.mode := rfl
@[simp] theorem placeFrame_found (b : List Byte) (s : State) : (placeFrame b s).found = s.found := rfl
@[simp] theorem placeFrame_rnonce (b : List Byte) (s : State) : (placeFrame b s).rnonce = s.rnonce := rfl
@[simp] theorem placeFrame_outcome (b : List Byte) (s : State) : (placeFrame b s).outcome = s.outcome := rfl
@[simp] theorem placeFrame_workers (b : List Byte) (s : State) : (placeFrame b s).workers = s.workers := rfl
@[simp] theorem placeFrame_host (b : List Byte) (s : State) : (placeFrame b s).host = .letRun :: s.host := rfl
@[simp] theorem placeFrame_hostAccepts (b : List Byte) (s : State) : (placeFrame b s).hostAccepts = s.hostAccepts := rfl
@[simp] theorem placeFrame_accepted (b : List Byte) (s : State) : (placeFrame b s).accepted = s.accepted ++ s.tx := rfl
@[simp] theorem placeFrame_sched (b : List Byte) (s : State) : (placeFrame b s).sched = s.sched := rfl
@[simp] theorem placeFrame_tick (b : List Byte) (s : State) : (placeFrame b s).tick = s.tick := rfl

/-! ### `report` -/

@[simp] theorem report_config (n : DWord) (s : State) : (report n s).config = s.config := by
  unfold report; split <;> rfl
@[simp] theorem report_cmdState (n : DWord) (s : State) : (report n s).cmdState = s.cmdState := by
  unfold report; split <;> rfl
@[simp] theorem report_rx (n : DWord) (s : State) : (report n s).rx = s.rx := by
  unfold report; split <;> rfl
@[simp] theorem report_tx (n : DWord) (s : State) : (report n s).tx = s.tx := by
  unfold report; split <;> rfl
@[simp] theorem report_hphase (n : DWord) (s : State) : (report n s).hphase = s.hphase := by
  unfold report; split <;> rfl
@[simp] theorem report_hctx (n : DWord) (s : State) : (report n s).hctx = s.hctx := by
  unfold report; split <;> rfl
@[simp] theorem report_sphase (n : DWord) (s : State) : (report n s).sphase = s.sphase := by
  unfold report; split <;> rfl
@[simp] theorem report_tmpl (n : DWord) (s : State) : (report n s).tmpl = s.tmpl := by
  unfold report; split <;> rfl
@[simp] theorem report_tlen (n : DWord) (s : State) : (report n s).tlen = s.tlen := by
  unfold report; split <;> rfl
@[simp] theorem report_noff (n : DWord) (s : State) : (report n s).noff = s.noff := by
  unfold report; split <;> rfl
@[simp] theorem report_lo (n : DWord) (s : State) : (report n s).lo = s.lo := by
  unfold report; split <;> rfl
@[simp] theorem report_hi (n : DWord) (s : State) : (report n s).hi = s.hi := by
  unfold report; split <;> rfl
@[simp] theorem report_bound (n : DWord) (s : State) : (report n s).bound = s.bound := by
  unfold report; split <;> rfl
@[simp] theorem report_mode (n : DWord) (s : State) : (report n s).mode = s.mode := by
  unfold report; split <;> rfl
@[simp] theorem report_found (n : DWord) (s : State) : (report n s).found = true := by
  cases h : s.found <;> simp [report, h]
@[simp] theorem report_rnonce (n : DWord) (s : State) :
    (report n s).rnonce = if s.found = false then n else s.rnonce := by
  cases h : s.found <;> simp [report, h]
@[simp] theorem report_outcome (n : DWord) (s : State) : (report n s).outcome = s.outcome := by
  unfold report; split <;> rfl
@[simp] theorem report_workers (n : DWord) (s : State) : (report n s).workers = s.workers := by
  unfold report; split <;> rfl
@[simp] theorem report_host (n : DWord) (s : State) : (report n s).host = s.host := by
  unfold report; split <;> rfl
@[simp] theorem report_hostAccepts (n : DWord) (s : State) : (report n s).hostAccepts = s.hostAccepts := by
  unfold report; split <;> rfl
@[simp] theorem report_accepted (n : DWord) (s : State) : (report n s).accepted = s.accepted := by
  unfold report; split <;> rfl
@[simp] theorem report_sched (n : DWord) (s : State) : (report n s).sched = s.sched := by
  unfold report; split <;> rfl
@[simp] theorem report_tick (n : DWord) (s : State) : (report n s).tick = s.tick := by
  unfold report; split <;> rfl

end Sys2Proof.Machine
end

