-- ==== Sys2Proof/Laws/Search.lean ====
section
/-! SUPPORT. What the parts of the Nonce Search Engine can do (43_search.md). -/

namespace Sys2Proof.Machine

open Sys2Proof

/-! ### Checks and partition -/

theorem configFails_iff (tmplMax tlen noff lo hi : Nat) :
    configFails tmplMax tlen noff lo hi = true ↔ tmplMax < tlen ∨ tlen < noff + 8 ∨ hi ≤ lo := by
  unfold configFails
  split_ifs <;> simp <;> omega

theorem cutPoint_zero (n lo hi : Nat) : cutPoint n lo hi 0 = lo := by simp [cutPoint]

theorem cutPoint_mono (n lo hi : Nat) {j k : Nat} (h : j ≤ k) : cutPoint n lo hi j ≤ cutPoint n lo hi k := by
  have := Nat.mul_le_mul_right (chunkSize n (hi - lo)) h
  unfold cutPoint
  omega

theorem cutPoint_le (n lo hi k : Nat) (h : lo ≤ hi) : cutPoint n lo hi k ≤ hi := by
  unfold cutPoint
  omega

theorem cutPoint_ge (n lo hi k : Nat) : lo ≤ cutPoint n lo hi k := by
  unfold cutPoint
  omega

theorem chunkSize_mul_ge (n L : Nat) (h : 1 ≤ n) : L ≤ n * chunkSize n L := by
  have := Nat.div_add_mod (L + n - 1) n
  have := Nat.mod_lt (L + n - 1) (show 0 < n by omega)
  unfold chunkSize
  omega

theorem cutPoint_last (n lo hi : Nat) (h : 1 ≤ n) (hl : lo ≤ hi) : cutPoint n lo hi n = hi := by
  have := chunkSize_mul_ge n (hi - lo) h
  unfold cutPoint
  omega

/-- Everything SEARCH's own step can do (43_search.md R241 to R243): a refusal that changes nothing, or the load. -/
theorem startSearch_cases (m : Mode) (noff : Word) (lo hi : DWord) (bound : U256) (tdata : List Byte) (s : State) :
    (configFails s.config.tmplMax tdata.length noff.toNat lo.toNat hi.toNat = true ∧
      startSearch m noff lo hi bound tdata s = .next (respond .configError [] s)) ∨
    (configFails s.config.tmplMax tdata.length noff.toNat lo.toNat hi.toNat = false ∧
      tdata.length ≤ s.config.tmplMax ∧ noff.toNat + 8 ≤ tdata.length ∧ lo.toNat < hi.toNat ∧
      startSearch m noff lo hi bound tdata s =
        .next (loadSearch m noff lo hi bound tdata.length (memSetAll s.tmpl 0 tdata) s)) := by
  cases h : configFails s.config.tmplMax tdata.length noff.toNat lo.toNat hi.toNat
  · right
    have hn : ¬ (s.config.tmplMax < tdata.length ∨ tdata.length < noff.toNat + 8 ∨ hi.toNat ≤ lo.toNat) := by
      rw [← configFails_iff, h]; simp
    have hw : memWrite s.config.tmplMax s.tmpl 0 tdata = .ok (memSetAll s.tmpl 0 tdata) := memWrite_eq_ok (by omega)
    refine ⟨rfl, by omega, by omega, by omega, ?_⟩
    simp [startSearch, h, hw]
  · left
    refine ⟨rfl, ?_⟩
    simp [startSearch, h, raise]

/-! ### The candidate message -/

/-- The candidate depends on the template and its two registers only (43_search.md R250). -/
theorem cand_congr {s t : State} (n : DWord) (h1 : t.config = s.config) (h2 : t.tmpl = s.tmpl) (h3 : t.noff = s.noff)
    (h4 : t.tlen = s.tlen) : cand t n = cand s n := by
  simp only [cand, h1, h2, h3, h4]

theorem qualifying_congr {s t : State} (n : DWord) (h1 : t.config = s.config) (h2 : SameSearchConfig s t) :
    Qualifying t n ↔ Qualifying s n := by
  obtain ⟨ht, hl, hn, -, -, hb, hm⟩ := h2
  simp only [Qualifying, cand_congr n h1 ht hn hl, hb, hm]

theorem loaded_congr {s t : State} (h1 : t.config = s.config) (h2 : SameSearchConfig s t) : Loaded t ↔ Loaded s := by
  obtain ⟨ht, hl, hn, hlo, hhi, -, -⟩ := h2
  constructor
  · intro ⟨a, b, c, d⟩
    rw [hn, hl] at a
    rw [hl, h1] at b
    rw [hlo, hhi] at c
    rw [hl, ht] at d
    exact ⟨a, b, c, d⟩
  · intro ⟨a, b, c, d⟩
    rw [← hn, ← hl] at a
    rw [← hl, ← h1] at b
    rw [← hlo, ← hhi] at c
    rw [← hl, ← ht] at d
    exact ⟨a, b, c, d⟩

/-- Under a loaded configuration every candidate is defined and has the template's length (43_search.md R250, R268). -/
theorem cand_loaded {s : State} (h : Loaded s) (n : DWord) : ∃ m, cand s n = .ok m ∧ m.length = s.tlen.toNat := by
  have h1 := h.nonce_fits
  have h2 := h.template_fits
  obtain ⟨xs, hx⟩ := memBytes_isOk s.noff.toNat s.tmpl 0 (by
    intro i hi
    rw [Nat.zero_add]
    exact h.template_written i (by omega))
  obtain ⟨ys, hy⟩ := memBytes_isOk (s.tlen.toNat - (s.noff.toNat + 8)) s.tmpl (s.noff.toNat + 8) (by
    intro i hi
    exact h.template_written _ (by omega))
  refine ⟨xs ++ (enc64 n).toList ++ ys, ?_, ?_⟩
  · simp only [cand, memRead]
    rw [if_pos (by omega), hx, if_pos (by omega), hy]
  · have := (memBytes_ok _ hx).1
    have := (memBytes_ok _ hy).1
    simp
    omega

/-! ### Which worker moves -/

theorem mem_runningWorkers {s : State} {w : Worker} {k : Nat} :
    (w, k) ∈ runningWorkers s ↔ s.workers[k]? = some w ∧ w.st = .run := by
  simp [runningWorkers, List.mem_filter, List.mk_mem_zipIdx_iff_getElem?]

/-- The worker that moves is an enabled one (43_search.md R254). -/
theorem pickWorker_some {s : State} {w : Worker} {k : Nat} (h : pickWorker s = some (w, k)) :
    s.workers[k]? = some w ∧ w.st = .run := by
  apply mem_runningWorkers.mp
  unfold pickWorker at h
  split at h
  · cases h
  · rename_i p hp
    cases h
    rw [hp]
    exact List.mem_singleton.mpr rfl
  · rename_i p q ps hp
    rw [hp]
    exact List.mem_of_getElem? h

/-- No worker moves exactly when all have stopped (43_search.md R259). -/
theorem pickWorker_none {s : State} : pickWorker s = none ↔ ∀ w ∈ s.workers, w.st = .stop := by
  have hrun : runningWorkers s = [] ↔ ∀ w ∈ s.workers, w.st = .stop := by
    rw [List.eq_nil_iff_forall_not_mem]
    constructor
    · intro h w hw
      obtain ⟨k, hk⟩ := List.mem_iff_getElem?.mp hw
      cases hst : w.st
      · exact absurd (mem_runningWorkers.mpr ⟨hk, hst⟩) (h (w, k))
      · rfl
    · rintro h ⟨w, k⟩ hm
      obtain ⟨hk, hst⟩ := mem_runningWorkers.mp hm
      have := h w (List.mem_of_getElem? hk)
      rw [hst] at this
      cases this
  rw [← hrun]
  unfold pickWorker
  split
  · rename_i h; simp [h]
  · rename_i h; simp [h]
  · rename_i p q ps h
    simp only [h, reduceCtorEq, iff_false]
    rw [List.getElem?_eq_getElem (Nat.mod_lt _ (by simp))]
    simp

/-- Some choice of the scheduler picks any given enabled worker (93_implementation_defined.md U7). -/
theorem pickWorker_choice {s : State} {w : Worker} {k : Nat} (hk : s.workers[k]? = some w) (hst : w.st = .run) :
    ∃ n, ∀ rest, pickWorker { s with sched := n :: rest } = some (w, k) := by
  have hm := mem_runningWorkers.mpr ⟨hk, hst⟩
  obtain ⟨n, hn, he⟩ := List.mem_iff_getElem.mp hm
  refine ⟨n, fun rest => ?_⟩
  have hr : runningWorkers { s with sched := n :: rest } = runningWorkers s := rfl
  unfold pickWorker
  rw [hr]
  revert hn he
  generalize runningWorkers s = r
  intro hn he
  match r, hn, he with
  | [p], hn, he =>
    have h0 : n = 0 := by simpa using hn
    subst h0
    simpa using he
  | p :: q :: ps, hn, he =>
    have hmod : schedChoice { s with sched := n :: rest } % (p :: q :: ps).length = n := Nat.mod_eq_of_lt hn
    simp only [hmod]
    rw [List.getElem?_eq_getElem hn, he]

/-! ### The worker step -/

/-- Everything a worker step can do (43_search.md R254): stop, test and report, test and go on, or fault on a candidate. -/
theorem workerStep_cases (k : Nat) (w : Worker) (s : State) :
    (s.found = true ∧ workerStep k w s = .next (setWorker k { w with st := .stop } s)) ∨
    (s.found = false ∧ w.cur = w.endN ∧ workerStep k w s = .next (setWorker k { w with st := .stop } s)) ∨
    (s.found = false ∧ w.cur ≠ w.endN ∧ ∃ f, cand s w.cur = .error f ∧ workerStep k w s = .fault f) ∨
    (s.found = false ∧ w.cur ≠ w.endN ∧ ∃ m, cand s w.cur = .ok m ∧
      qualifies s.mode s.bound (digestOf (w.ctx.hashAll m).v) = true ∧
      workerStep k w s = .next (setWorker k { w with st := .stop, ctx := w.ctx.hashAll m } (report w.cur s))) ∨
    (s.found = false ∧ w.cur ≠ w.endN ∧ ∃ m, cand s w.cur = .ok m ∧
      qualifies s.mode s.bound (digestOf (w.ctx.hashAll m).v) = false ∧
      workerStep k w s = .next (setWorker k { w with cur := w.cur + 1, ctx := w.ctx.hashAll m } s)) := by
  cases hf : s.found
  · by_cases hc : w.cur = w.endN
    · right; left
      exact ⟨rfl, hc, by simp [workerStep, hf, hc]⟩
    · cases hm : cand s w.cur with
      | error f =>
        right; right; left
        exact ⟨rfl, hc, f, rfl, by simp [workerStep, hf, hc, hm]⟩
      | ok m =>
        cases hq : qualifies s.mode s.bound (digestOf (w.ctx.hashAll m).v)
        · right; right; right; right
          exact ⟨rfl, hc, m, rfl, hq, by simp [workerStep, hf, hc, hm, hq]⟩
        · right; right; right; left
          exact ⟨rfl, hc, m, rfl, hq, by simp [workerStep, hf, hc, hm, hq]⟩
  · left
    exact ⟨rfl, by simp [workerStep, hf]⟩

/-- What no worker step touches, whatever it does (43_search.md R242, R265; 20_memory.md R84). -/
theorem workerStep_frame {k : Nat} {w : Worker} {s t : State} (h : workerStep k w s = .next t) :
    SameHasher s t ∧ SameSearchConfig s t ∧ t.config = s.config ∧ t.sphase = s.sphase ∧ t.outcome = s.outcome ∧
    t.cmdState = s.cmdState ∧ t.rx = s.rx ∧ t.tx = s.tx ∧ t.host = s.host ∧ t.hostAccepts = s.hostAccepts ∧
    t.accepted = s.accepted ∧ t.sched = s.sched ∧ t.tick = s.tick ∧
    (∀ j, j ≠ k → t.workers[j]? = s.workers[j]?) ∧ t.workers.length = s.workers.length := by
  have hset : ∀ (v : Worker) (j : Nat), j ≠ k → (s.workers.set k v)[j]? = s.workers[j]? := by
    intro v j hj
    rw [List.getElem?_set_ne (fun e => hj e.symm)]
  rcases workerStep_cases k w s with ⟨-, e⟩ | ⟨-, -, e⟩ | ⟨-, -, f, -, e⟩ | ⟨-, -, m, -, -, e⟩ | ⟨-, -, m, -, -, e⟩ <;>
    rw [e] at h <;> cases h <;> simp [SameHasher, SameSearchConfig] <;> exact hset _

/-- Under a loaded configuration a worker step always answers a next state (43_search.md R254). -/
theorem workerStep_completes {s : State} (hl : Loaded s) (k : Nat) (w : Worker) : ∃ t, workerStep k w s = .next t := by
  rcases workerStep_cases k w s with ⟨-, e⟩ | ⟨-, -, e⟩ | ⟨-, -, f, e, -⟩ | ⟨-, -, m, -, -, e⟩ | ⟨-, -, m, -, -, e⟩
  · exact ⟨_, e⟩
  · exact ⟨_, e⟩
  · obtain ⟨m, hm, -⟩ := cand_loaded hl w.cur
    rw [hm] at e; cases e
  · exact ⟨_, e⟩
  · exact ⟨_, e⟩

/-- What a worker step does to its own worker and to the slot, with the digest as `SM3(cand(CUR))` (43_search.md R254 to R256). -/
theorem workerStep_effect {s t : State} {k : Nat} {w : Worker} (hk : s.workers[k]? = some w) (hst : w.st = .run) (hl : Loaded s) (hcap : s.config.tmplMax ≤ LEN_CAP)
    (h : workerStep k w s = .next t) : ∃ v, t.workers[k]? = some v ∧ v.endN = w.endN ∧
      (s.found = true ∨ w.cur = w.endN → v.st = .stop ∧ v.cur = w.cur ∧ v.ctx = w.ctx ∧ t.found = s.found ∧
        t.rnonce = s.rnonce) ∧
      (s.found = false → w.cur ≠ w.endN → ∃ m, cand s w.cur = .ok m ∧
        digestOf v.ctx.v = sm3 m ∧
        (qualifies s.mode s.bound (sm3 m) = true →
          v.st = .stop ∧ v.cur = w.cur ∧ t.found = true ∧ t.rnonce = w.cur) ∧
        (qualifies s.mode s.bound (sm3 m) = false →
          v.st = .run ∧ v.cur = w.cur + 1 ∧ t.found = false ∧ t.rnonce = s.rnonce)) := by
  have hlen : k < s.workers.length := (List.getElem?_eq_some_iff.mp hk).1
  have hset : ∀ v, (s.workers.set k v)[k]? = some v := fun v => by rw [List.getElem?_set_self hlen]
  have hget : ∀ v (u : State), u.workers = s.workers → (setWorker k v u).workers[k]? = some v := fun v u hu => by rw [setWorker_workers, hu, hset]
  rcases workerStep_cases k w s with ⟨hf, e⟩ | ⟨hf, hc, e⟩ | ⟨-, -, f, -, e⟩ | ⟨hf, hc, m, hm, hq, e⟩ | ⟨hf, hc, m, hm, hq, e⟩
  · rw [e] at h; cases h
    exact ⟨_, hget _ s rfl, rfl, fun _ => ⟨rfl, rfl, rfl, rfl, rfl⟩, fun h => by rw [hf] at h; cases h⟩
  · rw [e] at h; cases h
    exact ⟨_, hget _ s rfl, rfl, fun _ => ⟨rfl, rfl, rfl, rfl, rfl⟩, fun _ h => absurd hc h⟩
  · rw [e] at h; cases h
  · obtain ⟨m', hm', hml⟩ := cand_loaded hl w.cur
    rw [hm] at hm'; cases hm'
    have hd := w.ctx.digest_hashAll m (by have := hl.template_fits; omega)
    rw [hd] at hq
    rw [e] at h; cases h
    refine ⟨_, hget _ _ (report_workers _ _), rfl, ?_, fun _ _ => ⟨m, hm, hd, fun _ => ⟨rfl, rfl, by simp, by simp [hf]⟩, fun h => by rw [hq] at h; cases h⟩⟩
    rintro (h | h)
    · rw [hf] at h; cases h
    · exact absurd h hc
  · obtain ⟨m', hm', hml⟩ := cand_loaded hl w.cur
    rw [hm] at hm'; cases hm'
    have hd := w.ctx.digest_hashAll m (by have := hl.template_fits; omega)
    rw [hd] at hq
    rw [e] at h; cases h
    refine ⟨_, hget _ s rfl, rfl, ?_, fun _ _ => ⟨m, hm, hd, fun h => (by rw [hq] at h; cases h), fun _ => ⟨hst, rfl, hf, rfl⟩⟩⟩
    rintro (h | h)
    · rw [hf] at h; cases h
    · exact absurd h hc

/-- Everything the engine can do while it holds the port (43_search.md R254, R259, R260). -/
theorem engineStep_cases {s t : State} (h : engineStep s = .next t) :
    (s.sphase = .searching ∧ ∃ w k, pickWorker s = some (w, k) ∧ workerStep k w (useChoice s) = .next t) ∨
    (s.sphase = .searching ∧ (∀ w ∈ s.workers, w.st = .stop) ∧ t = endStep s) ∨
    (s.sphase = .done ∧ s.outcome = .found ∧ t = respond .ok (0x01 :: (enc64 s.rnonce).toList) s) ∨
    (s.sphase = .done ∧ s.outcome = .exhausted ∧ t = respond .ok (0x02 :: zeros 8) s) := by
  unfold engineStep at h
  split at h
  · rename_i hs
    split at h
    · rename_i w k hp
      exact .inl ⟨hs, w, k, hp, h⟩
    · rename_i hp
      cases h
      exact .inr (.inl ⟨hs, pickWorker_none.mp hp, rfl⟩)
  · rename_i hs
    unfold searchResponse at h
    split at h
    · rename_i ho
      cases h
      exact .inr (.inr (.inl ⟨hs, ho, rfl⟩))
    · rename_i ho
      cases h
      exact .inr (.inr (.inr ⟨hs, ho, rfl⟩))
    · cases h
  · cases h

end Sys2Proof.Machine
end

