-- ==== Sys2Proof/Laws/Step.lean ====
section
/-! SUPPORT. What a step can do, said once. -/

namespace Sys2Proof.Machine

open Sys2Proof

/-- Everything CORE can do by itself in one step. -/
theorem coreStep_cases {s t : State} (h : coreStep s = .next t) :
    (s.cmdState = .busy ∧ engineStep s = .next t) ∨
    (s.cmdState = .ready ∧ s.tx ≠ [] ∧ s.hostAccepts = true ∧ t = acceptResponse s) ∨
    (s.cmdState = .ready ∧ s.tx = [] ∧ ∃ why rest, decode s.rx = .illegal why rest ∧
      t = respond .illegalCmd [] (takeFrame rest s)) ∨
    (s.cmdState = .ready ∧ s.tx = [] ∧ ∃ i rest, decode s.rx = .command i rest ∧ exec i (takeFrame rest s) = .next t) := by
  unfold coreStep at h
  split at h
  · rename_i hc
    exact .inl ⟨hc, h⟩
  · rename_i hc
    unfold portAction at h
    rcases htx : s.tx with - | ⟨b, bs⟩
    · simp only [htx] at h
      cases hd : decode s.rx with
      | incomplete => simp [hd] at h
      | illegal why rest =>
        simp only [hd] at h
        cases h
        exact .inr (.inr (.inl ⟨hc, rfl, why, rest, rfl, rfl⟩))
      | command i rest =>
        simp only [hd] at h
        exact .inr (.inr (.inr ⟨hc, rfl, i, rest, rfl, h⟩))
    · simp only [htx] at h
      cases ha : s.hostAccepts
      · simp [ha] at h
      · simp only [ha] at h
        cases h
        exact .inr (.inl ⟨hc, by simp, rfl, rfl⟩)

/-- When CORE by itself cannot move. -/
theorem coreStep_fault {s : State} {f : Fault} (h : coreStep s = .fault f) :
    (s.cmdState = .busy ∧ engineStep s = .fault f) ∨
    (s.cmdState = .ready ∧ s.tx ≠ [] ∧ s.hostAccepts = false ∧ f = .awaitingAcceptance) ∨
    (s.cmdState = .ready ∧ s.tx = [] ∧ decode s.rx = .incomplete ∧ f = .awaitingFrame) ∨
    (s.cmdState = .ready ∧ s.tx = [] ∧ ∃ i rest, decode s.rx = .command i rest ∧ exec i (takeFrame rest s) = .fault f) := by
  unfold coreStep at h
  split at h
  · rename_i hc
    exact .inl ⟨hc, h⟩
  · rename_i hc
    unfold portAction at h
    rcases htx : s.tx with - | ⟨b, bs⟩
    · simp only [htx] at h
      cases hd : decode s.rx with
      | incomplete =>
        simp only [hd] at h
        cases h
        exact .inr (.inr (.inl ⟨hc, rfl, rfl, rfl⟩))
      | illegal why rest => simp [hd, execIllegal, raise] at h
      | command i rest =>
        simp only [hd] at h
        exact .inr (.inr (.inr ⟨hc, rfl, i, rest, rfl, h⟩))
    · simp only [htx] at h
      cases ha : s.hostAccepts
      · simp only [ha] at h
        cases h
        exact .inr (.inl ⟨hc, by simp, rfl, rfl⟩)
      · simp [ha] at h

theorem orWait_next {s t : State} {r : Result} (h : orWait s r = .next t) : r = .next t ∨ t = s := by
  unfold orWait at h
  split at h <;> cases h <;> first | exact .inl rfl | exact .inr rfl

/-- Everything a step can do: an event of the host (log 2), or a move of CORE itself. -/
theorem step_cases {s t : State} (h : step s = .next t) :
    (s.host = [] ∧ coreStep s = .next t) ∨
    (∃ b es, s.host = .send b :: es ∧ t = { s with host := es, rx := s.rx ++ [b] }) ∨
    (∃ on es, s.host = .accepting on :: es ∧ t = { s with host := es, hostAccepts := on }) ∨
    (∃ es, s.host = .reset :: es ∧ t = resetCore { s with host := es }) ∨
    (∃ es, s.host = .letRun :: es ∧ (coreStep { s with host := es } = .next t ∨ t = { s with host := es })) := by
  unfold step at h
  split at h
  · rename_i e es hh
    cases e with
    | send b => cases h; exact .inr (.inl ⟨b, es, hh, rfl⟩)
    | accepting on => cases h; exact .inr (.inr (.inl ⟨on, es, hh, rfl⟩))
    | reset => cases h; exact .inr (.inr (.inr (.inl ⟨es, hh, rfl⟩)))
    | letRun => exact .inr (.inr (.inr (.inr ⟨es, hh, orWait_next h⟩)))
  · rename_i hh
    exact .inl ⟨hh, h⟩

/-- A command's own step always answers a next state (93_implementation_defined.md section 2: every refusal is a status
response). -/
theorem exec_completes (i : Instr) (s : State) : Completes (exec i s) := by
  cases i with
  | init => exact ⟨_, rfl⟩
  | update data =>
    simp only [exec, execUpdate]
    split
    · exact ⟨_, rfl⟩
    · exact ⟨_, rfl⟩
    · exact ⟨_, rfl⟩
    · split <;> exact ⟨_, rfl⟩
  | finalize =>
    simp only [exec, execFinalize]
    split <;> exact ⟨_, rfl⟩
  | hash data =>
    simp only [exec, execHash]
    split <;> exact ⟨_, rfl⟩
  | compress vin blk => exact ⟨_, rfl⟩
  | status => exact ⟨_, rfl⟩
  | searchLt noff lo hi bound tdata =>
    rcases startSearch_cases .lt noff lo hi bound tdata s with ⟨-, e⟩ | ⟨-, -, -, -, e⟩ <;> exact ⟨_, e⟩
  | searchLte noff lo hi bound tdata =>
    rcases startSearch_cases .lte noff lo hi bound tdata s with ⟨-, e⟩ | ⟨-, -, -, -, e⟩ <;> exact ⟨_, e⟩

/-- What a command's own step does to the search configuration and the slot: nothing, or the load of a SEARCH (43_search.md
R242, R265). -/
theorem exec_search_part (i : Instr) (s t : State) (h : exec i s = .next t) :
    (t.config = s.config ∧ SameSearchConfig s t ∧ t.found = s.found ∧ t.rnonce = s.rnonce) ∨ (t.found = false ∧ t.rnonce = 0 ∧ t.sphase = .searching) := by
  cases i with
  | init => cases h; left; simp [SameSearchConfig]
  | update d =>
    simp only [exec, execUpdate] at h
    split at h
    · cases h; left; simp [SameSearchConfig]
    · cases h; left; simp [SameSearchConfig]
    · cases h; left; simp [SameSearchConfig]
    · split at h <;> cases h <;> (left; simp [SameSearchConfig])
  | finalize =>
    simp only [exec, execFinalize] at h
    split at h <;> cases h <;> (left; simp [SameSearchConfig])
  | hash d =>
    simp only [exec, execHash] at h
    split at h <;> cases h <;> (left; simp [SameSearchConfig])
  | compress v b => cases h; (left; simp [SameSearchConfig])
  | status => cases h; (left; simp [SameSearchConfig])
  | searchLt a b c d e =>
    rcases startSearch_cases .lt a b c d e s with ⟨-, e'⟩ | ⟨-, -, -, -, e'⟩
    · simp only [exec, execSearchLt, e'] at h; cases h; (left; simp [SameSearchConfig])
    · simp only [exec, execSearchLt, e'] at h; cases h; exact .inr ⟨rfl, rfl, rfl⟩
  | searchLte a b c d e =>
    rcases startSearch_cases .lte a b c d e s with ⟨-, e'⟩ | ⟨-, -, -, -, e'⟩
    · simp only [exec, execSearchLte, e'] at h; cases h; (left; simp [SameSearchConfig])
    · simp only [exec, execSearchLte, e'] at h; cases h; exact .inr ⟨rfl, rfl, rfl⟩

/-- A command's own step leaves the stream, the host and the scheduler alone, and ends with the port READY or, for a SEARCH
that starts, BUSY and searching (10_state.md R45). -/
theorem exec_outside (i : Instr) (s t : State) (h : exec i s = .next t) :
    SameOutside s t ∧ (t.cmdState = .ready ∨ t.cmdState = .busy ∧ t.sphase = .searching) := by
  cases i with
  | init => cases h; simp [SameOutside]
  | update d =>
    simp only [exec, execUpdate] at h
    split at h
    · cases h; simp [SameOutside]
    · cases h; simp [SameOutside]
    · cases h; simp [SameOutside]
    · split at h <;> cases h <;> simp [SameOutside]
  | finalize =>
    simp only [exec, execFinalize] at h
    split at h <;> cases h <;> simp [SameOutside]
  | hash d =>
    simp only [exec, execHash] at h
    split at h <;> cases h <;> simp [SameOutside]
  | compress v b => cases h; simp [SameOutside]
  | status => cases h; simp [SameOutside]
  | searchLt a b c d e =>
    rcases startSearch_cases .lt a b c d e s with ⟨-, e'⟩ | ⟨-, -, -, -, e'⟩ <;>
      (simp only [exec, execSearchLt, e'] at h; cases h; simp [SameOutside, loadSearch])
  | searchLte a b c d e =>
    rcases startSearch_cases .lte a b c d e s with ⟨-, e'⟩ | ⟨-, -, -, -, e'⟩ <;>
      (simp only [exec, execSearchLte, e'] at h; cases h; simp [SameOutside, loadSearch])

/-- No response is empty: every one starts with its status byte (30_encoding.md R108). -/
theorem IsResponse.ne_nil {c : Command} {r : List Byte} (h : IsResponse c r) : r ≠ [] := by
  cases c with
  | illegal w => rw [show r = _ from h]; simp
  | legal i => obtain ⟨st, p, -, h, -⟩ := h; rw [h]; simp

/-- A run cut in two. -/
theorem run_add (a b : Nat) {s t : State} (h : Sys2Proof.core.run a s = .next t) :
    Sys2Proof.core.run (a + b) s = Sys2Proof.core.run b t := by
  induction a generalizing s with
  | zero => cases h; rw [Nat.zero_add]
  | succ a ih =>
    rw [Nat.add_right_comm]
    simp only [Host.Core.run, show Sys2Proof.core.step s = step s from rfl] at h ⊢
    cases hs : step s with
    | next u => rw [hs] at h; exact ih h
    | fault f => rw [hs] at h; cases h
    | refused r => rw [hs] at h; cases h

end Sys2Proof.Machine
end

