-- ==== Sys2Proof/Tests/Slice0.lean ====
section
/-! SUPPORT. The model's own tests, and for every statement a state that meets its hypotheses. Expected values come from the
spec: 95_test_vectors.md (K, C, H, S, E, P: its numbers) and 30_encoding.md section 7. -/

namespace Sys2Proof.Tests

open Sys2Proof Sys2Proof.Machine

/-! ### Helpers -/

/-- A build with two workers and 16 bytes of template, right after reset. -/
def small : State := State.resetOf { nworkers := 2, tmplMax := 16 }

/-- The template `TT` of 95_test_vectors.md L2.4: "nonce=" and eight zero bytes. -/
def tt : List Byte := [0x6e, 0x6f, 0x6e, 0x63, 0x65, 0x3d] ++ zeros 8

/-- The state a command leaves, or `small` where it leaves none. -/
def after (r : Result) : State :=
  match r with
  | .next t => t
  | .fault _ => small
  | .refused _ => small

/-- S5's search, started on `small`: `SEARCH.LT noff=6, lo=0, hi=16, bound=20 00*31, tmpl=TT`. -/
def searching : State := loadSearch .lt 6 0 16 (0x20 * 2 ^ 248 : Nat) 14 (memSetAll [] 0 tt) small

/-- S11's comparison on the same range: every nonce qualifies. -/
def anyNonce : State := { searching with mode := .lte, bound := BitVec.allOnes 256 }

/-- `searching` with both workers at `CUR`, and then stopped. -/
def at_ (cur : DWord) (st : WorkerState) : State :=
  { searching with workers := searching.workers.map fun w => { w with cur := cur, st := st } }

/-- A host context that has absorbed "abc". -/
def abc : State :=
  { small with
    hphase := .active
    hctx := { v := IV, buf := small.hctx.buf.set 0 0x61 |>.set 1 0x62 |>.set 2 0x63, fill := 3, len := 3 } }

/-- The response stream of a result. -/
def txOf (r : Result) : List Byte := (after r).tx

/-- The digest of "abc" (L1.1). -/
def digestAbc : List Byte :=
  [0x66, 0xc7, 0xf0, 0xf4, 0x62, 0xee, 0xed, 0xd9, 0xd1, 0xf2, 0xd4, 0x6b, 0xdc, 0x10, 0xe4, 0xe2, 0x41, 0x67, 0xc4, 0x87,
    0x5c, 0xf2, 0xf7, 0xa2, 0x29, 0x7d, 0xa0, 0x2b, 0x8f, 0x4b, 0xa8, 0xe0]

/-! ### Well-formedness: every check refuses an ill-formed command -/

theorem test_wf_update_too_long : (Instr.update (List.replicate (2 ^ 32) 0)).wf = false := by
  simp only [Instr.wf, lengthFits, List.length_replicate]
  decide
theorem test_wf_hash_too_long : (Instr.hash (List.replicate (2 ^ 32) 0)).wf = false := by
  simp only [Instr.wf, lengthFits, List.length_replicate]
  decide
theorem test_wf_searchLt_too_long : (Instr.searchLt 0 0 1 0 (List.replicate (2 ^ 32) 0)).wf = false := by
  simp only [Instr.wf, lengthFits, List.length_replicate]
  decide
theorem test_wf_searchLte_too_long : (Instr.searchLte 0 0 1 0 (List.replicate (2 ^ 32) 0)).wf = false := by
  simp only [Instr.wf, lengthFits, List.length_replicate]
  decide
theorem test_wf_update_longest : (Instr.update (List.replicate (2 ^ 32 - 1) 0)).wf = true := by
  simp only [Instr.wf, lengthFits, List.length_replicate]
  decide

/-! ### Decoding: the words of 30_encoding.md, bit by bit -/

theorem test_decode_init : decode [0b00000000, 0b00000000, 0b00000000, 0b00000001] = .command .init [] := by decide

theorem test_decode_update : decode
    ([0b00000000, 0b00000000, 0b00000000, 0b00000010] ++ [0x00, 0x00, 0x00, 0x03] ++ [0x61, 0x62, 0x63] ++ [0xaa]) =
      .command (.update [0x61, 0x62, 0x63]) [0xaa] := by decide

theorem test_decode_finalize : decode [0b00000000, 0b00000000, 0b00000000, 0b00000011] = .command .finalize [] := by decide

theorem test_decode_hash : decode
    ([0b00000000, 0b00000000, 0b00000000, 0b00000100] ++ [0x00, 0x00, 0x00, 0x03] ++ [0x61, 0x62, 0x63]) =
      .command (.hash [0x61, 0x62, 0x63]) [] := by decide

/-- C15. -/
theorem test_decode_compress : decode
    ([0b00000000, 0b00000000, 0b00000000, 0b00000101] ++
      [0x73, 0x80, 0x16, 0x6f, 0x49, 0x14, 0xb2, 0xb9, 0x17, 0x24, 0x42, 0xd7, 0xda, 0x8a, 0x06, 0x00,
        0xa9, 0x6f, 0x30, 0xbc, 0x16, 0x31, 0x38, 0xaa, 0xe3, 0x8d, 0xee, 0x4d, 0xb0, 0xfb, 0x0e, 0x4e] ++
      [0x61, 0x62, 0x63, 0x80] ++ zeros 52 ++ [0x00, 0x00, 0x00, 0x00, 0x00, 0x00, 0x00, 0x18]) =
    .command (.compress IV abcBlock) [] := by
  decide +kernel

theorem test_decode_status : decode [0b00000000, 0b00000000, 0b00000000, 0b00000110] = .command .status [] := by decide

/-- P3's second search. -/
theorem test_decode_searchLt : decode
    ([0b00000000, 0b00000000, 0b00000000, 0b00010000] ++ [0x00, 0x00, 0x00, 0x06] ++ zeros 7 ++ [0x01] ++ zeros 7 ++ [0x0b] ++
      [0x10] ++ zeros 31 ++ [0x00, 0x00, 0x00, 0x0e] ++ tt) =
    .command (.searchLt 6 1 11 (0x10 * 2 ^ 248 : Nat) tt) [] := by decide +kernel

theorem test_decode_searchLte : decode
    ([0b00000000, 0b00000000, 0b00000001, 0b00010000] ++ [0x00, 0x00, 0x00, 0x06] ++ zeros 7 ++ [0x03] ++ zeros 7 ++ [0x07] ++
      List.replicate 32 0xff ++ [0x00, 0x00, 0x00, 0x0e] ++ tt) =
    .command (.searchLte 6 3 7 (BitVec.allOnes 256) tt) [] := by decide +kernel

/-- E4, E7, E9, E10, E11: what follows an illegal header is the next header. -/
theorem test_decode_illegal :
    decode [0x00, 0x00, 0x00, 0x00, 0x55] = .illegal .unassignedOpcode [0x55] ∧
    decode [0x00, 0x00, 0x00, 0x11] = .illegal .unassignedOpcode [] ∧
    decode [0x00, 0x00, 0x01, 0x01] = .illegal .modeBit [] ∧
    decode [0x00, 0x00, 0x02, 0x10] = .illegal .reservedBits [] ∧
    decode [0x80, 0x00, 0x00, 0x01] = .illegal .reservedBits [] := by decide

/-- The table's numbering: the header is bits 31:0, the next word bits 63:32. -/
theorem test_decodeTableWord :
    decodeTableWord 32 0x00000001 = some .init ∧
    decodeTableWord 64 0x0000000300000002 = some (.update [0, 0, 0]) ∧
    decodeTableWord 32 0x00000009 = none := by decide

theorem test_withFetchWord_runs : (after (step (State.reset.withFetchWord 32 0x00000001))).tx = [0x00] := by decide

/-! ### Codec and datapath -/

/-- K3, K4, K5, K6, K7, K11. -/
theorem test_codec :
    be64 #v[0, 0, 0, 0, 0, 0, 1, 2] = 0x102 ∧ enc64 448 = #v[0, 0, 0, 0, 0, 0, 1, 0xc0] ∧
    bytesToWordsBE (k := 2) #v[0x61, 0x62, 0x63, 0x80, 0, 0, 0, 0x18] = #v[0x61626380, 0x18] ∧
    wordsToBytesBE #v[0x1ab21d83, 0x55cfa17f] = #v[0x1a, 0xb2, 0x1d, 0x83, 0x55, 0xcf, 0xa1, 0x7f] ∧
    rev32 0x01020304 = 0x04030201 ∧ (u256 ((Vector.replicate 32 0).set 0 0x80)).toNat = 2 ^ 255 := by decide +kernel

/-- C3, C5, C6, C7, C8. -/
theorem test_word_functions :
    rotl 0x12345678 36 = 0x23456781 ∧ P0 0x12345678 = 0xd6688234 ∧ P1 0x12345678 = 0x05014549 ∧
    FF 15 0xf0f0f0f0 0xcccccccc 0xaaaaaaaa = 0x96969696 ∧ FF 16 0xf0f0f0f0 0xcccccccc 0xaaaaaaaa = 0xe8e8e8e8 ∧
    GG 15 0xf0f0f0f0 0xcccccccc 0xaaaaaaaa = 0x96969696 ∧ GG 16 0xf0f0f0f0 0xcccccccc 0xaaaaaaaa = 0xcacacaca := by decide

/-- C9, C10, C11. -/
theorem test_round_constants :
    Trot 15 = 0x228cbce6 ∧ Trot 16 = 0x9d8a7a87 ∧ Trot 31 = 0x3d43cec5 ∧ Trot 32 = 0x7a879d8a ∧ Trot 33 = 0xf50f3b14 := by
  decide

/-- C14: `CF(IV, 61*64)`. -/
theorem test_compression_function : CF IV (Vector.replicate 64 0x61) =
    #v[0xa5136b61, 0x62610c3f, 0x9a9386e6, 0xdb0fe112, 0x30e6de4f, 0x89892d3b, 0x853b0db1, 0xf25a078f] := by decide +kernel

/-! ### The hasher's commands -/

/-- H7: INIT discards the three bytes. -/
theorem test_init : let t := after (exec .init abc)
    t.hphase = .active ∧ t.hctx.fill = 0 ∧ t.hctx.len = 0 ∧ t.hctx.v = IV ∧ t.tx = [0x00] := by decide

/-- P1: `UPDATE "c"` after "ab". -/
theorem test_update : let t := after (exec (.update [0x64]) abc)
    t.hctx.fill = 4 ∧ t.hctx.len = 4 ∧ t.hctx.buf[3] = 0x64 ∧ t.hctx.buf[2] = 0x63 ∧ t.hctx.v = IV := by decide

/-- P2: the 24th byte fills the block, which is compressed at once. -/
theorem test_update_block :
    let s := { abc with hctx := { abc.hctx with buf := Vector.replicate 64 0x61, fill := 63, len := 63 } }
    let t := after (exec (.update [0x61, 0x62]) s)
    t.hctx.fill = 1 ∧ t.hctx.len = 65 ∧ t.hctx.buf[0] = 0x62 ∧ t.hctx.v[0] = 0xa5136b61 := by decide +kernel

/-- P1: FINALIZE of "abc". -/
theorem test_finalize : txOf (exec .finalize abc) = 0x00 :: digestAbc := by decide +kernel

/-- H4: two-block padding with the marker in the last byte. -/
theorem test_finalize_two_blocks :
    let s := { abc with hctx := { abc.hctx with buf := Vector.replicate 64 0x61, fill := 63, len := 63 } }
    (txOf (exec .finalize s)).take 5 = [0x00, 0x58, 0x73, 0x08, 0x54] := by decide +kernel

/-- P4: HASH needs no INIT. -/
theorem test_hash : txOf (exec (.hash [0x61, 0x62, 0x63]) State.reset) = 0x00 :: digestAbc := by decide +kernel

/-- C15. -/
theorem test_compress : txOf (exec (.compress IV abcBlock) small) = 0x00 :: digestAbc := by decide +kernel

/-- P3: `SW = 0x1829`, `LEN = 2`, `RNONCE = 11`. -/
theorem test_status : txOf (exec .status
      { abc with
        hctx := { abc.hctx with fill := 2, len := 2 }, sphase := .done, found := true, rnonce := 11, outcome := .found }) =
    [0x00, 0x00, 0x00, 0x18, 0x29] ++ zeros 7 ++ [0x02] ++ zeros 7 ++ [0x0b] := by decide

/-! ### Search -/

/-- S13: `NOFF + 8` is taken on unbounded integers; nothing is written. -/
theorem test_searchLt_config_error :
    exec (.searchLt 0xffffffff 0 1 0 (zeros 8)) small = .next (respond .configError [] small) := by rfl

/-- S11 over two workers: `[3,5)` and `[5,7)`. -/
theorem test_searchLte_starts : let t := after (exec (.searchLte 6 3 7 (BitVec.allOnes 256) tt) small)
    t.workers.map (fun w => (w.cur, w.endN)) = [(3, 5), (5, 7)] ∧ t.mode = .lte ∧ t.cmdState = .busy ∧ t.tx = [] := by
  decide

/-- S2. -/
theorem test_partition :
    (List.range 4).map (cutPoint 3 10 20) = [10, 14, 18, 20] ∧ (List.range 5).map (cutPoint 4 5 7) = [5, 6, 7, 7, 7] ∧
    (List.range 3).map (cutPoint 2 0 (2 ^ 64 - 1)) = [0, 2 ^ 63, 2 ^ 64 - 1] := by decide +kernel

/-- S1: `cand(11)`. -/
theorem test_candidate : (match cand searching 11 with | .ok m => m | .error _ => []) =
    [0x6e, 0x6f, 0x6e, 0x63, 0x65, 0x3d, 0, 0, 0, 0, 0, 0, 0, 0x0b] := by decide

/-- S3 at the boundary, with the digest of `cand(11)` shortened to its first word. -/
theorem test_comparator : let d : Digest := (Vector.replicate 32 0).set 0 0x06 |>.set 1 0x9f |>.set 2 0xac |>.set 3 0xa0
    qualifies .lte (u256 d) d = true ∧ qualifies .lt (u256 d) d = false ∧ qualifies .lt (u256 d + 1) d = true ∧
    qualifies .lt (0x10 * 2 ^ 248 : Nat) d = true ∧ qualifies .lt (0x06 * 2 ^ 248 : Nat) d = false := by decide +kernel

/-- S4: the worker whose `CUR` is 11 reports it and stops. -/
theorem test_worker_step_reports :
    let t := after (workerStep 1 { (Worker.powerOn 1) with st := .run, cur := 11, endN := 16 } searching)
    t.found = true ∧ t.rnonce = 11 ∧ (t.workers.map Worker.st) = [.run, .stop] := by decide +kernel

/-- 43_search.md R256: a later report is discarded. -/
theorem test_report_is_write_once : (report 7 (report 11 small)).rnonce = 11 := by decide

/-- E4 to E11: the answer to an illegal header. -/
theorem test_illegal_header : txOf (step { small with rx := [0x00, 0x00, 0x00, 0x07] }) = [0x04] := by decide

theorem test_reset_memory_canonical : memWf State.reset.tmpl = true := by decide
theorem test_memory_canonical : memWf (memSet (memSet [] 5 1) 2 7) = true ∧ memSet (memSet [] 5 1) 2 7 = [(2, 7), (5, 1)] := by
  decide

/-! ### Witnesses: a state for the hypotheses of every statement -/

theorem witness_DecodeOfEncodeIsTheCommand : (Instr.searchLte 0xffffffff 1 0 0 (List.replicate (2 ^ 32 - 1) 0)).wf = true := by
  simp only [Instr.wf, lengthFits, List.length_replicate]
  decide

theorem witness_DecodedBytesAreTheEncoding : decode [0, 0, 0, 2, 0, 0, 0, 0, 9] = .command (.update []) [9] := by decide

theorem witness_PartOfAFrameWaits : let s := { small with rx := (encode .init).take 3 }
    Instr.init.wf = true ∧ 3 < (encode .init).length ∧ s.host = [] ∧ s.cmdState = .ready ∧ s.tx = [] ∧
      s.rx = (encode .init).take 3 := by decide

/-- A legal header and three illegal ones, one for each reason of R102. -/
theorem witness_IllegalHeaderIsAnsweredAlone :
    let opc (w : Word) := w.toNat % 256
    let m (w : Word) := w.toNat / 256 % 2
    let rsv (w : Word) := w.toNat / 512
    let legal (w : Word) := opc w ∈ [0x01, 0x02, 0x03, 0x04, 0x05, 0x06, 0x10] ∧ rsv w = 0 ∧ (m w = 0 ∨ opc w = 0x10)
    let s (w : Word) := { small with rx := (enc32 w).toList ++ [1] }
    legal 0x00000110 ∧ ¬ legal 0x00000007 ∧ ¬ legal 0x00000106 ∧ ¬ legal 0x00000210 ∧
      (s 7).host = [] ∧ (s 7).cmdState = .ready ∧ (s 7).tx = [] ∧ (s 7).rx = (enc32 7).toList ++ [1] := by decide

theorem witness_RotationIsModulo32 : (0 : Nat) < 32 ∧ (31 : Nat) < 32 := by decide

/-- The example's own condition of 41_compression.md R169. -/
theorem witness_CompressionRunsTheRounds : ∃ v b, v = IV ∧ b = abcBlock ∧ ∃ j : Fin 64, j = 0 := ⟨_, _, rfl, rfl, _, rfl⟩

theorem witness_CompressCompletes : bytesToWordsBE (k := 8) (digestOf IV) = IV := by decide +kernel

/-- At the cap: `LEN = LEN_CAP - 1` and one byte. -/
theorem witness_UpdateAbsorbs :
    let s := { abc with hctx := { abc.hctx with fill := 62, len := 2 ^ 29 - 2 } }
    s.hphase = .active ∧ s.hctx.len.toNat + [(0x61 : Byte)].length = LEN_CAP := by decide

theorem witness_EmptyUpdateChangesNothing : abc.hctx.len.toNat ≤ LEN_CAP ∧ abc.hphase = .active ∧
    small.hctx.len.toNat ≤ LEN_CAP ∧ small.hphase = .idle := by decide

/-- One byte above the cap; then ERROR, with each command; then the two ways out of it. -/
theorem witness_CapFailureIsSticky :
    let s := { abc with hctx := { abc.hctx with fill := 63, len := 2 ^ 29 - 1 } }
    let e := { s with hphase := .error }
    (s.hphase = .active ∧ s.hctx.len.toNat + [(0x61 : Byte)].length = LEN_CAP + 1) ∧
    (e.hphase = .error ∧ (Instr.finalize = .finalize ∨ ∃ data, Instr.finalize = .update data)) ∧
    (after (step { e with rx := encode .init })).hphase ≠ .error ∧
    (after (step { e with host := [.reset] })).hphase ≠ .error := by
  refine ⟨by decide, ⟨rfl, .inl rfl⟩, by decide, by decide⟩

theorem witness_MisuseChangesNothing : small.hphase = .idle ∧ { small with hphase := .done }.hphase = .done ∧
    ∃ data, Instr.update [0x78] = .update data := ⟨rfl, rfl, _, rfl⟩

/-- At the cap, on both sides of the padding's boundary. -/
theorem witness_FinalizeCompletes :
    let s (fill : Fin 64) := { abc with hctx := { abc.hctx with fill := fill, len := 2 ^ 29 - 1 } }
    (s 55).hphase = .active ∧ (s 55).hctx.len.toNat ≤ LEN_CAP ∧ (s 55).hctx.fill.val ≤ 55 ∧
    (s 56).hphase = .active ∧ (s 56).hctx.len.toNat ≤ LEN_CAP ∧ 56 ≤ (s 56).hctx.fill.val := by decide

theorem witness_HashCompletes : (List.replicate LEN_CAP (0 : Byte)).length ≤ LEN_CAP ∧
    LEN_CAP < (List.replicate (LEN_CAP + 1) (0 : Byte)).length := by
  simp only [List.length_replicate]
  decide

theorem witness_HashIsInitUpdateFinalize : (List.replicate LEN_CAP (0 : Byte)).length ≤ LEN_CAP := by
  rw [List.length_replicate]

theorem witness_PaddingShape : (List.replicate LEN_CAP (0 : Byte)).length ≤ LEN_CAP := by
  rw [List.length_replicate]

theorem witness_StreamingEquivalence :
    let cmds : List Instr := [.update [0x61], .status, .compress IV (Vector.replicate 64 0), .update [0x62, 0x63]]
    (∀ i ∈ cmds, i = .status ∨ (∃ v b, i = .compress v b) ∨ ∃ d, i = .update d) ∧
    (cmds.map updateData).flatten.length ≤ LEN_CAP ∧ [([] : List Byte), [0x61, 0x62, 0x63], []].flatten.length ≤ LEN_CAP := by
  refine ⟨?_, by decide, by decide⟩
  simp

/-- S13: a template one byte too long; a nonce field far outside it; a template shorter than a nonce; an empty range. -/
theorem witness_BadSearchIsRejected :
    small.config.tmplMax < (zeros 17).length ∧ (zeros 8).length < (0xffffffff : Word).toNat + 8 ∧
    (zeros 7).length < (0 : Word).toNat + 8 ∧ (5 : DWord).toNat ≤ (5 : DWord).toNat ∧
    (let s := { small with rx := encode (.searchLt 0 5 5 0 (zeros 8)) ++ [1] };
      s.host = [] ∧ s.cmdState = .ready ∧ s.tx = [] ∧ decode s.rx = .command (.searchLt 0 5 5 0 (zeros 8)) [1]) := by
  refine ⟨by decide, by decide, by decide, by decide, rfl, rfl, rfl, by decide +kernel⟩

/-- The tightest fit: the longest template, the nonce in its last bytes, one nonce at the top of the range. -/
theorem witness_SearchStarts :
    small.config.wf ∧ (zeros 16).length ≤ small.config.tmplMax ∧ (8 : Word).toNat + 8 ≤ (zeros 16).length ∧
    (0xfffffffffffffffe : DWord).toNat < (0xffffffffffffffff : DWord).toNat ∧
    (∃ v, (at_ 16 .stop).cmdState = .busy ∧ (at_ 16 .stop).sphase = .searching ∧ step (at_ 16 .stop) = .next v) := by
  refine ⟨by decide, by decide, by decide, by decide, _, rfl, rfl, rfl⟩

theorem witness_PartitionCoversTheRange : 1 ≤ 1 ∧ 0 < 1 := by decide

theorem searching_loaded : Loaded searching where
  nonce_fits := by decide
  template_fits := by decide
  range_nonempty := by decide
  template_written := by
    have h : ∀ a : Fin 14, (memByte searching.tmpl a.val).isSome = true := by decide
    exact fun a ha => h ⟨a, ha⟩

theorem witness_CandidateReplacesTheNonceField : Loaded searching := searching_loaded

theorem at_loaded (cur : DWord) (st : WorkerState) : Loaded (at_ cur st) :=
  ⟨searching_loaded.1, searching_loaded.2, searching_loaded.3, searching_loaded.4⟩

/-- A running worker; each clause: a found slot, an exhausted sub-range, and a nonce still to test (R254; 11 qualifies and 10 does
not, S1). -/
theorem witness_WorkerTestsOneCandidate :
    (at_ 11 .run).host = [] ∧ (at_ 11 .run).cmdState = .busy ∧ (at_ 11 .run).sphase = .searching ∧ Loaded (at_ 11 .run) ∧
    (at_ 11 .run).config.tmplMax ≤ LEN_CAP ∧ (∃ w ∈ (at_ 11 .run).workers, w.st = .run) ∧
    { (at_ 11 .run) with found := true }.found = true ∧
    ((at_ 8 .run).workers.map fun w => decide (w.cur = w.endN)) = [true, false] ∧
    (at_ 11 .run).found = false ∧ ((at_ 11 .run).workers.map fun w => decide (w.cur ≠ w.endN)) = [true, true] := by
  refine ⟨rfl, rfl, rfl, at_loaded _ _, by decide, ?_, rfl, by decide, rfl, by decide⟩
  exact ⟨_, List.mem_cons_self, rfl⟩

theorem witness_AnyRunningWorkerMayMove : searching.host = [] ∧ searching.cmdState = .busy ∧
    searching.sphase = .searching ∧ Loaded searching ∧
    ∃ w, searching.workers[1]? = some w ∧ w.st = .run := ⟨rfl, rfl, rfl, searching_loaded, _, rfl, rfl⟩

/-- Both kinds of report; then a step after one: a worker that stops, a reset, the next SEARCH. -/
theorem witness_ResultSlotIsWriteOnce :
    let f := { searching with found := true, rnonce := 11, sched := [0] }
    small.found = false ∧ f.found = true ∧
    (after (step f)).rnonce = 11 ∧ (after (step { f with host := [.reset] })).found = false ∧
    (after (step { f with
      cmdState := .ready, sphase := .done, rx := encode (.searchLt 6 0 16 0 tt) })).sphase = .searching := by
  decide +kernel

/-- Every worker stopped, with a nonce found and with none. -/
theorem witness_EndStepWaitsForEveryWorker :
    let s := at_ 16 .stop
    s.host = [] ∧ s.cmdState = .busy ∧ s.sphase = .searching ∧ (∀ w ∈ s.workers, w.st = .stop) ∧
    (after (step s)).outcome = .exhausted ∧ (after (step { s with found := true })).outcome = .found ∧
    (after (step s)).sphase ≠ .searching := by
  refine ⟨rfl, rfl, rfl, ?_, by decide, by decide, by decide⟩
  intro w hw
  simp only [at_, List.mem_map] at hw
  obtain ⟨x, -, rfl⟩ := hw
  rfl

theorem witness_SearchResponds :
    let s := { (at_ 16 .stop) with sphase := .done }
    s.host = [] ∧ s.cmdState = .busy ∧ s.sphase = .done ∧ { s with outcome := .found }.outcome = .found ∧
    { s with outcome := .exhausted }.outcome = .exhausted := by decide

/-- A step that answers, and one that faults. -/
theorem witness_SearchIgnoresTheHasher :
    let s := at_ 16 .stop
    let stuck := { s with sphase := .idle }
    s.host = [] ∧ s.cmdState = .busy ∧ (after (step s)).sphase = .done ∧
    stuck.host = [] ∧ stuck.cmdState = .busy ∧ step stuck = .fault .noRuleApplies ∧
    ∃ tdata, Instr.searchLte 6 3 7 0 tt = .searchLte 6 3 7 0 tdata := ⟨rfl, rfl, by decide, rfl, rfl, rfl, _, rfl⟩

theorem witness_ConfigurationIsFixedDuringSearch : ∃ t, (at_ 16 .stop).cmdState = .busy ∧ step (at_ 16 .stop) = .next t :=
  ⟨endStep (at_ 16 .stop), rfl, rfl⟩

/-- A search at its start meets the invariant. -/
theorem anyNonce_inv : Inv anyNonce where
  build := ⟨by decide, by decide⟩
  template :=
    { tmpl_wf := by decide
      tmpl_bound := by
        intro a b h
        have hm : anyNonce.tmpl = memSetAll [] 0 tt := rfl
        rw [hm, memByte_memSetAll] at h
        split at h
        · rename_i hc
          have : tt.length = 14 := rfl
          have : anyNonce.config.tmplMax = 16 := rfl
          omega
        · cases h }
  hasher := ⟨by decide, by decide, by decide, by decide⟩
  port := ⟨by decide, by decide, by decide⟩
  search :=
    { idle_clear := by decide
      loaded := fun _ => ⟨searching_loaded.1, searching_loaded.2, searching_loaded.3, searching_loaded.4⟩
      searching_outcome := by decide
      done_outcome := by decide
      stopped_outside := fun h => absurd rfl h
      slot_clear := by decide
      found_sound := by intro h; cases h
      worker_inv := by
        intro _ k w hk
        have hc : k = 0 ∨ k = 1 := by
          have := (List.getElem?_eq_some_iff.mp hk).1
          have hl : anyNonce.workers.length = 2 := rfl
          omega
        rcases hc with rfl | rfl <;> cases hk <;>
          exact ⟨by decide, by decide, by decide, fun _ n h1 h2 => absurd (lt_of_le_of_lt h1 h2) (lt_irrefl _),
            fun _ h => by cases h⟩
      exhausted_complete := by intro h; cases h }

theorem anyNonce_qualifying (n : DWord) : Qualifying anyNonce n := by
  obtain ⟨m, hm, -⟩ := cand_loaded (anyNonce_inv.search.loaded (by decide)) n
  refine ⟨m, hm, ?_⟩
  have := (u256 (sm3 m)).isLt
  have hb : anyNonce.bound = BitVec.allOnes 256 := rfl
  have hmode : anyNonce.mode = .lte := rfl
  simp only [qualifies, hb, hmode, BitVec.toNat_allOnes, decide_eq_true_eq]
  omega

theorem searching_moves (s : State) (h : Loaded s) (hh : s.host = []) (hc : s.cmdState = .busy) (hp : s.sphase = .searching) :
    ∃ t, step s = .next t := by
  have hstep : step s = engineStep s := by simp only [step, hh, coreStep, hc]
  rw [hstep, engineStep, hp]
  dsimp only
  split
  · exact workerStep_completes (s := useChoice s) ⟨h.1, h.2, h.3, h.4⟩ _ _
  · exact ⟨_, rfl⟩

/-- The statement's own premise holds at the start of a search, where nothing is found, and a step is possible. -/
theorem witness_ReportedNonceIsAWorkersFirst : Inv anyNonce ∧ anyNonce.found = false ∧ ∃ t, step anyNonce = .next t :=
  ⟨anyNonce_inv, rfl, searching_moves _ (anyNonce_inv.search.loaded (by decide)) rfl rfl rfl⟩

/-- Worker 1's first nonce, 8 (S11's comparison). -/
theorem witness_EveryWorkersFirstIsAdmitted : Inv anyNonce ∧ anyNonce.host = [] ∧ anyNonce.cmdState = .busy ∧
    anyNonce.sphase = .searching ∧ anyNonce.found = false ∧ ∃ w, anyNonce.workers[1]? = some w ∧ w.st = .run ∧
    w.cur.toNat ≤ (8 : DWord).toNat ∧ (8 : DWord).toNat < w.endN.toNat ∧ Qualifying anyNonce 8 ∧
    ∀ n : DWord, w.cur.toNat ≤ n.toNat → n.toNat < (8 : DWord).toNat → ¬ Qualifying anyNonce n := by
  refine ⟨anyNonce_inv, rfl, rfl, rfl, rfl, _, rfl, rfl, by decide, by decide, anyNonce_qualifying 8, ?_⟩
  intro n h1 h2
  exact absurd (lt_of_le_of_lt h1 h2) (by decide)

theorem witness_SearchAnswersCorrectly : Inv anyNonce ∧ anyNonce.host = [] ∧ anyNonce.cmdState = .busy ∧
    anyNonce.sphase = .searching := ⟨anyNonce_inv, rfl, rfl, rfl⟩

theorem witness_StepRunsTheDecodedCommand : let s := { small with rx := [0, 0, 0, 1] }
    s.host = [] ∧ s.cmdState = .ready ∧ s.tx = [] ∧ decode s.rx = .command .init [] := by decide

theorem witness_ResponseIsAcceptedFirst : let s := { small with tx := [0x00] }
    s.host = [] ∧ s.cmdState = .ready ∧ s.tx ≠ [] ∧ s.hostAccepts = true ∧
    { s with hostAccepts := false }.hostAccepts = false := by decide

theorem witness_StatusCompletes : small = State.resetOf { nworkers := 2, tmplMax := 16 } := rfl

/-- A reset during a search, with two bytes of a header received. -/
theorem witness_ResetAtAnyTime : let s := { searching with host := [.reset], rx := [0x00, 0x00] }
    s.host = .reset :: [] ∧ decode s.rx = .incomplete := by decide

theorem witness_ResetKeepsTheHostSide : { searching with host := [.reset, .send 1] }.host = .reset :: [.send 1] := rfl

theorem witness_HostActsOnThePortOnly :
    let wait := { small with host := [.letRun] }
    let run := { wait with rx := [0, 0, 0, 1] }
    let pending := { wait with tx := [0x00], hostAccepts := false }
    { small with host := [.send 1] }.host = .send 1 :: [] ∧
    { small with host := [.accepting false] }.host = .accepting false :: [] ∧
    run.host = .letRun :: [] ∧ (∃ t, coreStep { run with host := [] } = .next t) ∧
    wait.host = .letRun :: [] ∧ wait.cmdState = .ready ∧ wait.tx = [] ∧ decode wait.rx = .incomplete ∧
    pending.host = .letRun :: [] ∧ pending.cmdState = .ready ∧ pending.tx ≠ [] ∧ pending.hostAccepts = false :=
  ⟨rfl, rfl, rfl, ⟨_, rfl⟩, rfl, rfl, rfl, by decide, rfl, rfl, by decide, rfl⟩

theorem witness_ResetMeetsTheInvariant : Config.wf { nworkers := 1, tmplMax := 8 } ∧
    Config.wf { nworkers := 1000, tmplMax := 2 ^ 29 - 1 } := by decide

theorem witness_EveryStepKeepsTheInvariant : Inv anyNonce ∧ ∃ t, step anyNonce = .next t :=
  ⟨witness_ReportedNonceIsAWorkersFirst.1, witness_ReportedNonceIsAWorkersFirst.2.2⟩

/-- `small` meets the invariant. -/
theorem small_inv : Inv small where
  build := ⟨by decide, by decide⟩
  template := ⟨by decide, by intro a b h; cases h⟩
  hasher := ⟨by decide, by decide, by decide, by decide⟩
  port := ⟨by decide, by decide, by decide⟩
  search :=
    { idle_clear := by decide
      loaded := fun h => absurd rfl h
      searching_outcome := by decide
      done_outcome := by decide
      stopped_outside := by
        intro _ w hw
        simp only [small, State.resetOf, List.mem_map] at hw
        obtain ⟨k, -, rfl⟩ := hw
        rfl
      slot_clear := by decide
      found_sound := by intro h; cases h
      worker_inv := by intro h; cases h
      exhausted_complete := by intro h; cases h }

/-- The two stuck cases, from states of the invariant. -/
theorem witness_OnlyTheStuckCasesStop : (Inv small ∧ step small = .fault .awaitingFrame) ∧
    (Inv { small with tx := [0x00], hostAccepts := false } ∧
      step { small with tx := [0x00], hostAccepts := false } = .fault .awaitingAcceptance) := by
  have h := small_inv
  refine ⟨⟨h, by rfl⟩, ⟨?_, by rfl⟩⟩
  exact ⟨⟨h.build.1, h.build.2⟩, ⟨h.template.1, h.template.2⟩, ⟨h.hasher.1, h.hasher.2, h.hasher.3, h.hasher.4⟩,
    ⟨h.port.1, (by intro hb; cases hb), h.port.3⟩,
    ⟨h.search.1, fun h => absurd rfl h, h.search.3, h.search.4, h.search.5, h.search.6, (by intro hf; cases hf),
      (by intro hs; cases hs), h.search.9⟩⟩

/-! ### The end of a run (R325), stale bytes, private contexts -/

/-- The invariant says nothing of the unread stream, and of acceptance only that nothing is pending during a search. -/
theorem small_inv_rx (rx : List Byte) (on : Bool) : Inv { small with rx := rx, hostAccepts := on } :=
  have h := small_inv
  ⟨⟨h.build.1, h.build.2⟩, ⟨h.template.1, h.template.2⟩, ⟨h.hasher.1, h.hasher.2, h.hasher.3, h.hasher.4⟩,
    ⟨h.port.1, h.port.2, h.port.3⟩,
    ⟨h.search.1, fun h => absurd rfl h, h.search.3, h.search.4, h.search.5, h.search.6, (by intro hf; cases hf),
      (by intro hs; cases hs), h.search.9⟩⟩

/-- An accepting host with a legal command and an illegal header to send; and a host that accepts nothing, with one command. -/
theorem witness_EveryRunEndsWithItsResponses :
    let cmds : List Command := [.legal .init, .illegal 0x00000007]
    let s := { small with rx := (cmds.map Command.frame).flatten }
    let one : List Command := [.legal .status]
    let u := { small with rx := (one.map Command.frame).flatten, hostAccepts := false }
    ((∀ c ∈ cmds, c.wf = true) ∧ Inv s ∧ s.host = [] ∧ s.cmdState = .ready ∧ s.hostAccepts = true ∧ cmds ≠ []) ∧
    ((∀ c ∈ one, c.wf = true) ∧ Inv u ∧ u.host = [] ∧ u.cmdState = .ready ∧ u.tx = [] ∧ one.length ≤ 1 ∧ one ≠ []) := by
  exact ⟨⟨by decide, small_inv_rx _ _, rfl, rfl, rfl, by decide⟩, by decide, small_inv_rx _ _, rfl, rfl, rfl, by decide, by decide⟩

/-- After INIT's step the run of INIT has ended, with its response not yet accepted; before it, it has not (R325). -/
theorem test_end_of_run :
    let s := { small with rx := encode .init }
    AtEnd s [.legal .init] (after (step s)) ∧ ¬ AtEnd s [.legal .init] s := by
  refine ⟨⟨⟨[[0x00]], .cons ⟨.ok, [], by decide, rfl, rfl⟩ .nil, rfl⟩, rfl, by decide⟩, ?_⟩
  rintro ⟨⟨rs, h, e⟩, -, -⟩
  cases h with
  | cons h _ =>
    have he := List.append_eq_nil_iff.mp e.symm
    exact h.ne_nil (List.append_eq_nil_iff.mp he.2).1

/-- Different bytes of `BUF` where nothing has been absorbed. -/
theorem witness_StaleBufferBytesAreNeverRead :
    ∀ j : Fin 64, j.val < abc.hctx.fill.val → (abc.hctx.buf.set 63 0x55)[j] = abc.hctx.buf[j] := by
  intro j hj
  have : abc.hctx.fill.val = 3 := rfl
  simp only [Fin.getElem_fin]
  rw [Vector.getElem_set_ne]
  omega

/-- A worker that tests a candidate, and one that stops. -/
theorem witness_PrivateContextAfterACandidate :
    (∃ w, (at_ 11 .run).workers[0]? = some w ∧ (at_ 11 .run).found = false ∧ w.cur ≠ w.endN ∧
      (∃ t, workerStep 0 w (at_ 11 .run) = .next t) ∧ ∃ m, cand (at_ 11 .run) w.cur = .ok m ∧ m.length ≤ LEN_CAP) ∧
    (∃ w, (at_ 8 .run).workers[0]? = some w ∧ w.cur = w.endN ∧ ∃ t, workerStep 0 w (at_ 8 .run) = .next t) := by
  refine ⟨⟨_, rfl, rfl, by decide, workerStep_completes (at_loaded _ _) _ _, ?_⟩,
    ⟨_, rfl, by decide, workerStep_completes (at_loaded _ _) _ _⟩⟩
  obtain ⟨m, hm, hl⟩ := cand_loaded (at_loaded 11 .run) 11
  exact ⟨m, hm, by rw [hl]; decide⟩

end Sys2Proof.Tests
end

section
/-! The status word and STATUS (10_state.md R47, 42_hasher.md R220). -/

namespace Sys2Proof.Machine

open Sys2Proof

/-! ### The status word as a number -/

/-- A field placed above a word that ends below it shares no bit with it, so it adds its weight. -/
theorem toNat_or_shiftLeft {x y : Word} {a b k : Nat} (hx : x.toNat = a) (hy : y.toNat = b) (ha : a < 2 ^ k)
    (hb : b * 2 ^ k < 2 ^ 32) : (x ||| y <<< k).toNat = a + b * 2 ^ k := by
  subst hx hy
  rw [BitVec.toNat_or, BitVec.toNat_shiftLeft, Nat.shiftLeft_eq, Nat.mod_eq_of_lt hb, Nat.or_comm, ← Nat.shiftLeft_eq,
    ← Nat.shiftLeft_add_eq_or_of_lt ha, Nat.shiftLeft_eq, Nat.add_comm]

/-- `SW` is the weighted sum of its fields (10_state.md R47). -/
theorem toNat_statusWord (s : State) : (statusWord s).toNat =
    s.hphase.code.toNat + s.sphase.code.toNat * 2 ^ 2 + s.hctx.fill.val * 2 ^ 4 + (modeCode s.mode).toNat * 2 ^ 10 +
      s.found.toNat * 2 ^ 11 + s.outcome.code.toNat * 2 ^ 12 := by
  have hh := s.hphase.code.isLt
  have hs := s.sphase.code.isLt
  have hf := s.hctx.fill.isLt
  have hm := (modeCode s.mode).isLt
  have hb := s.found.toNat_lt
  have ho := s.outcome.code.isLt
  have widen {n : Nat} (hn : n ≤ 32) (x : BitVec n) : (x.setWidth 32).toNat = x.toNat := BitVec.toNat_setWidth_of_le hn
  have fill : (BitVec.ofNat 32 s.hctx.fill.val).toNat = s.hctx.fill.val := Nat.mod_eq_of_lt (by omega)
  have found : ((BitVec.ofBool s.found).setWidth 32).toNat = s.found.toNat :=
    (widen (by decide) _).trans (BitVec.toNat_ofBool _)
  have upToSphase := toNat_or_shiftLeft (k := 2) (widen (by decide) s.hphase.code) (widen (by decide) s.sphase.code)
    (by omega) (by omega)
  have upToFill := toNat_or_shiftLeft (k := 4) upToSphase fill (by omega) (by omega)
  have upToMode := toNat_or_shiftLeft (k := 10) upToFill (widen (by decide) (modeCode s.mode)) (by omega) (by omega)
  have upToFound := toNat_or_shiftLeft (k := 11) upToMode found (by omega) (by omega)
  exact toNat_or_shiftLeft (k := 12) upToFound (widen (by decide) s.outcome.code) (by omega) (by omega)

/-- Every field of `SW` mirrors its register, and bits 31:14 are 0 (10_state.md R47). -/
theorem statusWord_fields (s : State) :
    (statusWord s).toNat % 4 = s.hphase.code.toNat ∧ (statusWord s).toNat / 4 % 4 = s.sphase.code.toNat ∧
    (statusWord s).toNat / 16 % 64 = s.hctx.fill.val ∧ (statusWord s).toNat / 1024 % 2 = (modeCode s.mode).toNat ∧
    (statusWord s).toNat / 2048 % 2 = s.found.toNat ∧ (statusWord s).toNat / 4096 % 4 = s.outcome.code.toNat ∧
    (statusWord s).toNat / 16384 = 0 := by
  have hh := s.hphase.code.isLt
  have hs := s.sphase.code.isLt
  have hf := s.hctx.fill.isLt
  have hm := (modeCode s.mode).isLt
  have hb := s.found.toNat_lt
  have ho := s.outcome.code.isLt
  have hw := toNat_statusWord s
  refine ⟨?_, ?_, ?_, ?_, ?_, ?_, ?_⟩ <;> omega

/-- Every register that `SW` mirrors holds 0 after reset, in every build (10_state.md R47). -/
theorem statusWord_resetOf (c : Config) : statusWord (State.resetOf c) = 0 := by
  simp [statusWord, State.resetOf, HPhase.code, SPhase.code, modeCode, SearchOutcome.code]

/-! ### The command -/

/-- Sending a response leaves the host hasher alone. -/
theorem respond_sameHasher (st : Status) (p : List Byte) (s : State) : SameHasher s (respond st p s) :=
  ⟨respond_hphase .., respond_hctx ..⟩

/-- Sending a response leaves the whole search engine alone. -/
theorem respond_sameSearch (st : Status) (p : List Byte) (s : State) : SameSearch s (respond st p s) := by
  simp [SameSearch, SameSearchConfig, SameResult]

/-- STATUS sends `OK`, `SW`, `LEN` and `RNONCE`, and only the response writes the state (42_hasher.md R220). -/
theorem exec_status (s : State) : exec .status s =
    .next (respond .ok ((enc32 (statusWord s)).toList ++ (enc64 s.hctx.len).toList ++ (enc64 s.rnonce).toList) s) := rfl

/-- Settles O22: each field of `SW` is read off its weighted sum, and STATUS writes nothing but its response. -/
theorem statusCompletes : Obligations.StatusCompletes := by
  unfold Obligations.StatusCompletes
  refine ⟨by decide, fun s => ?_⟩
  obtain ⟨hphase, sphase, fill, mode, found, outcome, reserved⟩ := statusWord_fields s
  refine ⟨_, statusWord s, exec_status s, ⟨respond_tx .., respond_cmdState ..⟩, hphase.trans ?_, sphase.trans ?_, fill,
    mode.trans ?_, found.trans ?_, outcome.trans ?_, reserved, ?_, respond_sameHasher .., respond_sameSearch ..,
    (exec_outside _ _ _ (exec_status s)).1⟩
  · cases s.hphase <;> rfl
  · cases s.sphase <;> rfl
  · cases s.mode <;> rfl
  · cases s.found <;> rfl
  · cases s.outcome <;> rfl
  · rintro c rfl
    exact statusWord_resetOf c

end Sys2Proof.Machine
end

section
/-! Illegal headers: when the decoder answers one, and the step that takes it (30_encoding.md R102, 60_exceptions.md R295). -/

namespace Sys2Proof.Machine

open Sys2Proof Sys2Proof.Laws

/-! ### The decoder -/

/-- A header decodes as illegal just when its class is an error, and its frame is the four header bytes alone: whatever
follows them is left unread (30_encoding.md R102). -/
theorem decode_enc32_eq_illegal_iff {w : Word} {rest r : List Byte} {why : IllegalHeader} :
    decode ((enc32 w).toList ++ rest) = .illegal why r ↔ classifyHeader w = .error why ∧ rest = r := by
  simp only [decode, takeWord_append]
  cases classifyHeader w with
  | error e => simp
  | ok hd =>
    dsimp only
    cases takeOperands hd rest <;> simp

/-! ### The step -/

/-- Sending a response leaves the build, the unread stream, the host's side and the scheduler alone. -/
theorem respond_sameOutside (st : Status) (p : List Byte) (s : State) : SameOutside s (respond st p s) := by
  simp [SameOutside]

/-- A READY port with no pending response takes an illegal header off the stream and answers `ILLEGAL_CMD`
(60_exceptions.md R295). -/
theorem step_illegal {s : State} {why : IllegalHeader} {rest : List Byte} (hhost : s.host = [])
    (hready : s.cmdState = .ready) (htx : s.tx = []) (hd : decode s.rx = .illegal why rest) :
    step s = .next (respond .illegalCmd [] (takeFrame rest s)) := by
  have hport : portAction s = .illegal rest := by simp only [portAction, htx, hd]
  simp only [step, hhost, coreStep, hready, hport, execIllegal, raise]

/-- Settles O6: `classify_isOk_iff` reads R102's three conditions off the header's class, the decoder answers that class, and
the step that takes an illegal header only consumes it and responds. -/
theorem illegalHeaderIsAnsweredAlone : Obligations.IllegalHeaderIsAnsweredAlone := by
  unfold Obligations.IllegalHeaderIsAnsweredAlone
  intro w rest opc m rsv legal
  have hlegal : (∃ hd, classifyHeader w = .ok hd) ↔ legal := classify_isOk_iff w
  cases hc : classifyHeader w with
  | ok hd =>
    refine ⟨fun _ why r h => ?_, fun hn => absurd (hlegal.mp ⟨hd, hc⟩) hn⟩
    exact nomatch hc.symm.trans (decode_enc32_eq_illegal_iff.mp h).1
  | error why =>
    have hdecode : decode ((enc32 w).toList ++ rest) = .illegal why rest := decode_enc32_eq_illegal_iff.mpr ⟨hc, rfl⟩
    refine ⟨fun hl => ?_, fun _ => ⟨⟨why, hdecode⟩, fun s hhost hready htx hrx => ?_⟩⟩
    · obtain ⟨hd, hok⟩ := hlegal.mpr hl
      exact nomatch hc.symm.trans hok
    · have hstep := step_illegal hhost hready htx (hrx.symm ▸ hdecode : decode s.rx = .illegal why rest)
      exact ⟨_, hstep, ⟨respond_tx .., respond_cmdState ..⟩, respond_rx .., respond_sameHasher ..,
        respond_sameSearch .., respond_sameOutside ..⟩

end Sys2Proof.Machine
end

section
/-! A word read from four bytes (40_codec.md R140). -/

namespace Sys2Proof.Laws

open Sys2Proof

/-- The first byte is bits 31:24: reading a word and writing it again gives the bytes back, and what `enc32` writes first is
the word's top byte. -/
theorem be32_extractLsb'_top (s : Vector Byte 4) : (be32 s).extractLsb' 24 8 = s[0] :=
  calc (be32 s).extractLsb' 24 8
    _ = (enc32 (be32 s))[0] := rfl
    _ = s[0] := by rw [enc32_be32]

/-- Settles O1: the weighted sum is `be32_toNat`, the top byte is what `enc32` gives back, and the corner cases and the
example are evaluated. -/
theorem wordReadsBigEndian : Obligations.WordReadsBigEndian := by
  unfold Obligations.WordReadsBigEndian
  refine ⟨fun s => ⟨be32_toNat s, be32_extractLsb'_top s⟩, ?zeros, ?ones, ?sample⟩
  case zeros => decide
  case ones => decide
  case sample => decide

end Sys2Proof.Laws
end

section
/-! The message expansion (41_compression.md R166, R167, R168). -/

namespace Sys2Proof

/-- The first 16 words are the block's big-endian words (41_compression.md R166). -/
theorem expandW_loaded (b : Block) (i : Fin 16) : (expandW b)[i.val] =
    be32 #v[b[4 * i.val], b[4 * i.val + 1], b[4 * i.val + 2], b[4 * i.val + 3]] := by
  rw [(expandW_get b i.val (by omega)).1 i.isLt, Vector.getElem_append_left i.isLt, loadBlock, bytesToWordsBE,
    Vector.getElem_ofFn]

/-- The other 52 words meet the recurrence over the final words (41_compression.md R167). -/
theorem expandW_recurrence (b : Block) (i : Fin 52) : (expandW b)[i.val + 16] =
    P1 ((expandW b)[i.val] ^^^ (expandW b)[i.val + 7] ^^^ rotl (expandW b)[i.val + 13] 15) ^^^
      rotl (expandW b)[i.val + 3] 7 ^^^ (expandW b)[i.val + 10] :=
  (expandW_get b 0 (by decide)).2 i

/-- R167's corner case: a block of zeros expands to zeros. -/
theorem expandW_zeros : expandW (Vector.replicate 64 0) = Vector.replicate 68 0 := by decide +kernel

/-- Settles O9: the words that were loaded and the words that meet the recurrence are two cases of one expansion; the
examples are evaluated. -/
theorem expansionMeetsTheRecurrence : Obligations.ExpansionMeetsTheRecurrence := by
  unfold Obligations.ExpansionMeetsTheRecurrence
  refine ⟨fun b => ⟨expandW_loaded b, fun j hj => ?recurrence, fun _ => rfl⟩, fun j => ?zeros, ?abc⟩
  case recurrence =>
    obtain ⟨j, hlt⟩ := j
    obtain ⟨i, rfl⟩ := Nat.exists_eq_add_of_le' hj
    exact expandW_recurrence b ⟨i, by omega⟩
  case zeros =>
    rw [expandW_zeros]
    exact Vector.getElem_replicate ..
  case abc => decide +kernel

end Sys2Proof
end

section
/-! The compression function as a run of rounds (41_compression.md R169, R170, R171). -/

namespace Sys2Proof

open Sys2Proof.Machine

/-- The working register of `CF v b` before round `n`; the last is the one after round 63 (41_compression.md R171). -/
def regBefore (v : Chain) (b : Block) (n : Nat) : WorkReg :=
  runRounds (expandW b) ((List.finRange 64).take n) (loadReg v)

@[simp] theorem regBefore_zero (v : Chain) (b : Block) : regBefore v b 0 = loadReg v := rfl

theorem regBefore_succ (v : Chain) (b : Block) (j : Fin 64) : regBefore v b (j.val + 1) =
    sm3Round (regBefore v b j.val) j.val (expandW b)[j.val] (wPrime (expandW b) j) :=
  runRounds_succ (expandW b) (loadReg v) j

/-- The feed-forward, word by word (41_compression.md R171, R176). -/
theorem CF_eq_feedForward (v : Chain) (b : Block) :
    CF v b = Vector.zipWith (· ^^^ ·) (regBefore v b 64).words v := by
  have hall : (List.finRange 64).take 64 = List.finRange 64 := List.take_of_length_le (by simp)
  ext i hi : 1
  simp [CF, regBefore, hall]

/-- R171's example: one block of "abc". -/
theorem CF_abc : CF IV abcBlock =
    #v[0x66c7f0f4, 0x62eeedd9, 0xd1f2d46b, 0xdc10e4e2, 0x4167c487, 0x5cf2f7a2, 0x297da02b, 0x8f4ba8e0] := by
  decide +kernel

/-- R171's example: a block of zeros. -/
theorem CF_zeros : CF IV (Vector.replicate 64 0x00) =
    #v[0xa1203a40, 0x4a5566cd, 0x536fcee8, 0x20df7e13, 0x35c58f56, 0xb7c4c62e, 0x813c32cc, 0x47bf9b6c] := by
  decide +kernel

/-- Settles O10: the registers are `regBefore`, each round is `sm3Round` on the register before it, the last register is
fed forward, and the examples are evaluated. -/
theorem compressionRunsTheRounds : Obligations.CompressionRunsTheRounds := by
  unfold Obligations.CompressionRunsTheRounds
  refine ⟨fun v b => ⟨regBefore v b, regBefore_zero v b, fun j ss1 ss2 tt1 tt2 hss1 hss2 htt1 htt2 => ?round, ?feedForward⟩,
    CF_abc, CF_zeros⟩
  case round =>
    have htrot : rotl (T j.val) (j.val % 32) = Trot j.val := rotl_mod ..
    rw [htrot] at hss1
    subst hss1 hss2 htt1 htt2
    rw [regBefore_succ]
    refine ⟨rfl, rfl, rfl, rfl, rfl, rfl, rfl, rfl, ?abc⟩
    case abc =>
      rintro rfl rfl rfl
      decide +kernel
  case feedForward =>
    rw [CF_eq_feedForward]
    ext i hi : 1
    interval_cases i <;> simp [WorkReg.words]

end Sys2Proof
end

section
/-! The COMPRESS command (41_compression.md R175). -/

namespace Sys2Proof.Machine

open Sys2Proof Sys2Proof.Laws

/-- COMPRESS sends `OK` and the digest bytes of `CF`, and only the response writes the state (41_compression.md R175). -/
theorem exec_compress (vin : Chain) (blk : Block) (s : State) :
    exec (.compress vin blk) s = .next (respond .ok (digestOf (CF vin blk)).toList s) := rfl

/-- The frame of COMPRESS with the chaining state as the 32 bytes it is read from (30_encoding.md R103, R106). -/
theorem encode_compress_bytesToWordsBE (bytes : Vector Byte 32) (blk : Block) :
    encode (.compress (bytesToWordsBE (k := 8) bytes) blk) = [0x00, 0x00, 0x00, 0x05] ++ bytes.toList ++ blk.toList := by
  have hoperand : wordsToBytesBE (k := 8) (bytesToWordsBE (k := 8) bytes) = bytes :=
    wordsToBytesBE_bytesToWordsBE (k := 8) bytes
  have hheader : (enc32 0x00000005).toList = [0x00, 0x00, 0x00, 0x05] := by decide
  rw [encode, headerWord, encodeOperands, hheader, hoperand, List.append_assoc]

/-- The digest bytes of R175's example: what `CF` makes of the block of "abc", as bytes. -/
theorem digestOf_CF_abc : (digestOf (CF IV abcBlock)).toList = [
    0x66, 0xc7, 0xf0, 0xf4, 0x62, 0xee, 0xed, 0xd9, 0xd1, 0xf2, 0xd4, 0x6b, 0xdc, 0x10, 0xe4, 0xe2,
    0x41, 0x67, 0xc4, 0x87, 0x5c, 0xf2, 0xf7, 0xa2, 0x29, 0x7d, 0xa0, 0x2b, 0x8f, 0x4b, 0xa8, 0xe0] := by
  rw [CF_abc]
  decide

/-- Settles O11: `exec_compress` says the whole next state, a response leaves everything else alone, and the frame is the
encoder's. -/
theorem compressCompletes : Obligations.CompressCompletes := by
  unfold Obligations.CompressCompletes
  intro vin blk s
  refine ⟨_, exec_compress vin blk s, ⟨respond_tx .., respond_cmdState ..⟩, respond_sameHasher .., respond_sameSearch ..,
    respond_sameOutside .., ?frame, EncodedLength.compress vin blk, ?abc⟩
  case frame =>
    rintro bytes rfl
    exact encode_compress_bytesToWordsBE bytes blk
  case abc =>
    rintro rfl rfl
    rw [respond_tx, digestOf_CF_abc]
    rfl

end Sys2Proof.Machine
end

section
/-! INIT, UPDATE and FINALIZE outside a live context, and what leaves ERROR (42_hasher.md R203, R205, R208, R209). -/

namespace Sys2Proof.Machine

open Sys2Proof

/-! ### The commands, phase by phase -/

/-- INIT re-initialises the context in every phase (42_hasher.md R203). -/
theorem exec_init (s : State) :
    exec .init s = .next (respond .ok [] { s with hctx := s.hctx.init, hphase := .active }) := rfl

/-- UPDATE and FINALIZE fail the phase check in IDLE and in DONE (42_hasher.md R209). -/
theorem exec_misuse {i : Instr} {s : State} (hp : s.hphase = .idle ∨ s.hphase = .done)
    (hi : i = .finalize ∨ ∃ data, i = .update data) : exec i s = .next (respond .misuse [] s) := by
  obtain rfl | ⟨data, rfl⟩ := hi <;> obtain hp | hp := hp
  · simp only [exec, execFinalize, hp, raise]
  · simp only [exec, execFinalize, hp, raise]
  · simp only [exec, execUpdate, hp, raise]
  · simp only [exec, execUpdate, hp, raise]

/-- UPDATE and FINALIZE fail the phase check in ERROR (42_hasher.md R208). -/
theorem exec_inputTooLarge_of_error {i : Instr} {s : State} (hp : s.hphase = .error)
    (hi : i = .finalize ∨ ∃ data, i = .update data) : exec i s = .next (respond .inputTooLarge [] s) := by
  obtain rfl | ⟨data, rfl⟩ := hi
  · simp only [exec, execFinalize, hp, raise]
  · simp only [exec, execUpdate, hp, raise]

/-- UPDATE over the cap writes `HPHASE` alone (42_hasher.md R204, R208). -/
theorem exec_update_overCap {data : List Byte} {s : State} (hp : s.hphase = .active)
    (hcap : LEN_CAP < s.hctx.len.toNat + data.length) :
    exec (.update data) s = .next (respond .inputTooLarge [] { s with hphase := .error }) := by
  simp only [exec, execUpdate, hp, if_pos hcap, raise]

/-- UPDATE of no bytes in ACTIVE only responds (42_hasher.md R205). -/
theorem exec_update_nil {s : State} (hp : s.hphase = .active) (hcap : s.hctx.len.toNat ≤ LEN_CAP) :
    exec (.update []) s = .next (respond .ok [] s) := by
  have hctx : { s.hctx.absorbAll [] with len := s.hctx.len + BitVec.ofNat 64 ([] : List Byte).length } = s.hctx := by
    simp
  exact (execUpdate_active [] s hp hcap).trans (by rw [hctx])

/-- A command that only sends a status byte changes nothing else. -/
theorem exec_onlyResponds {i : Instr} {s : State} {st : Status} (h : exec i s = .next (respond st [] s)) :
    ∃ t, exec i s = .next t ∧ Responds s t [st.code] ∧ SameHasher s t ∧ SameSearch s t ∧ SameOutside s t :=
  ⟨_, h, ⟨respond_tx .., respond_cmdState ..⟩, respond_sameHasher .., respond_sameSearch .., respond_sameOutside ..⟩

/-! ### What leaves ERROR -/

/-- No engine step touches the host hasher (43_search.md R265). -/
theorem engineStep_sameHasher {s t : State} (h : engineStep s = .next t) : SameHasher s t := by
  obtain ⟨-, w, k, -, hw⟩ | ⟨-, -, rfl⟩ | ⟨-, -, rfl⟩ | ⟨-, -, rfl⟩ := engineStep_cases h
  · exact (workerStep_frame hw).1
  · exact ⟨endStep_hphase s, endStep_hctx s⟩
  · exact respond_sameHasher ..
  · exact respond_sameHasher ..

/-- SEARCH's own step, refused or loaded, does not touch the host hasher (43_search.md R265). -/
theorem startSearch_sameHasher {m : Mode} {noff : Word} {lo hi : DWord} {bound : U256} {tdata : List Byte} {s t : State}
    (h : startSearch m noff lo hi bound tdata s = .next t) : SameHasher s t := by
  obtain ⟨-, e⟩ | ⟨-, -, -, -, e⟩ := startSearch_cases m noff lo hi bound tdata s <;> cases e.symm.trans h
  · exact respond_sameHasher ..
  · exact ⟨rfl, rfl⟩

/-- Of the commands, only INIT and HASH leave ERROR (42_hasher.md R208). -/
theorem exec_leaves_error {i : Instr} {s t : State} (hp : s.hphase = .error) (h : exec i s = .next t)
    (ht : t.hphase ≠ .error) : i = .init ∨ ∃ data, i = .hash data := by
  have stays (hsame : SameHasher s t) : False := ht (hsame.1.trans hp)
  cases i with
  | init => exact .inl rfl
  | hash data => exact .inr ⟨data, rfl⟩
  | update data =>
    cases (exec_inputTooLarge_of_error hp (.inr ⟨data, rfl⟩)).symm.trans h
    exact (stays (respond_sameHasher ..)).elim
  | finalize =>
    cases (exec_inputTooLarge_of_error hp (.inl rfl)).symm.trans h
    exact (stays (respond_sameHasher ..)).elim
  | compress vin blk =>
    cases (exec_compress vin blk s).symm.trans h
    exact (stays (respond_sameHasher ..)).elim
  | status =>
    cases (exec_status s).symm.trans h
    exact (stays (respond_sameHasher ..)).elim
  | searchLt noff lo hi bound tdata => exact (stays (startSearch_sameHasher h)).elim
  | searchLte noff lo hi bound tdata => exact (stays (startSearch_sameHasher h)).elim

/-- CORE moves out of ERROR by itself only when a READY port with no response pending takes INIT or HASH. -/
theorem coreStep_leaves_error {s t : State} (hp : s.hphase = .error) (h : coreStep s = .next t) (ht : t.hphase ≠ .error) :
    s.cmdState = .ready ∧ s.tx = [] ∧ ∃ i rest, decode s.rx = .command i rest ∧ (i = .init ∨ ∃ data, i = .hash data) := by
  obtain ⟨-, he⟩ | ⟨-, -, -, rfl⟩ | ⟨-, -, _, _, -, rfl⟩ | ⟨hready, htx, i, rest, hd, he⟩ := coreStep_cases h
  · exact (ht ((engineStep_sameHasher he).1.trans hp)).elim
  · exact (ht hp).elim
  · exact (ht hp).elim
  · exact ⟨hready, htx, i, rest, hd, exec_leaves_error (s := takeFrame rest s) hp he ht⟩

/-- Of all steps, only a reset and the one that takes INIT or HASH leave ERROR (42_hasher.md R208). -/
theorem step_leaves_error {s t : State} (hp : s.hphase = .error) (h : step s = .next t) (ht : t.hphase ≠ .error) :
    (∃ es, s.host = .reset :: es) ∨
    (s.cmdState = .ready ∧ s.tx = [] ∧ (s.host = [] ∨ ∃ es, s.host = .letRun :: es) ∧
      ∃ i rest, decode s.rx = .command i rest ∧ (i = .init ∨ ∃ data, i = .hash data)) := by
  obtain ⟨hh, hcore⟩ | ⟨_, _, -, rfl⟩ | ⟨_, _, -, rfl⟩ | ⟨es, hh, -⟩ | ⟨es, hh, hcore | rfl⟩ := step_cases h
  · obtain ⟨hready, htx, htaken⟩ := coreStep_leaves_error hp hcore ht
    exact .inr ⟨hready, htx, .inl hh, htaken⟩
  · exact (ht hp).elim
  · exact (ht hp).elim
  · exact .inl ⟨es, hh⟩
  · obtain ⟨hready, htx, htaken⟩ := coreStep_leaves_error (s := { s with host := es }) hp hcore ht
    exact .inr ⟨hready, htx, .inr ⟨es, hh⟩, htaken⟩
  · exact (ht hp).elim

/-! ### The obligations -/

/-- Settles O15: `exec_update_overCap` says the whole next state, in ERROR the two commands only respond, and
`step_leaves_error` is the case analysis over every step. -/
theorem capFailureIsSticky : Obligations.CapFailureIsSticky := by
  unfold Obligations.CapFailureIsSticky
  refine ⟨fun data s hp hcap => ?overCap, fun i s hp hi => ?inError, fun s t => step_leaves_error⟩
  case overCap =>
    exact ⟨_, exec_update_overCap hp hcap, ⟨respond_tx .., respond_cmdState ..⟩, respond_hphase .., respond_hctx ..,
      respond_sameSearch _ _ { s with hphase := .error }, respond_sameOutside _ _ { s with hphase := .error }⟩
  case inError => exact exec_onlyResponds (exec_inputTooLarge_of_error hp hi)

/-- Settles O12: `exec_init` says the whole next state, and the frame is the encoder's. -/
theorem initCompletes : Obligations.InitCompletes := by
  unfold Obligations.InitCompletes
  refine ⟨by decide, fun s => ?_⟩
  exact ⟨_, exec_init s, ⟨respond_tx .., respond_cmdState ..⟩, fun _ => rfl, rfl, rfl, rfl, respond_hphase ..,
    respond_sameSearch _ _ { s with hctx := s.hctx.init, hphase := .active },
    respond_sameOutside _ _ { s with hctx := s.hctx.init, hphase := .active }⟩

/-- Settles O14: in every phase UPDATE of no bytes only responds, with the status of that phase. -/
theorem emptyUpdateChangesNothing : Obligations.EmptyUpdateChangesNothing := by
  unfold Obligations.EmptyUpdateChangesNothing
  intro s hcap
  have answers (st : Status) (h : exec (.update []) s = .next (respond st [] s)) :
      ∃ t, exec (.update []) s = .next t ∧ SameHasher s t ∧ SameSearch s t ∧ SameOutside s t ∧ Responds s t [st.code] := by
    obtain ⟨t, he, hresponds, hhasher, hsearch, houtside⟩ := exec_onlyResponds h
    exact ⟨t, he, hhasher, hsearch, houtside, hresponds⟩
  cases hp : s.hphase with
  | active => exact answers .ok (exec_update_nil hp hcap)
  | idle => exact answers .misuse (exec_misuse (.inl hp) (.inr ⟨[], rfl⟩))
  | done => exact answers .misuse (exec_misuse (.inr hp) (.inr ⟨[], rfl⟩))
  | error => exact answers .inputTooLarge (exec_inputTooLarge_of_error hp (.inr ⟨[], rfl⟩))

/-- Settles O16: the phase check answers before anything is written. -/
theorem misuseChangesNothing : Obligations.MisuseChangesNothing := by
  unfold Obligations.MisuseChangesNothing
  intro i s hp hi
  exact exec_onlyResponds (exec_misuse hp hi)

end Sys2Proof.Machine
end

section
/-! The digest as an integer, and the boundary comparator (40_codec.md R147, 43_search.md R251, R252). -/

namespace Sys2Proof.Laws

open Sys2Proof

/-- Byte `i` of a big-endian number weighs 256 to the number of bytes after it (40_codec.md R147). -/
theorem beNat_eq_sum (l : List Byte) :
    beNat l = ∑ i ∈ Finset.range l.length, (l.getD i 0).toNat * 256 ^ (l.length - 1 - i) := by
  induction l using List.reverseRecOn with
  | nil => rfl
  | append_singleton xs x ih =>
    have earlier : ∀ i ∈ Finset.range xs.length,
        ((xs ++ [x]).getD i 0).toNat * 256 ^ (xs.length - i) =
          (xs.getD i 0).toNat * 256 ^ (xs.length - 1 - i) * 256 := by
      intro i hi
      have hi : i < xs.length := Finset.mem_range.mp hi
      rw [List.getD_append _ _ _ _ hi, show xs.length - i = xs.length - 1 - i + 1 by omega, pow_succ, mul_assoc]
    rw [beNat_append_singleton, ih, List.length_append, List.length_singleton, Nat.add_sub_cancel,
      Finset.sum_range_succ, Finset.sum_congr rfl earlier, Finset.sum_mul]
    simp

/-- The digest's integer is the sum of its weighted bytes, `d[0]` the most significant (40_codec.md R147). -/
theorem u256_toNat_eq_sum (d : Digest) : (u256 d).toNat = ∑ i : Fin 32, d[i].toNat * 256 ^ (31 - i.val) := by
  rw [u256_toNat, beNat_eq_sum, Vector.length_toList, Finset.sum_range]
  simp

end Sys2Proof.Laws

namespace Sys2Proof.Machine

open Sys2Proof Sys2Proof.Laws

theorem qualifies_lt_iff (bound : U256) (d : Digest) :
    qualifies .lt bound d = true ↔ (u256 d).toNat < bound.toNat := decide_eq_true_iff

theorem qualifies_lte_iff (bound : U256) (d : Digest) :
    qualifies .lte bound d = true ↔ (u256 d).toNat ≤ bound.toNat := decide_eq_true_iff

/-- Settles O28: each mode compares the digest's integer with the boundary's, and that integer is the weighted sum. -/
theorem comparatorIsUnsigned : Obligations.ComparatorIsUnsigned := by
  unfold Obligations.ComparatorIsUnsigned
  intro d bound
  have hsum := u256_toNat_eq_sum d
  exact ⟨hsum, hsum ▸ qualifies_lt_iff bound d, hsum ▸ qualifies_lte_iff bound d⟩

end Sys2Proof.Machine
end

section
/-! The steps of the port and of the search engine, case by case (10_state.md R46; 43_search.md R254, R259, R260). -/

namespace Sys2Proof.Machine

open Sys2Proof

/-! ### Which rule a step runs -/

/-- A READY port with no response pending consumes a whole frame and runs its command (30_encoding.md R103). -/
theorem step_command {s : State} {i : Instr} {rest : List Byte} (hhost : s.host = []) (hready : s.cmdState = .ready)
    (htx : s.tx = []) (hd : decode s.rx = .command i rest) : step s = exec i (takeFrame rest s) := by
  have hport : portAction s = .command i rest := by simp only [portAction, htx, hd]
  simp only [step, hhost, coreStep, hready, hport]

/-- A step is a reset, or writes only what belongs to the host and the end of the command stream, or is a move of CORE. -/
theorem step_moves {s t : State} (h : step s = .next t) :
    (∃ es, s.host = .reset :: es) ∨
    (∃ es more on, t = { s with host := es, rx := s.rx ++ more, hostAccepts := on }) ∨
    (∃ es, (s.host = [] ∨ s.host = .letRun :: es) ∧ coreStep { s with host := es } = .next t) := by
  obtain ⟨hh, hcore⟩ | ⟨b, es, -, rfl⟩ | ⟨on, es, -, rfl⟩ | ⟨es, hh, -⟩ | ⟨es, hh, hcore | rfl⟩ := step_cases h
  · exact .inr (.inr ⟨[], .inl hh, hh ▸ hcore⟩)
  · exact .inr (.inl ⟨es, [b], s.hostAccepts, rfl⟩)
  · exact .inr (.inl ⟨es, [], on, by rw [List.append_nil]⟩)
  · exact .inl ⟨es, hh⟩
  · exact .inr (.inr ⟨es, .inr hh, hcore⟩)
  · exact .inr (.inl ⟨es, [], s.hostAccepts, by rw [List.append_nil]⟩)

/-- While a SEARCH holds the port CORE's move is the engine's. -/
theorem coreStep_busy {s : State} (hbusy : s.cmdState = .busy) : coreStep s = engineStep s := by
  simp only [coreStep, hbusy]

/-- With no host event to come, a BUSY step is the engine's. -/
theorem step_busy {s : State} (hhost : s.host = []) (hbusy : s.cmdState = .busy) : step s = engineStep s := by
  simp only [step, hhost, coreStep_busy hbusy]

/-- From a BUSY state a step is a reset, or a host event that leaves CORE's registers alone, or the engine's. -/
theorem step_moves_of_busy {s t : State} (hbusy : s.cmdState = .busy) (h : step s = .next t) :
    (∃ es, s.host = .reset :: es) ∨
    (∃ es more on, t = { s with host := es, rx := s.rx ++ more, hostAccepts := on }) ∨
    (∃ es, engineStep { s with host := es } = .next t) := by
  refine (step_moves h).imp_right (Or.imp_right ?_)
  rintro ⟨es, -, hcore⟩
  exact ⟨es, (coreStep_busy (s := { s with host := es }) hbusy).symm.trans hcore⟩

/-! ### The engine -/

/-- A running worker that the scheduler picks moves (43_search.md R254). -/
theorem engineStep_worker {s : State} {w : Worker} {k : Nat} (hs : s.sphase = .searching)
    (hp : pickWorker s = some (w, k)) : engineStep s = workerStep k w (useChoice s) := by
  simp only [engineStep, hs, hp]

/-- When every worker has stopped the engine takes the end step (43_search.md R259). -/
theorem engineStep_end {s : State} (hs : s.sphase = .searching) (hstop : ∀ w ∈ s.workers, w.st = .stop) :
    engineStep s = .next (endStep s) := by
  simp only [engineStep, hs, pickWorker_none.mpr hstop]

/-- After the end step the engine responds (43_search.md R260). -/
theorem engineStep_done {s : State} (hs : s.sphase = .done) : engineStep s = searchResponse s := by
  simp only [engineStep, hs]

theorem searchResponse_found {s : State} (ho : s.outcome = .found) :
    searchResponse s = .next (respond .ok (0x01 :: (enc64 s.rnonce).toList) s) := by
  simp only [searchResponse, ho, finishOk]

theorem searchResponse_exhausted {s : State} (ho : s.outcome = .exhausted) :
    searchResponse s = .next (respond .ok (0x02 :: zeros 8) s) := by
  simp only [searchResponse, ho, finishOk]

/-- No engine step writes the search configuration (43_search.md R242). -/
theorem engineStep_sameSearchConfig {s t : State} (h : engineStep s = .next t) : SameSearchConfig s t := by
  obtain ⟨-, w, k, -, hw⟩ | ⟨-, -, rfl⟩ | ⟨-, -, rfl⟩ | ⟨-, -, rfl⟩ := engineStep_cases h
  · obtain ⟨-, hconfig, -⟩ := workerStep_frame hw
    exact hconfig
  · simp [SameSearchConfig]
  · exact (respond_sameSearch ..).1
  · exact (respond_sameSearch ..).1

/-- Once a nonce is found no engine step writes the slot (43_search.md R256). -/
theorem engineStep_keeps_slot {s t : State} (h : engineStep s = .next t) (hf : s.found = true) :
    t.found = true ∧ t.rnonce = s.rnonce := by
  obtain ⟨-, w, k, -, hw⟩ | ⟨-, -, rfl⟩ | ⟨-, -, rfl⟩ | ⟨-, -, rfl⟩ := engineStep_cases h
  · have hstops : workerStep k w (useChoice s) = .next (setWorker k { w with st := .stop } (useChoice s)) :=
      if_pos hf
    cases hstops.symm.trans hw
    exact ⟨hf, rfl⟩
  · exact ⟨hf, rfl⟩
  · exact ⟨hf, rfl⟩
  · exact ⟨hf, rfl⟩

/-! ### The obligations -/

/-- Settles O34: the engine's step in DONE only sends the response of its `OUTCOME`. -/
theorem searchResponds : Obligations.SearchResponds := by
  unfold Obligations.SearchResponds
  intro s hhost hbusy hdone
  have hstep : step s = searchResponse s := (step_busy hhost hbusy).trans (engineStep_done hdone)
  have answers (p : List Byte) (h : searchResponse s = .next (respond .ok p s)) :
      ∃ t, step s = .next t ∧ Responds s t (0x00 :: p) ∧ SameHasher s t ∧ SameSearch s t ∧ SameOutside s t :=
    ⟨_, hstep.trans h, ⟨respond_tx .., respond_cmdState ..⟩, respond_sameHasher .., respond_sameSearch ..,
      respond_sameOutside ..⟩
  exact ⟨fun ho => answers _ (searchResponse_found ho), fun ho => answers _ (searchResponse_exhausted ho)⟩

/-- Settles O33: with every worker stopped the engine's step is the end step; of the steps from a running search, host events
and worker steps keep `SPHASE`. -/
theorem endStepWaitsForEveryWorker : Obligations.EndStepWaitsForEveryWorker := by
  unfold Obligations.EndStepWaitsForEveryWorker
  refine ⟨fun s hhost hbusy hs hstop => (step_busy hhost hbusy).trans (engineStep_end hs hstop), ?_⟩
  intro s t hbusy hs h ht
  obtain hreset | ⟨es, more, on, rfl⟩ | ⟨es, hengine⟩ := step_moves_of_busy hbusy h
  · exact .inl hreset
  · exact absurd hs ht
  · obtain ⟨-, w, k, -, hw⟩ | ⟨-, hstop, rfl⟩ | ⟨hd, -⟩ | ⟨hd, -⟩ := engineStep_cases hengine
    · obtain ⟨-, -, -, hsphase, -⟩ := workerStep_frame hw
      exact absurd (hsphase.trans hs) ht
    · refine .inr ⟨hstop, endStep_sphase _, ?_⟩
      cases hf : s.found <;> simp
    · exact nomatch hs.symm.trans hd
    · exact nomatch hs.symm.trans hd

/-- Settles O30: some enabled worker is picked; what its step does to it and to the slot is `workerStep_effect`, and what it
leaves alone `workerStep_frame`. -/
theorem workerTestsOneCandidate : Obligations.WorkerTestsOneCandidate := by
  unfold Obligations.WorkerTestsOneCandidate
  rintro s hhost hbusy hs hloaded hcap ⟨r, hr, hrun⟩
  have hpicked : pickWorker s ≠ none := fun hnone => nomatch hrun.symm.trans (pickWorker_none.mp hnone r hr)
  obtain ⟨⟨w, k⟩, hp⟩ := Option.ne_none_iff_exists'.mp hpicked
  obtain ⟨hk, hst⟩ := pickWorker_some hp
  have hl : Loaded (useChoice s) :=
    (loaded_congr (s := s) (t := useChoice s) rfl ⟨rfl, rfl, rfl, rfl, rfl, rfl, rfl⟩).mpr hloaded
  obtain ⟨t, ht⟩ := workerStep_completes hl k w
  have hstep : step s = .next t := ((step_busy hhost hbusy).trans (engineStep_worker hs hp)).trans ht
  obtain ⟨v, hv, hend, hstops, htests⟩ := workerStep_effect (s := useChoice s) hk hst hl hcap ht
  obtain ⟨hhasher, hconfig, hbuild, hsphase, houtcome, hcmd, hrx, htx, hhost', hacc, haccepted, -, -, hothers, -⟩ :=
    workerStep_frame ht
  refine ⟨k, w, t, v, hk, hst, hstep, hv, hend, hstops, fun hf hc => ?_, hothers, hconfig, hhasher, houtcome,
    hsphase.trans hs, hcmd.trans hbusy, htx, hbuild, hrx, hhost'.trans hhost, hacc, haccepted⟩
  obtain ⟨m, hm, -, hqualifies, hfails⟩ := htests hf hc
  exact ⟨m, hm, hqualifies, hfails⟩

end Sys2Proof.Machine
end

section
/-! SEARCH's own step: the refusal and the load (43_search.md R241 to R243). -/

namespace Sys2Proof.Machine

open Sys2Proof

/-! ### The command's own step -/

/-- Both rows of SEARCH run the same step, in some mode (43_search.md R240). -/
theorem exists_exec_eq_startSearch {i : Instr} {noff : Word} {lo hi : DWord} {bound : U256} {tdata : List Byte}
    (hrow : i = .searchLt noff lo hi bound tdata ∨ i = .searchLte noff lo hi bound tdata) :
    ∃ m, ∀ s, exec i s = startSearch m noff lo hi bound tdata s := by
  obtain rfl | rfl := hrow
  · exact ⟨.lt, fun _ => rfl⟩
  · exact ⟨.lte, fun _ => rfl⟩

/-- A failing check answers `CONFIG_ERROR` and nothing else (43_search.md R241). -/
theorem startSearch_rejected {m : Mode} {noff : Word} {lo hi : DWord} {bound : U256} {tdata : List Byte} {s : State}
    (h : s.config.tmplMax < tdata.length ∨ tdata.length < noff.toNat + 8 ∨ hi.toNat ≤ lo.toNat) :
    startSearch m noff lo hi bound tdata s = .next (respond .configError [] s) :=
  if_pos ((configFails_iff ..).mpr h)

/-- Passing checks lead to the load (43_search.md R242). -/
theorem startSearch_loads {m : Mode} {noff : Word} {lo hi : DWord} {bound : U256} {tdata : List Byte} {s : State}
    (hlen : tdata.length ≤ s.config.tmplMax) (hnoff : noff.toNat + 8 ≤ tdata.length) (hrange : lo.toNat < hi.toNat) :
    startSearch m noff lo hi bound tdata s =
      .next (loadSearch m noff lo hi bound tdata.length (memSetAll s.tmpl 0 tdata) s) := by
  obtain ⟨hfails, -⟩ | ⟨-, -, -, -, h⟩ := startSearch_cases m noff lo hi bound tdata s
  · have := (configFails_iff ..).mp hfails
    omega
  · exact h

/-- Settles O24: the failing check's answer only responds, and the step that runs it has consumed the frame. -/
theorem badSearchIsRejected : Obligations.BadSearchIsRejected := by
  unfold Obligations.BadSearchIsRejected
  intro i noff lo hi bound tdata s hrow hbad
  obtain ⟨m, hexec⟩ := exists_exec_eq_startSearch hrow
  refine ⟨exec_onlyResponds ((hexec s).trans (startSearch_rejected hbad)), fun rest hhost hready htx hd => ?_⟩
  have hrejected : exec i (takeFrame rest s) = .next (respond .configError [] (takeFrame rest s)) :=
    (hexec _).trans (startSearch_rejected hbad)
  obtain ⟨t, ht, hresponds, hhasher, hsearch, houtside⟩ := exec_onlyResponds hrejected
  exact ⟨t, (step_command hhost hready htx hd).trans ht, hresponds, houtside.2.1, hhasher, hsearch, houtside⟩

/-! ### The load -/

/-- `c` is the least chunk that covers the range: one less falls short (43_search.md R243). -/
theorem chunkSize_pred_mul_lt (n L : Nat) (h : 1 ≤ n) (hL : 0 < L) : n * (chunkSize n L - 1) < L := by
  have := Nat.mul_div_le (L + n - 1) n
  rw [chunkSize, Nat.mul_sub, Nat.mul_one]
  omega

/-- Every cut of a `u64` range is a `u64`. -/
theorem toNat_ofNat_cutPoint (n k : Nat) {lo hi : DWord} (h : lo.toNat ≤ hi.toNat) :
    (BitVec.ofNat 64 (cutPoint n lo.toNat hi.toNat k)).toNat = cutPoint n lo.toNat hi.toNat k :=
  Nat.mod_eq_of_lt ((cutPoint_le n _ _ k h).trans_lt hi.isLt)

/-- What the load writes to `TMPL` (43_search.md R242). -/
theorem memByte_load (m : List Host.Cell) (tdata : List Byte) (a : Nat) :
    memByte (memSetAll m 0 tdata) a = if a < tdata.length then tdata[a]? else memByte m a := by
  simp [memByte_memSetAll]

/-- Nothing but reset writes the configuration from a BUSY state (43_search.md R242). -/
theorem step_busy_sameSearchConfig {s t : State} (hbusy : s.cmdState = .busy) (h : step s = .next t) :
    SameSearchConfig s t ∨ ∃ es, s.host = .reset :: es := by
  obtain hreset | ⟨es, more, on, rfl⟩ | ⟨es, hengine⟩ := step_moves_of_busy hbusy h
  · exact .inr hreset
  · exact .inl ⟨rfl, rfl, rfl, rfl, rfl, rfl, rfl⟩
  · exact .inl (engineStep_sameSearchConfig (s := { s with host := es }) hengine)

/-- Settles O25: the next state is `loadSearch`, whose template, chunk and cuts the lemmas above read. -/
theorem searchStarts : Obligations.SearchStarts := by
  unfold Obligations.SearchStarts
  refine ⟨?load, fun u v hbusy _ h => step_busy_sameSearchConfig hbusy h⟩
  intro i m noff lo hi bound tdata s hrow hwf hlen hnoff hrange
  have hexec : exec i s = startSearch m noff lo hi bound tdata s := by
    obtain ⟨rfl, rfl⟩ | ⟨rfl, rfl⟩ := hrow <;> rfl
  obtain ⟨hn, -, hmax⟩ := hwf
  have hL : 0 < hi.toNat - lo.toNat := Nat.sub_pos_of_lt hrange
  refine ⟨_, chunkSize s.config.nworkers (hi.toNat - lo.toNat), hexec.trans (startSearch_loads hlen hnoff hrange),
    fun a ha => ?below, fun a ha => ?above, ?tlen, rfl, rfl, rfl, rfl, rfl, rfl, rfl, rfl, rfl, rfl, rfl, ⟨rfl, rfl⟩,
    ⟨rfl, rfl, rfl, rfl, rfl, rfl, rfl⟩, chunkSize_mul_ge _ _ hn, chunkSize_pred_mul_lt _ _ hn hL, ?count,
    fun k w hk => ⟨startWorker s.config.nworkers lo hi k w, ?started, rfl, toNat_ofNat_cutPoint _ k hrange.le,
      toNat_ofNat_cutPoint _ (k + 1) hrange.le, rfl⟩⟩
  case below => rw [loadSearch_tmpl, memByte_load, if_pos ha]
  case above => rw [loadSearch_tmpl, memByte_load, if_neg (Nat.not_lt.mpr ha)]
  case tlen =>
    rw [loadSearch_tlen, BitVec.toNat_ofNat, Nat.mod_eq_of_lt]
    omega
  case count => rw [loadSearch_workers, List.length_mapIdx]
  case started => rw [loadSearch_workers, List.getElem?_mapIdx, hk, Option.map_some]

end Sys2Proof.Machine
end

section
/-! What writes the result slot (43_search.md R256). -/

namespace Sys2Proof.Machine

open Sys2Proof

/-- Every command but SEARCH writes the host hasher and its response, and nothing else. -/
theorem exec_responds_or_search (i : Instr) (s : State) :
    (∃ st p ph c, exec i s = .next (respond st p { s with hphase := ph, hctx := c })) ∨
    ∃ noff lo hi bound tdata, i = .searchLt noff lo hi bound tdata ∨ i = .searchLte noff lo hi bound tdata := by
  cases i with
  | init => exact .inl ⟨_, _, _, _, exec_init s⟩
  | update data =>
    left
    simp only [exec, execUpdate]
    split
    · exact ⟨_, _, s.hphase, s.hctx, rfl⟩
    · exact ⟨_, _, s.hphase, s.hctx, rfl⟩
    · exact ⟨_, _, s.hphase, s.hctx, rfl⟩
    · split
      · exact ⟨_, _, .error, s.hctx, rfl⟩
      · exact ⟨_, _, s.hphase, _, rfl⟩
  | finalize =>
    left
    simp only [exec, execFinalize]
    split
    · exact ⟨_, _, s.hphase, s.hctx, rfl⟩
    · exact ⟨_, _, s.hphase, s.hctx, rfl⟩
    · exact ⟨_, _, s.hphase, s.hctx, rfl⟩
    · exact ⟨_, _, .done, _, rfl⟩
  | hash data =>
    left
    simp only [exec, execHash]
    split
    · exact ⟨_, _, .error, _, rfl⟩
    · exact ⟨_, _, .done, _, rfl⟩
  | compress vin blk => exact .inl ⟨_, _, s.hphase, s.hctx, exec_compress vin blk s⟩
  | status => exact .inl ⟨_, _, s.hphase, s.hctx, exec_status s⟩
  | searchLt noff lo hi bound tdata => exact .inr ⟨noff, lo, hi, bound, tdata, .inl rfl⟩
  | searchLte noff lo hi bound tdata => exact .inr ⟨noff, lo, hi, bound, tdata, .inr rfl⟩

/-- A command's own step keeps the slot, but for a SEARCH that loads, which clears it (43_search.md R242, R256). -/
theorem exec_slot {i : Instr} {s t : State} (h : exec i s = .next t) :
    (t.found = s.found ∧ t.rnonce = s.rnonce) ∨
    ((∃ noff lo hi bound tdata, i = .searchLt noff lo hi bound tdata ∨ i = .searchLte noff lo hi bound tdata) ∧
      t.sphase = .searching ∧ t.found = false ∧ t.rnonce = 0) := by
  obtain ⟨st, p, ph, c, he⟩ | ⟨noff, lo, hi, bound, tdata, hrow⟩ := exec_responds_or_search i s
  · cases he.symm.trans h
    exact .inl ⟨rfl, rfl⟩
  · obtain ⟨m, hexec⟩ := exists_exec_eq_startSearch hrow
    obtain ⟨-, he⟩ | ⟨-, -, -, -, he⟩ := startSearch_cases m noff lo hi bound tdata s <;>
      cases ((hexec s).trans he).symm.trans h
    · exact .inl ⟨rfl, rfl⟩
    · exact .inr ⟨⟨noff, lo, hi, bound, tdata, hrow⟩, rfl, rfl, rfl⟩

/-- `report` into an empty slot writes it (43_search.md R256). -/
theorem report_of_empty {n : DWord} {s : State} (hf : s.found = false) :
    report n s = { s with found := true, rnonce := n } := if_pos hf

/-- `report` into a full slot is discarded (43_search.md R256). -/
theorem report_of_full {n : DWord} {s : State} (hf : s.found = true) : report n s = s := if_neg (by simp [hf])

/-- Settles O32: engine steps keep a full slot, and of the port's steps only the command it takes can write it. -/
theorem resultSlotIsWriteOnce : Obligations.ResultSlotIsWriteOnce := by
  unfold Obligations.ResultSlotIsWriteOnce
  refine ⟨fun n s => report_of_empty, fun n s => report_of_full, fun s t h hf => ?_⟩
  obtain hreset | ⟨es, more, on, rfl⟩ | ⟨es, hhost, hcore⟩ := step_moves h
  · exact .inr (.inl hreset)
  · exact .inl ⟨hf, rfl⟩
  · obtain ⟨-, he⟩ | ⟨-, -, -, rfl⟩ | ⟨-, -, why, rest, -, rfl⟩ | ⟨hready, htx, i, rest, hd, he⟩ := coreStep_cases hcore
    · exact .inl (engineStep_keeps_slot (s := { s with host := es }) he hf)
    · exact .inl ⟨hf, rfl⟩
    · exact .inl ⟨hf, rfl⟩
    · obtain ⟨hfound, hrnonce⟩ | ⟨⟨noff, lo, hi, bound, tdata, hrow⟩, hcleared⟩ := exec_slot he
      · exact .inl ⟨hfound.trans hf, hrnonce⟩
      · refine .inr (.inr ⟨hready, htx, hhost.imp id fun hh => ⟨es, hh⟩, ⟨noff, lo, hi, bound, tdata, rest, ?_⟩, hcleared⟩)
        obtain rfl | rfl := hrow
        · exact .inl hd
        · exact .inr hd

end Sys2Proof.Machine
end

section
/-! No search step reads the host hasher (43_search.md R265): each commutes with a change of the host context. -/

namespace Sys2Proof.Machine

open Sys2Proof

/-- The same machine with another host context. -/
def withHasher (p : HPhase) (c : HashCtx) (s : State) : State := { s with hphase := p, hctx := c }

/-- The same outcome with another host context in the next state. -/
def resultWithHasher (p : HPhase) (c : HashCtx) : Result → Result
  | .next t => .next (withHasher p c t)
  | .fault f => .fault f
  | .refused r => .refused r

@[simp] theorem withHasher_sphase (p : HPhase) (c : HashCtx) (s : State) : (withHasher p c s).sphase = s.sphase := rfl
@[simp] theorem withHasher_bound (p : HPhase) (c : HashCtx) (s : State) : (withHasher p c s).bound = s.bound := rfl
@[simp] theorem withHasher_mode (p : HPhase) (c : HashCtx) (s : State) : (withHasher p c s).mode = s.mode := rfl
@[simp] theorem withHasher_found (p : HPhase) (c : HashCtx) (s : State) : (withHasher p c s).found = s.found := rfl
@[simp] theorem withHasher_outcome (p : HPhase) (c : HashCtx) (s : State) :
    (withHasher p c s).outcome = s.outcome := rfl
@[simp] theorem cand_withHasher (p : HPhase) (c : HashCtx) (s : State) (n : DWord) :
    cand (withHasher p c s) n = cand s n := rfl
@[simp] theorem pickWorker_withHasher (p : HPhase) (c : HashCtx) (s : State) :
    pickWorker (withHasher p c s) = pickWorker s := rfl

/-- `report` writes the slot of the same machine with another host context alike. -/
theorem report_withHasher (p : HPhase) (c : HashCtx) (n : DWord) (s : State) :
    report n (withHasher p c s) = withHasher p c (report n s) := by
  cases hf : s.found
  · rw [report_of_empty hf, report_of_empty (s := withHasher p c s) hf]
    rfl
  · rw [report_of_full hf, report_of_full (s := withHasher p c s) hf]

/-- A worker step takes the same branch whatever the host context is (43_search.md R254, R265). -/
theorem workerStep_withHasher (p : HPhase) (c : HashCtx) (k : Nat) (w : Worker) (s : State) :
    workerStep k w (withHasher p c s) = resultWithHasher p c (workerStep k w s) := by
  simp only [workerStep, withHasher_found, withHasher_mode, withHasher_bound, cand_withHasher, report_withHasher]
  split
  · rfl
  · split
    · rfl
    · split
      · rfl
      · split <;> rfl

theorem searchResponse_withHasher (p : HPhase) (c : HashCtx) (s : State) :
    searchResponse (withHasher p c s) = resultWithHasher p c (searchResponse s) := by
  simp only [searchResponse, withHasher_outcome]
  split <;> rfl

/-- The engine picks the same rule and the same worker whatever the host context is (43_search.md R265). -/
theorem engineStep_withHasher (p : HPhase) (c : HashCtx) (s : State) :
    engineStep (withHasher p c s) = resultWithHasher p c (engineStep s) := by
  simp only [engineStep, withHasher_sphase, pickWorker_withHasher]
  split
  · split
    · exact workerStep_withHasher p c _ _ (useChoice s)
    · rfl
  · exact searchResponse_withHasher p c s
  · rfl

/-- The checks and the load of SEARCH do not depend on the host context (43_search.md R241, R242, R265). -/
theorem startSearch_withHasher (p : HPhase) (c : HashCtx) (m : Mode) (noff : Word) (lo hi : DWord) (bound : U256)
    (tdata : List Byte) (s : State) :
    startSearch m noff lo hi bound tdata (withHasher p c s) =
      resultWithHasher p c (startSearch m noff lo hi bound tdata s) := by
  obtain ⟨hfails, h⟩ | ⟨-, hlen, hnoff, hrange, h⟩ := startSearch_cases m noff lo hi bound tdata s
  · rw [h]
    exact startSearch_rejected (s := withHasher p c s) ((configFails_iff ..).mp hfails)
  · rw [h]
    exact startSearch_loads (s := withHasher p c s) hlen hnoff hrange

/-- Settles O35: both the engine's step and SEARCH's own step commute with a change of the host context, and neither writes
it. -/
theorem searchIgnoresTheHasher : Obligations.SearchIgnoresTheHasher := by
  unfold Obligations.SearchIgnoresTheHasher
  refine ⟨fun s p c hhost hbusy => ?engine, fun s p c i noff lo hi bound tdata hrow => ?command⟩
  case engine =>
    have hstep : step s = engineStep s := step_busy hhost hbusy
    have hother : step (withHasher p c s) = resultWithHasher p c (step s) :=
      (step_busy (s := withHasher p c s) hhost hbusy).trans (hstep ▸ engineStep_withHasher p c s)
    refine ⟨fun t ht => ⟨engineStep_sameHasher (hstep.symm.trans ht), ?_⟩, fun f hf => ?_⟩
    · rw [ht] at hother
      exact hother
    · rw [hf] at hother
      exact hother
  case command =>
    obtain ⟨m, hexec⟩ := exists_exec_eq_startSearch hrow
    obtain ⟨t, ht⟩ := exec_completes i s
    have hstart : startSearch m noff lo hi bound tdata s = .next t := (hexec s).symm.trans ht
    refine ⟨t, ht, startSearch_sameHasher hstart, ?_⟩
    have hother := startSearch_withHasher p c m noff lo hi bound tdata s
    rw [hstart] at hother
    exact (hexec _).trans hother

end Sys2Proof.Machine
end

section
/-! The command stream and the configuration while a SEARCH holds the port (70_reset_and_hazards.md R326, R329). -/

namespace Sys2Proof.Machine

open Sys2Proof

/-- No engine step consumes a byte of the command stream (70_reset_and_hazards.md R326). -/
theorem engineStep_rx {s t : State} (h : engineStep s = .next t) : t.rx = s.rx := by
  obtain ⟨-, w, k, -, hw⟩ | ⟨-, -, rfl⟩ | ⟨-, -, rfl⟩ | ⟨-, -, rfl⟩ := engineStep_cases h
  · obtain ⟨-, -, -, -, -, -, hrx, -⟩ := workerStep_frame hw
    exact hrx.trans (useChoice_rx s)
  · exact endStep_rx s
  · exact respond_rx ..
  · exact respond_rx ..

/-- From a BUSY state only reset takes a byte off the command stream; the host may send more. -/
theorem step_busy_extends_rx {s t : State} (hbusy : s.cmdState = .busy) (h : step s = .next t) :
    (∃ es, s.host = .reset :: es) ∨ ∃ more, t.rx = s.rx ++ more := by
  obtain hreset | ⟨es, more, on, rfl⟩ | ⟨es, hengine⟩ := step_moves_of_busy hbusy h
  · exact .inl hreset
  · exact .inr ⟨more, rfl⟩
  · exact .inr ⟨[], (engineStep_rx hengine).trans (List.append_nil _).symm⟩

/-- Settles O36: a BUSY step that is no reset keeps the configuration and only extends the command stream. -/
theorem configurationIsFixedDuringSearch : Obligations.ConfigurationIsFixedDuringSearch := by
  unfold Obligations.ConfigurationIsFixedDuringSearch
  intro s t hbusy h
  obtain hconfig | hreset := step_busy_sameSearchConfig hbusy h
  · exact (step_busy_extends_rx hbusy h).imp_right fun hrx => ⟨hconfig, hrx⟩
  · exact .inl hreset

end Sys2Proof.Machine
end

section
/-! The reset event (70_reset_and_hazards.md R320, R321). -/

namespace Sys2Proof.Machine

open Sys2Proof

/-- When the host's next event is a reset, the step is `resetCore`, whatever CORE is doing (70_reset_and_hazards.md R321). -/
theorem step_reset {s : State} {es : List HostEvent} (hhost : s.host = .reset :: es) :
    step s = .next (resetCore { s with host := es }) := by
  simp only [step, hhost, hostStep]

/-- Reset stops every worker (70_reset_and_hazards.md R320). -/
theorem resetCore_workers_stop (s : State) : ∀ w ∈ (resetCore s).workers, w.st = .stop := by
  intro w hw
  obtain ⟨k, -, rfl⟩ := List.mem_map.mp hw
  rfl

/-- After reset there is one worker for each of the build's numbers `0 .. NWORKERS - 1`. -/
theorem resetCore_workers_length (s : State) : (resetCore s).workers.length = s.config.nworkers := by
  simp [State.resetOf]

/-- Settles O43: the next state is `resetCore`, which has the reset table's value in every register. -/
theorem resetAtAnyTime : Obligations.ResetAtAnyTime := by
  unfold Obligations.ResetAtAnyTime
  intro s es hhost
  have hstop := resetCore_workers_stop { s with host := es }
  have hlength := resetCore_workers_length { s with host := es }
  exact ⟨_, step_reset hhost, rfl, rfl, rfl, rfl, rfl, rfl, rfl, rfl, rfl, rfl, rfl, rfl, rfl, hstop, hlength, rfl,
    fun _ => rfl⟩

end Sys2Proof.Machine
end

section
/-! The decoder as the encoder's inverse, and the streams that stop inside a frame (30_encoding.md sections 1 to 3). -/

namespace Sys2Proof.Laws

open Sys2Proof

/-- The decoder reads a well-formed command's frame back, and leaves what follows it unread. -/
theorem decode_encode_append {i : Instr} (rest : List Byte) (hwf : i.wf = true) :
    decode (encode i ++ rest) = .command i rest := by
  simp only [decode, encode, List.append_assoc, takeWord_append, classify_headerWord, takeOperands_append i rest hwf]

/-- Bytes that decode to a command are its frame and the rest: the header names the command, and the operands are its own. -/
theorem eq_encode_append_of_decode {bs rest : List Byte} {i : Instr} (h : decode bs = .command i rest) :
    bs = encode i ++ rest ∧ i.wf = true := by
  unfold decode at h
  cases hw : takeWord bs with
  | none => simp [hw] at h
  | some p =>
    obtain ⟨w, operands⟩ := p
    cases hc : classifyHeader w with
    | error why => simp [hw, hc] at h
    | ok hd =>
      cases ho : takeOperands hd operands with
      | none => simp [hw, hc, ho] at h
      | some q =>
        obtain ⟨j, r⟩ := q
        obtain ⟨rfl, rfl⟩ : j = i ∧ r = rest := by simpa [hw, hc, ho] using h
        obtain ⟨hhead, hoperands, hwf⟩ := takeOperands_some ho
        refine ⟨?_, hwf⟩
        rw [takeWord_some hw, headerWord_of_classify hc j hhead, hoperands, encode, List.append_assoc]

/-- A frame cut short is no frame: with the missing bytes behind it, it would decode in two ways. -/
theorem decode_take_encode {i : Instr} {n : Nat} (hwf : i.wf = true) (hn : n < (encode i).length) :
    decode ((encode i).take n) = .incomplete := by
  have hwhole : decode ((encode i).take n ++ (encode i).drop n) = .command i [] := by
    rw [List.take_append_drop, ← List.append_nil (encode i)]
    exact decode_encode_append [] hwf
  cases hd : decode ((encode i).take n) with
  | incomplete => rfl
  | illegal why rest => exact nomatch (decode_illegal_append hd _).symm.trans hwhole
  | command j rest =>
    obtain ⟨hpart, hj⟩ := eq_encode_append_of_decode hd
    rw [hpart, List.append_assoc, decode_encode_append _ hj] at hwhole
    injection hwhole with _ hnil
    have hdrop := congrArg List.length (List.append_eq_nil_iff.mp hnil).2
    simp only [List.length_drop, List.length_nil] at hdrop
    omega

/-- Settles O3: the header comes back by `classify_headerWord`, the operands by `takeOperands_append`. -/
theorem decodeOfEncodeIsTheCommand : Obligations.DecodeOfEncodeIsTheCommand := by
  unfold Obligations.DecodeOfEncodeIsTheCommand
  exact fun i rest hwf => decode_encode_append rest hwf

/-- Settles O4: what the decoder took off the stream, header and operands, is what the encoder writes. -/
theorem decodedBytesAreTheEncoding : Obligations.DecodedBytesAreTheEncoding := by
  unfold Obligations.DecodedBytesAreTheEncoding
  exact fun bs i rest h => eq_encode_append_of_decode h

/-- Settles O7: the decoder evaluates each worked encoding. -/
theorem workedEncodingsDecode : Obligations.WorkedEncodingsDecode := by
  unfold Obligations.WorkedEncodingsDecode
  decide +kernel

end Sys2Proof.Laws
end

section
/-! The port's steps, one lemma for each of its actions, and the host's (20_memory.md R83; 70_reset_and_hazards.md R324, R331). -/

namespace Sys2Proof.Machine

open Sys2Proof Sys2Proof.Laws

/-- A READY port with part of a frame waits for the rest (70_reset_and_hazards.md R324; log 3). -/
theorem coreStep_awaitingFrame {s : State} (hready : s.cmdState = .ready) (htx : s.tx = [])
    (hd : decode s.rx = .incomplete) : coreStep s = .fault .awaitingFrame := by
  have hport : portAction s = .wait .awaitingFrame := by simp only [portAction, htx, hd]
  simp only [coreStep, hready, hport]

/-- A READY port with a response pending waits for the host to accept it (70_reset_and_hazards.md R331; log 3). -/
theorem coreStep_awaitingAcceptance {s : State} (hready : s.cmdState = .ready) (htx : s.tx ≠ [])
    (ha : s.hostAccepts = false) : coreStep s = .fault .awaitingAcceptance := by
  obtain ⟨b, bs, htx⟩ := List.exists_cons_of_ne_nil htx
  have hport : portAction s = .wait .awaitingAcceptance := by simp [portAction, htx, ha]
  simp only [coreStep, hready, hport]

/-- A host that accepts takes the whole pending response (70_reset_and_hazards.md R331; log 11). -/
theorem coreStep_accepts {s : State} (hready : s.cmdState = .ready) (htx : s.tx ≠ []) (ha : s.hostAccepts = true) :
    coreStep s = .next (acceptResponse s) := by
  obtain ⟨b, bs, htx⟩ := List.exists_cons_of_ne_nil htx
  have hport : portAction s = .accept := by simp [portAction, htx, ha]
  simp only [coreStep, hready, hport]

/-- With no host event to come a step is CORE's own. -/
theorem step_quiet {s : State} (hhost : s.host = []) : step s = coreStep s := by
  simp only [step, hhost]

/-- An event that lets CORE run is CORE's own step, but that a wait is no stop (log 2). -/
theorem step_letRun {s : State} {es : List HostEvent} (hhost : s.host = .letRun :: es) :
    step s = orWait { s with host := es } (coreStep { s with host := es }) := by
  simp only [step, hhost, hostStep]

/-- Settles O5: a frame cut short is incomplete, and a port that holds one waits. -/
theorem partOfAFrameWaits : Obligations.PartOfAFrameWaits := by
  unfold Obligations.PartOfAFrameWaits
  intro i n hwf hn
  have hd := decode_take_encode hwf hn
  refine ⟨hd, fun s hhost hready htx hrx => ?_⟩
  exact (step_quiet hhost).trans (coreStep_awaitingFrame hready htx (hrx ▸ hd))

/-- Settles O40: `step_command`, and taking the frame is leaving the bytes after it. -/
theorem stepRunsTheDecodedCommand : Obligations.StepRunsTheDecodedCommand := by
  unfold Obligations.StepRunsTheDecodedCommand
  exact fun s i rest hhost hready htx hd => step_command hhost hready htx hd

/-- Settles O41: a pending response is either accepted or waited for. -/
theorem responseIsAcceptedFirst : Obligations.ResponseIsAcceptedFirst := by
  unfold Obligations.ResponseIsAcceptedFirst
  intro s hhost hready htx
  exact ⟨fun ha => (step_quiet hhost).trans (coreStep_accepts hready htx ha),
    fun ha => (step_quiet hhost).trans (coreStep_awaitingAcceptance hready htx ha)⟩

/-- Settles O44: the next state is `resetCore`, which keeps the build, the host's side and the scheduler's. -/
theorem resetKeepsTheHostSide : Obligations.ResetKeepsTheHostSide := by
  unfold Obligations.ResetKeepsTheHostSide
  intro s es hhost
  exact ⟨_, step_reset hhost, rfl, fun _ => rfl, rfl, rfl, rfl, rfl, rfl, rfl⟩

/-- Settles O45: each host event is its own branch of the step; under `letRun` CORE's move is kept and its two waits change
nothing. -/
theorem hostActsOnThePortOnly : Obligations.HostActsOnThePortOnly := by
  unfold Obligations.HostActsOnThePortOnly
  intro s es
  refine ⟨fun b hhost => ?send, fun on hhost => ?accepting, fun hhost t ht => ?move, fun hhost hready htx hd => ?frame,
    fun hhost hready htx ha => ?acceptance⟩
  case send => simp only [step, hhost, hostStep]
  case accepting => simp only [step, hhost, hostStep]
  case move => rw [step_letRun hhost, ht, orWait]
  case frame => rw [step_letRun hhost, coreStep_awaitingFrame (s := { s with host := es }) hready htx hd, orWait]
  case acceptance =>
    rw [step_letRun hhost, coreStep_awaitingAcceptance (s := { s with host := es }) hready htx ha, orWait]

end Sys2Proof.Machine
end

section
/-! The digest integer by words, the comparator's corners, and the rotation by bits (40_codec.md R147; 43_search.md section 2;
00_scope.md R11). -/

namespace Sys2Proof.Laws

open Sys2Proof Sys2Proof.Machine

/-! ### The digest integer -/

/-- A sum over 32 bytes, grouped in eight words of four. -/
theorem sum_bytes_eq_sum_words (f : Fin 32 → Nat) :
    ∑ i, f i = ∑ k : Fin 8, ∑ j : Fin 4, f ⟨4 * k.val + j.val, by omega⟩ := by
  rw [← (finProdFinEquiv (m := 8) (n := 4)).sum_comp f, Fintype.sum_prod_type]
  exact Finset.sum_congr rfl fun k _ => Finset.sum_congr rfl fun j _ => congrArg f (Fin.ext (Nat.add_comm ..))

/-- Byte `j` of word `k` weighs in the digest what it weighs in its word, times the word's own weight. -/
theorem byteWeight_eq (k : Fin 8) (j : Fin 4) :
    256 ^ (31 - (4 * k.val + j.val)) = 2 ^ (8 * (3 - j.val)) * 2 ^ (32 * (7 - k.val)) := by
  rw [show (256 : Nat) = 2 ^ 8 by rfl, ← pow_mul, ← pow_add]
  congr 1
  omega

/-- The digest's integer is the sum of its weighted big-endian words, the first the most significant (40_codec.md R147). -/
theorem u256_toNat_eq_sum_words (d : Digest) :
    (u256 d).toNat = ∑ k : Fin 8, (bytesToWordsBE (k := 8) d)[k].toNat * 2 ^ (32 * (7 - k.val)) := by
  rw [u256_toNat_eq_sum, sum_bytes_eq_sum_words]
  refine Finset.sum_congr rfl fun k _ => ?_
  have hword : (bytesToWordsBE (k := 8) d)[k] =
      be32 #v[d[4 * k.val], d[4 * k.val + 1], d[4 * k.val + 2], d[4 * k.val + 3]] := by
    simp [bytesToWordsBE]
  have hbytes : (bytesToWordsBE (k := 8) d)[k].toNat =
      ∑ j : Fin 4, (d[4 * k.val + j.val]'(by omega)).toNat * 2 ^ (8 * (3 - j.val)) := by
    rw [hword, be32_toNat, Fin.sum_univ_four]
    simp
  rw [hbytes, Finset.sum_mul]
  simp only [byteWeight_eq, ← mul_assoc, Fin.getElem_fin]

/-- Settles O2: the sum by bytes, and the same sum grouped in words. -/
theorem digestIntegerIsBigEndian : Obligations.DigestIntegerIsBigEndian := by
  unfold Obligations.DigestIntegerIsBigEndian
  exact fun d => ⟨u256_toNat_eq_sum d, u256_toNat_eq_sum_words d⟩

/-! ### The comparator -/

/-- A digest is determined by its integer. -/
theorem u256_inj {d e : Digest} : u256 d = u256 e ↔ d = e :=
  ⟨fun h => by rw [← enc256_u256 d, h, enc256_u256], congrArg u256⟩

theorem u256_zeros : u256 (Vector.replicate 32 0x00) = 0 := by decide +kernel

theorem u256_ones : u256 (Vector.replicate 32 0xff) = BitVec.allOnes 256 := by decide +kernel

/-- Settles O29: the comparisons at the least and the greatest boundary are equations of the digest's integer. -/
theorem comparatorCorners : Obligations.ComparatorCorners := by
  unfold Obligations.ComparatorCorners
  intro d
  refine ⟨?never, ?zero, ?allLte, ?allLt, (qualifies_lte_iff _ _).mpr le_rfl,
    ?self⟩
  case never => exact Bool.eq_false_iff.mpr ((qualifies_lt_iff _ _).not.mpr (Nat.not_lt_zero _))
  case self => exact Bool.eq_false_iff.mpr ((qualifies_lt_iff _ _).not.mpr (lt_irrefl _))
  case zero =>
    rw [qualifies_lte_iff, ← u256_inj, u256_zeros, ← BitVec.le_def]
    exact BitVec.le_zero_iff
  case allLte => exact (qualifies_lte_iff _ _).mpr (BitVec.le_def.mp (BitVec.not_lt.mp BitVec.not_allOnes_lt))
  case allLt => rw [qualifies_lt_iff, ne_eq, ← u256_inj, u256_ones, ← BitVec.lt_def, BitVec.lt_allOnes_iff]

/-! ### The rotation -/

/-- Settles O8: below `n mod 32` the bit comes from the part shifted right, from there on from the part shifted left. -/
theorem rotationIsModulo32 : Obligations.RotationIsModulo32 := by
  unfold Obligations.RotationIsModulo32
  intro x n i hi
  have hlt : n % 32 < 32 := Nat.mod_lt _ (by decide)
  simp only [rotl, BitVec.getLsbD_or, BitVec.getLsbD_shiftLeft, BitVec.getLsbD_ushiftRight]
  by_cases h : i < n % 32
  · rw [Nat.mod_eq_of_lt (show i + (32 - n % 32) < 32 by omega), Nat.add_comm i]
    simp [h]
  · rw [show (i + (32 - n % 32)) % 32 = i - n % 32 by omega, BitVec.getLsbD_of_ge x _ (show 32 ≤ 32 - n % 32 + i by omega)]
    simp [h, hi]

end Sys2Proof.Laws
end

section
/-! What UPDATE, FINALIZE and HASH do to a context, and each command's own step, phase by phase (42_hasher.md R204, R210,
R216). -/

namespace Sys2Proof.Machine

open Sys2Proof Sys2Proof.Laws

/-! ### The context after UPDATE, FINALIZE and HASH -/

/-- The context UPDATE leaves in ACTIVE under the cap: the data absorbed and counted (42_hasher.md R204). -/
def HashCtx.update (c : HashCtx) (data : List Byte) : HashCtx :=
  { c.absorbAll data with len := c.len + BitVec.ofNat 64 data.length }

/-- Under the cap `LEN` counts the bytes (42_hasher.md R207). -/
theorem HashCtx.toNat_update_len {c : HashCtx} {data : List Byte} (h : c.len.toNat + data.length ≤ LEN_CAP) :
    (c.update data).len.toNat = c.len.toNat + data.length := by
  simp only [LEN_CAP] at h
  simp only [HashCtx.update, BitVec.toNat_add, BitVec.toNat_ofNat]
  omega

/-- UPDATE extends the message the context holds (42_hasher.md R204, R206). -/
theorem HashCtx.Holds.update {c : HashCtx} {m data : List Byte} (h : c.Holds m) (hcap : m.length + data.length ≤ LEN_CAP) :
    (c.update data).Holds (m ++ data) := by
  rw [← h.len_eq] at hcap
  exact h.absorbAll data _ ((HashCtx.toNat_update_len hcap).trans (by rw [h.len_eq]))

/-- HASH's context is the one INIT, UPDATE and FINALIZE leave (42_hasher.md R216). -/
theorem HashCtx.hashAll_eq_finish_update_init (c : HashCtx) (data : List Byte) :
    c.hashAll data = (c.init.update data).finish := by
  have hlen : c.init.len + BitVec.ofNat 64 data.length = BitVec.ofNat 64 data.length := BitVec.zero_add _
  rw [HashCtx.hashAll, HashCtx.update, hlen]

/-- HASH leaves the message's length (42_hasher.md R216). -/
theorem HashCtx.toNat_hashAll_len (c : HashCtx) {data : List Byte} (h : data.length ≤ LEN_CAP) :
    (c.hashAll data).len.toNat = data.length := by
  rw [HashCtx.hashAll_eq_finish_update_init, HashCtx.finish_len,
    HashCtx.toNat_update_len (h.trans' (Nat.zero_add _).le)]
  exact Nat.zero_add _

/-! ### What a command leaves alone -/

/-- Reflexivity, which by definition also relates `s` to a machine whose search registers are the same terms. -/
theorem sameSearch_refl (s : State) : SameSearch s s := ⟨⟨rfl, rfl, rfl, rfl, rfl, rfl, rfl⟩, ⟨rfl, rfl, rfl⟩, rfl, rfl⟩

/-- As `sameSearch_refl`, for what stands outside CORE's registers. -/
theorem sameOutside_refl (s : State) : SameOutside s s := ⟨rfl, rfl, rfl, rfl, rfl, rfl, rfl⟩

/-! ### The commands -/

/-- Everything UPDATE can do (42_hasher.md R204): a phase check fails, the cap check fails, or the data is absorbed. -/
theorem exec_update_cases (data : List Byte) (s : State) :
    ((s.hphase = .idle ∨ s.hphase = .done) ∧ exec (.update data) s = .next (respond .misuse [] s)) ∨
    (s.hphase = .error ∧ exec (.update data) s = .next (respond .inputTooLarge [] s)) ∨
    (s.hphase = .active ∧ LEN_CAP < s.hctx.len.toNat + data.length ∧
      exec (.update data) s = .next (respond .inputTooLarge [] { s with hphase := .error })) ∨
    (s.hphase = .active ∧ s.hctx.len.toNat + data.length ≤ LEN_CAP ∧
      exec (.update data) s = .next (respond .ok [] { s with hctx := s.hctx.update data })) := by
  obtain ⟨p, hp⟩ : ∃ p, s.hphase = p := ⟨_, rfl⟩
  cases p with
  | idle => exact .inl ⟨.inl hp, exec_misuse (.inl hp) (.inr ⟨data, rfl⟩)⟩
  | done => exact .inl ⟨.inr hp, exec_misuse (.inr hp) (.inr ⟨data, rfl⟩)⟩
  | error => exact .inr (.inl ⟨hp, exec_inputTooLarge_of_error hp (.inr ⟨data, rfl⟩)⟩)
  | active =>
    by_cases hcap : LEN_CAP < s.hctx.len.toNat + data.length
    · exact .inr (.inr (.inl ⟨hp, hcap, exec_update_overCap hp hcap⟩))
    · exact .inr (.inr (.inr ⟨hp, Nat.not_lt.mp hcap, execUpdate_active data s hp (Nat.not_lt.mp hcap)⟩))

/-- Everything FINALIZE can do (42_hasher.md R210): a phase check fails, or the digest is answered. -/
theorem exec_finalize_cases (s : State) :
    ((s.hphase = .idle ∨ s.hphase = .done) ∧ exec .finalize s = .next (respond .misuse [] s)) ∨
    (s.hphase = .error ∧ exec .finalize s = .next (respond .inputTooLarge [] s)) ∨
    (s.hphase = .active ∧ exec .finalize s =
      .next (respond .ok (digestOf s.hctx.finish.v).toList { s with hctx := s.hctx.finish, hphase := .done })) := by
  cases hp : s.hphase with
  | idle => exact .inl ⟨.inl rfl, exec_misuse (.inl hp) (.inl rfl)⟩
  | done => exact .inl ⟨.inr rfl, exec_misuse (.inr hp) (.inl rfl)⟩
  | error => exact .inr (.inl ⟨rfl, exec_inputTooLarge_of_error hp (.inl rfl)⟩)
  | active => exact .inr (.inr ⟨rfl, execFinalize_active s hp⟩)

/-- HASH under the cap (42_hasher.md R216). -/
theorem exec_hash_fits {data : List Byte} (s : State) (hcap : data.length ≤ LEN_CAP) : exec (.hash data) s =
    .next (respond .ok (digestOf (s.hctx.hashAll data).v).toList { s with hctx := s.hctx.hashAll data, hphase := .done }) :=
  if_neg (Nat.not_lt.mpr hcap)

/-- HASH over the cap leaves a re-initialised context in ERROR (42_hasher.md R216). -/
theorem exec_hash_overCap {data : List Byte} (s : State) (hcap : LEN_CAP < data.length) :
    exec (.hash data) s = .next (respond .inputTooLarge [] { s with hctx := s.hctx.init, hphase := .error }) :=
  if_pos hcap

/-! ### UPDATE, FINALIZE and HASH complete -/

/-- Settles O13: the stream's blocks are `absorbAll_spec`, the bytes of `BUF` `absorbAll_buf`. -/
theorem updateAbsorbs : Obligations.UpdateAbsorbs := by
  unfold Obligations.UpdateAbsorbs
  intro data s hp hcap stream q
  obtain ⟨hv, hfill, -⟩ := HashCtx.absorbAll_spec data s.hctx
  refine ⟨_, execUpdate_active data s hp hcap, ⟨respond_tx .., respond_cmdState ..⟩, hp, HashCtx.toNat_update_len hcap,
    hfill, hv, fun i => ?bytes, sameSearch_refl s, sameOutside_refl s⟩
  case bytes => exact hfill ▸ HashCtx.absorbAll_buf data s.hctx i

/-- Settles O17: `finish_one` and `finish_two` give the padded blocks, and under the cap the length field is the bit length. -/
theorem finalizeCompletes : Obligations.FinalizeCompletes := by
  unfold Obligations.FinalizeCompletes
  refine ⟨by decide, fun s hp hcap => ?_⟩
  intro bytes field
  have hbitlen := s.hctx.bitlen_eq _ rfl hcap
  have hsmall : 8 * s.hctx.len.toNat < 2 ^ 32 := by
    simp only [LEN_CAP] at hcap
    omega
  refine ⟨_, execFinalize_active s hp, ⟨respond_tx .., respond_cmdState ..⟩, respond_hphase .., rfl,
    s.hctx.finish_len, sameSearch_refl s, sameOutside_refl s, (enc64_small _ hsmall).symm,
    fun hfill => ?one, fun hfill => ?two⟩
  case one =>
    obtain ⟨hbuf, hv, -⟩ := s.hctx.finish_one hfill
    rw [hbitlen, List.append_assoc _ (zeros 4)] at hbuf
    exact ⟨hbuf, hv⟩
  case two =>
    obtain ⟨first, hfirst, hbuf, hv, -⟩ := s.hctx.finish_two hfill
    rw [hbitlen, List.append_assoc] at hbuf
    exact ⟨first, hfirst, hbuf, hv⟩

/-- Settles O18: under the cap any context answers `SM3` (`digest_hashAll`); over it the context is re-initialised. -/
theorem hashCompletes : Obligations.HashCompletes := by
  unfold Obligations.HashCompletes
  refine fun data s => ⟨fun hcap => ?fits, fun hcap => ?overCap⟩
  case fits =>
    have hdigest := s.hctx.digest_hashAll data hcap
    refine ⟨_, exec_hash_fits s hcap, ⟨?response, respond_cmdState ..⟩, respond_hphase .., s.hctx.toNat_hashAll_len hcap, rfl,
      hdigest, sameSearch_refl s, sameOutside_refl s⟩
    case response =>
      rw [respond_tx, hdigest]
      rfl
  case overCap =>
    exact ⟨_, exec_hash_overCap s hcap, ⟨respond_tx .., respond_cmdState ..⟩, respond_hphase .., respond_hctx ..,
      sameSearch_refl s, sameOutside_refl s⟩

/-- Settles O20: the padding's zeros and the high half of the length field are `enc64` of the bit length, and the number of
zeros fills the last block. -/
theorem paddingShape : Obligations.PaddingShape := by
  unfold Obligations.PaddingShape
  intro m hcap
  simp only [LEN_CAP] at hcap
  refine ⟨⟨padZeros m.length, Nat.mod_lt _ (by decide), ?_⟩, ?_⟩
  · rw [enc64_small _ (by omega), pad, zeros, List.append_assoc _ (zeros 4)]
  · rw [length_pad, padZeros]
    split_ifs <;> omega

/-! ### The phase table and the responses -/

/-- A status byte alone is the whole response, and leaves the host hasher as it was (60_exceptions.md R298). -/
theorem respond_refuses (st : Status) (s : State) :
    Responds s (respond st [] s) [st.code] ∧ SameHasher s (respond st [] s) :=
  ⟨⟨respond_tx .., respond_cmdState ..⟩, respond_sameHasher ..⟩

/-- Settles O23: each command's cases, phase by phase. -/
theorem phaseTable : Obligations.PhaseTable := by
  unfold Obligations.PhaseTable
  intro i s
  cases i with
  | init => exact ⟨_, exec_init s, rfl, rfl, rfl, rfl, respond_tx .., respond_cmdState ..⟩
  | update data =>
    obtain ⟨hp | hp, e⟩ | ⟨hp, e⟩ | ⟨hp, hcap, e⟩ | ⟨hp, hcap, e⟩ := exec_update_cases data s <;>
      refine ⟨_, e, ?_⟩ <;> simp only [hp]
    · exact respond_refuses .misuse s
    · exact respond_refuses .misuse s
    · exact respond_refuses .inputTooLarge s
    · rw [if_neg (Nat.not_le.mpr hcap)]
      exact ⟨⟨respond_tx .., respond_cmdState ..⟩, respond_hphase .., respond_hctx ..⟩
    · rw [if_pos hcap]
      exact ⟨⟨respond_tx .., respond_cmdState ..⟩, rfl, HashCtx.toNat_update_len hcap⟩
  | finalize =>
    obtain ⟨hp | hp, e⟩ | ⟨hp, e⟩ | ⟨hp, e⟩ := exec_finalize_cases s <;> refine ⟨_, e, ?_⟩ <;> simp only [hp]
    · exact respond_refuses .misuse s
    · exact respond_refuses .misuse s
    · exact respond_refuses .inputTooLarge s
    · exact ⟨⟨respond_tx .., respond_cmdState ..⟩, respond_hphase ..⟩
  | hash data =>
    obtain hcap | hcap := Nat.lt_or_ge LEN_CAP data.length
    · exact ⟨_, exec_hash_overCap s hcap, (if_neg (Nat.not_le.mpr hcap)).symm⟩
    · exact ⟨_, exec_hash_fits s hcap, (if_pos hcap).symm⟩
  | compress vin blk => exact ⟨_, exec_compress vin blk s, respond_sameHasher ..⟩
  | status => exact ⟨_, exec_status s, respond_sameHasher ..⟩
  | searchLt noff lo hi bound tdata =>
    obtain ⟨t, ht⟩ := exec_completes (.searchLt noff lo hi bound tdata) s
    exact ⟨t, ht, startSearch_sameHasher ht⟩
  | searchLte noff lo hi bound tdata =>
    obtain ⟨t, ht⟩ := exec_completes (.searchLte noff lo hi bound tdata) s
    exact ⟨t, ht, startSearch_sameHasher ht⟩

/-- SEARCH's own step sends `CONFIG_ERROR` and no more, or nothing yet (43_search.md R241, R242). -/
theorem startSearch_response (m : Mode) (noff : Word) (lo hi : DWord) (bound : U256) (tdata : List Byte) (s : State) :
    ∃ t response, startSearch m noff lo hi bound tdata s = .next t ∧ t.tx = s.tx ++ response ∧
      (response = [0x03] ∨ (response = [] ∧ t.cmdState = .busy)) := by
  obtain ⟨-, e⟩ | ⟨-, -, -, -, e⟩ := startSearch_cases m noff lo hi bound tdata s
  · exact ⟨_, _, e, respond_tx .., .inl rfl⟩
  · exact ⟨_, [], e, (List.append_nil _).symm, .inr ⟨rfl, rfl⟩⟩

/-- Settles O42: each command's cases, with the length of the payload of its row. -/
theorem responseFrames : Obligations.ResponseFrames := by
  unfold Obligations.ResponseFrames
  intro i s
  cases i with
  | init => exact ⟨_, _, exec_init s, respond_tx .., rfl⟩
  | update data =>
    obtain ⟨-, e⟩ | ⟨-, e⟩ | ⟨-, -, e⟩ | ⟨-, -, e⟩ := exec_update_cases data s <;> refine ⟨_, _, e, respond_tx .., ?_⟩
    · exact .inr (.inr rfl)
    · exact .inr (.inl rfl)
    · exact .inr (.inl rfl)
    · exact .inl rfl
  | finalize =>
    obtain ⟨-, e⟩ | ⟨-, e⟩ | ⟨-, e⟩ := exec_finalize_cases s <;> refine ⟨_, _, e, respond_tx .., ?_⟩
    · exact .inr (.inr rfl)
    · exact .inr (.inl rfl)
    · exact .inl ⟨_, rfl, Vector.length_toList⟩
  | hash data =>
    obtain hcap | hcap := Nat.lt_or_ge LEN_CAP data.length
    · exact ⟨_, _, exec_hash_overCap s hcap, respond_tx .., .inr rfl⟩
    · exact ⟨_, _, exec_hash_fits s hcap, respond_tx .., .inl ⟨_, rfl, Vector.length_toList⟩⟩
  | compress vin blk => exact ⟨_, _, exec_compress vin blk s, respond_tx .., _, rfl, Vector.length_toList⟩
  | status => exact ⟨_, _, exec_status s, respond_tx .., _, rfl, by simp⟩
  | searchLt noff lo hi bound tdata => exact startSearch_response .lt noff lo hi bound tdata s
  | searchLte noff lo hi bound tdata => exact startSearch_response .lte noff lo hi bound tdata s

end Sys2Proof.Machine
end

section
/-! A message streamed into the hasher, and HASH as the whole stream at once (42_hasher.md sections 6 and 7). -/

namespace Sys2Proof.Machine

open Sys2Proof

/-- `s` while a message is being streamed: the live context `c`, and the response stream so far. -/
def streaming (s : State) (c : HashCtx) (tx : List Byte) : State :=
  { s with hphase := .active, hctx := c, tx := tx, cmdState := .ready }

/-- `s` after the stream's FINALIZE. -/
def streamed (s : State) (c : HashCtx) (tx : List Byte) : State :=
  { s with hphase := .done, hctx := c, tx := tx, cmdState := .ready }

/-- INIT begins a stream. -/
theorem exec_init_streaming (s : State) : exec .init s = .next (streaming s s.hctx.init (s.tx ++ [0x00])) := rfl

/-- FINALIZE ends it. -/
theorem exec_finalize_streaming (s : State) (c : HashCtx) (tx : List Byte) : exec .finalize (streaming s c tx) =
    .next (streamed s c.finish (tx ++ 0x00 :: (digestOf c.finish.v).toList)) := rfl

/-- UPDATE under the cap takes the stream on. -/
theorem exec_update_streaming (s : State) (c : HashCtx) (tx data : List Byte) (hcap : c.len.toNat + data.length ≤ LEN_CAP) :
    exec (.update data) (streaming s c tx) = .next (streaming s (c.update data) (tx ++ [0x00])) :=
  execUpdate_active data (streaming s c tx) rfl hcap

/-- A command that may stand between INIT and FINALIZE without ending the message (42_hasher.md section 7). -/
abbrev Streams (i : Instr) : Prop := i = .status ∨ (∃ v b, i = .compress v b) ∨ ∃ d, i = .update d

/-- Such a command extends the message by its data, and an UPDATE answers `OK` alone. -/
theorem exec_streams {i : Instr} (hi : Streams i) (s : State) {c : HashCtx} {m : List Byte} (tx : List Byte) (hm : c.Holds m)
    (hcap : m.length + (updateData i).length ≤ LEN_CAP) :
    ∃ d response, exec i (streaming s c tx) = .next (streaming s d (tx ++ response)) ∧ d.Holds (m ++ updateData i) ∧
      ((∃ data, i = .update data) → response = [0x00]) := by
  obtain rfl | ⟨vin, blk, rfl⟩ | ⟨data, rfl⟩ := hi
  · exact ⟨c, _, exec_status _, (List.append_nil m).symm ▸ hm, fun ⟨_, h⟩ => nomatch h⟩
  · exact ⟨c, _, exec_compress vin blk _, (List.append_nil m).symm ▸ hm, fun ⟨_, h⟩ => nomatch h⟩
  · exact ⟨c.update data, [0x00], exec_update_streaming s c tx data (hm.len_eq ▸ hcap), hm.update hcap, fun _ => rfl⟩

/-- The whole sequence extends the message by all its data, in order. -/
theorem execAll_streams (s : State) : ∀ (cmds : List Instr) {c : HashCtx} {m : List Byte} (tx : List Byte),
    (∀ i ∈ cmds, Streams i) → c.Holds m → m.length + (cmds.map updateData).flatten.length ≤ LEN_CAP →
    ∃ d responses, (∀ cmds', execAll (cmds ++ cmds') (streaming s c tx) = execAll cmds' (streaming s d (tx ++ responses))) ∧
      d.Holds (m ++ (cmds.map updateData).flatten) ∧
      ((∀ i ∈ cmds, ∃ data, i = .update data) → responses = List.replicate cmds.length 0x00)
  | [], c, m, tx, _, hm, _ => ⟨c, [], fun _ => by rw [List.append_nil, List.nil_append], by simpa using hm, fun _ => rfl⟩
  | i :: cmds, c, m, tx, hstreams, hm, hcap => by
    simp only [List.map_cons, List.flatten_cons, List.length_append] at hcap
    obtain ⟨hi, hcmds⟩ := List.forall_mem_cons.mp hstreams
    obtain ⟨d, response, hexec, hd, hupdate⟩ := exec_streams hi s tx hm (by omega)
    obtain ⟨e, responses, hrun, he, hupdates⟩ := execAll_streams s cmds (tx ++ response) hcmds hd
      (by rw [List.length_append]; omega)
    refine ⟨e, response ++ responses, fun cmds' => ?_, ?_, fun hall => ?_⟩
    · rw [List.cons_append, execAll, hexec]
      exact (hrun cmds').trans (by rw [List.append_assoc])
    · rwa [List.map_cons, List.flatten_cons, ← List.append_assoc]
    · obtain ⟨hfirst, hrest⟩ := List.forall_mem_cons.mp hall
      rw [hupdate hfirst, hupdates hrest]
      rfl

/-- INIT, a stream and FINALIZE end with the digest of the whole message (42_hasher.md section 7). -/
theorem execAll_stream (cmds : List Instr) (s : State) (hstreams : ∀ i ∈ cmds, Streams i)
    (hcap : (cmds.map updateData).flatten.length ≤ LEN_CAP) :
    ∃ c responses, execAll ([.init] ++ cmds ++ [.finalize]) s = .next (streamed s c
        (s.tx ++ [0x00] ++ responses ++ 0x00 :: (sm3 (cmds.map updateData).flatten).toList)) ∧
      c.len.toNat = (cmds.map updateData).flatten.length ∧
      ((∀ i ∈ cmds, ∃ data, i = .update data) → responses = List.replicate cmds.length 0x00) := by
  obtain ⟨c, responses, hrun, hc, hupdates⟩ :=
    execAll_streams s cmds (s.tx ++ [0x00]) hstreams s.hctx.holds_init (by simpa using hcap)
  rw [List.nil_append] at hc
  refine ⟨c.finish, responses, ?_, by rw [HashCtx.finish_len, hc.len_eq], hupdates⟩
  rw [List.append_assoc, List.singleton_append, execAll, exec_init_streaming]
  refine (hrun [.finalize]).trans ?_
  rw [execAll, exec_finalize_streaming, hc.finish hcap]
  rfl

/-- Settles O21: `execAll_stream`, with UPDATEs alone as its special case. -/
theorem streamingEquivalence : Obligations.StreamingEquivalence := by
  unfold Obligations.StreamingEquivalence
  refine ⟨fun cmds s hstreams => ?mixed, fun chunks s hcap => ?updates⟩
  case mixed =>
    intro message hcap
    obtain ⟨c, responses, hrun, hlen, -⟩ := execAll_stream cmds s hstreams hcap
    exact ⟨_, _, hrun, rfl, rfl, hlen, sameSearch_refl s, sameOutside_refl s⟩
  case updates =>
    have hdata : (chunks.map Instr.update).map updateData = chunks := by simp [Function.comp_def, updateData]
    have hall : ∀ i ∈ chunks.map Instr.update, ∃ data, i = .update data := by
      intro i hi
      obtain ⟨data, -, rfl⟩ := List.mem_map.mp hi
      exact ⟨data, rfl⟩
    obtain ⟨c, responses, hrun, -, hresponses⟩ :=
      execAll_stream (chunks.map .update) s (fun i hi => .inr (.inr (hall i hi))) (hdata.symm ▸ hcap)
    rw [hdata, hresponses hall, List.length_map] at hrun
    exact ⟨_, hrun, rfl⟩

/-- Settles O19: HASH's context is the one the three commands leave, by `hashAll_eq_finish_update_init`. -/
theorem hashIsInitUpdateFinalize : Obligations.HashIsInitUpdateFinalize := by
  unfold Obligations.HashIsInitUpdateFinalize
  intro data s hcap
  have hupdate := exec_update_streaming s s.hctx.init (s.tx ++ [0x00]) data (by simpa [HashCtx.init] using hcap)
  have hstream : execAll [.init, .update data, .finalize] s =
      .next (streamed s (s.hctx.hashAll data) (s.tx ++ [0x00] ++ [0x00] ++ 0x00 :: (digestOf (s.hctx.hashAll data).v).toList)) := by
    rw [HashCtx.hashAll_eq_finish_update_init]
    simp only [execAll, exec_init_streaming, hupdate, exec_finalize_streaming]
  refine ⟨_, _, (digestOf (s.hctx.hashAll data).v).toList, exec_hash_fits s hcap, hstream,
    ⟨respond_tx .., respond_cmdState ..⟩, ⟨by simp [streamed], rfl⟩, Vector.length_toList, ⟨rfl, rfl⟩,
    sameSearch_refl s, sameOutside_refl s⟩

end Sys2Proof.Machine
end

section
/-! No command reads a stale byte of `BUF` (10_state.md R37): two machines that differ in those alone stay so. -/

namespace Sys2Proof.Machine

open Sys2Proof

/-- Contexts that differ in stale bytes alone differ in `BUF` alone. -/
theorem HashCtx.Agree.eq_with_buf {c d : HashCtx} (h : HashCtx.Agree c d) : d = { c with buf := d.buf } := by
  obtain ⟨hv, hfill, hlen, -⟩ := h
  cases d
  cases hv
  cases hfill
  cases hlen
  rfl

/-- The bytes below `FILL` are the partial block. -/
theorem HashCtx.agree_of_bytes {c : HashCtx} {buf : Block} (h : ∀ j : Fin 64, j.val < c.fill.val → buf[j] = c.buf[j]) :
    HashCtx.Agree c { c with buf := buf } := by
  refine ⟨rfl, rfl, rfl, List.ext_getElem (by simp) fun j hj hj' => ?_⟩
  have hfill : j < c.fill.val := by simpa using hj'
  simpa using h ⟨j, by omega⟩ hfill

theorem HashCtx.Agree.getElem_eq {c d : HashCtx} (h : HashCtx.Agree c d) (j : Fin 64) (hj : j.val < c.fill.val) :
    d.buf[j] = c.buf[j] := by
  have hbytes := congrArg (·[j.val]?) h.bytes
  simpa [HashCtx.partialBytes, h.fill, hj] using hbytes

theorem HashCtx.Agree.init {c d : HashCtx} : HashCtx.Agree c.init d.init := ⟨rfl, rfl, rfl, rfl⟩

theorem HashCtx.Agree.update {c d : HashCtx} (h : HashCtx.Agree c d) (data : List Byte) :
    HashCtx.Agree (c.update data) (d.update data) := by
  obtain ⟨hv, hfill, -, hbytes⟩ := HashCtx.Agree.absorbAll data h
  exact ⟨hv, hfill, congrArg (· + BitVec.ofNat 64 data.length) h.len, hbytes⟩

/-- The digest bytes of two contexts that agree are the same. -/
theorem HashCtx.Agree.digestOf_eq {c d : HashCtx} (h : HashCtx.Agree c d) : digestOf d.v = digestOf c.v :=
  congrArg digestOf h.v

/-- SEARCH's own step does not look at the host context (43_search.md R265). -/
theorem startSearch_agree (m : Mode) (noff : Word) (lo hi : DWord) (bound : U256) (tdata : List Byte) (s : State) {d : HashCtx}
    (h : HashCtx.Agree s.hctx d) : ∃ t d', startSearch m noff lo hi bound tdata s = .next t ∧
      startSearch m noff lo hi bound tdata { s with hctx := d } = .next { t with hctx := d' } ∧ HashCtx.Agree t.hctx d' := by
  have hother := startSearch_withHasher s.hphase d m noff lo hi bound tdata s
  obtain ⟨-, e⟩ | ⟨-, -, -, -, e⟩ := startSearch_cases m noff lo hi bound tdata s <;>
    rw [e] at hother <;> exact ⟨_, d, e, hother, h⟩

/-- Every command does the same from two host contexts that agree, and leaves two that agree: each branch of the command is
chosen by registers that agree, and each context operation keeps the agreement. -/
theorem exec_agree (i : Instr) (s : State) {d : HashCtx} (h : HashCtx.Agree s.hctx d) :
    ∃ t d', exec i s = .next t ∧ exec i { s with hctx := d } = .next { t with hctx := d' } ∧ HashCtx.Agree t.hctx d' := by
  cases i with
  | init => exact ⟨_, d.init, exec_init s, exec_init { s with hctx := d }, .init⟩
  | update data =>
    have hlen : d.len.toNat = s.hctx.len.toNat := congrArg BitVec.toNat h.len
    obtain ⟨hp, e⟩ | ⟨hp, e⟩ | ⟨hp, hcap, e⟩ | ⟨hp, hcap, e⟩ := exec_update_cases data s
    · exact ⟨_, d, e, exec_misuse (s := { s with hctx := d }) hp (.inr ⟨data, rfl⟩), h⟩
    · exact ⟨_, d, e, exec_inputTooLarge_of_error (s := { s with hctx := d }) hp (.inr ⟨data, rfl⟩), h⟩
    · exact ⟨_, d, e, exec_update_overCap (s := { s with hctx := d }) hp (hlen ▸ hcap), h⟩
    · exact ⟨_, d.update data, e, execUpdate_active data { s with hctx := d } hp (hlen ▸ hcap), h.update data⟩
  | finalize =>
    obtain ⟨hp, e⟩ | ⟨hp, e⟩ | ⟨hp, e⟩ := exec_finalize_cases s
    · exact ⟨_, d, e, exec_misuse (s := { s with hctx := d }) hp (.inl rfl), h⟩
    · exact ⟨_, d, e, exec_inputTooLarge_of_error (s := { s with hctx := d }) hp (.inl rfl), h⟩
    · refine ⟨_, d.finish, e, ?_, h.finish⟩
      rw [← h.finish.digestOf_eq]
      exact execFinalize_active { s with hctx := d } hp
  | hash data =>
    obtain hcap | hcap := Nat.lt_or_ge LEN_CAP data.length
    · exact ⟨_, d.init, exec_hash_overCap s hcap, exec_hash_overCap { s with hctx := d } hcap, .init⟩
    · have hall : HashCtx.Agree (s.hctx.hashAll data) (d.hashAll data) := by
        simp only [HashCtx.hashAll_eq_finish_update_init]
        exact (HashCtx.Agree.init.update data).finish
      refine ⟨_, d.hashAll data, exec_hash_fits s hcap, ?_, hall⟩
      rw [← hall.digestOf_eq]
      exact exec_hash_fits { s with hctx := d } hcap
  | compress vin blk => exact ⟨_, d, exec_compress vin blk s, exec_compress vin blk { s with hctx := d }, h⟩
  | status =>
    have hword : statusWord { s with hctx := d } = statusWord s := by simp only [statusWord, h.fill]
    refine ⟨_, d, exec_status s, ?_, h⟩
    rw [exec_status, hword, h.len]
    rfl
  | searchLt noff lo hi bound tdata => exact startSearch_agree .lt noff lo hi bound tdata s h
  | searchLte noff lo hi bound tdata => exact startSearch_agree .lte noff lo hi bound tdata s h

/-- Settles O50: `exec_agree`, with agreement read as equal bytes below `FILL`. -/
theorem staleBufferBytesAreNeverRead : Obligations.StaleBufferBytesAreNeverRead := by
  unfold Obligations.StaleBufferBytesAreNeverRead
  intro i s buf hbuf
  obtain ⟨t, d, ht, hother, hagree⟩ := exec_agree i s (HashCtx.agree_of_bytes hbuf)
  rw [hagree.eq_with_buf] at hother
  exact ⟨t, d.buf, ht, hother, hagree.getElem_eq⟩

end Sys2Proof.Machine
end

section
/-! The partition of a search's range, its candidates, and what a worker's step does (43_search.md sections 1 to 3). -/

namespace Sys2Proof.Machine

open Sys2Proof

/-! ### The partition -/

/-- Cut `k` is at or below a nonce of the range just when the nonce is at least `k` chunks in (43_search.md R243). -/
theorem cutPoint_le_iff {n lo hi k x : Nat} (hlo : lo ≤ x) (hhi : x < hi) :
    cutPoint n lo hi k ≤ x ↔ k * chunkSize n (hi - lo) ≤ x - lo := by
  unfold cutPoint
  omega

/-- The sub-range that holds a nonce of the range is the number of whole chunks before it (43_search.md R243). -/
theorem exists_subRange {n lo hi x : Nat} (hn : 1 ≤ n) (hlo : lo ≤ x) (hhi : x < hi) :
    ∃ k < n, cutPoint n lo hi k ≤ x ∧ x < cutPoint n lo hi (k + 1) := by
  have hcover := chunkSize_mul_ge n (hi - lo) hn
  have hpos : 0 < chunkSize n (hi - lo) := Nat.pos_of_ne_zero fun h0 => by
    rw [h0, Nat.mul_zero] at hcover
    omega
  refine ⟨(x - lo) / chunkSize n (hi - lo), Nat.div_lt_of_lt_mul ?_, ?_, ?_⟩
  · rw [Nat.mul_comm]
    omega
  · exact (cutPoint_le_iff hlo hhi).mpr (Nat.div_mul_le_self _ _)
  · rw [← Nat.not_le, cutPoint_le_iff hlo hhi, Nat.not_le, Nat.mul_comm]
    exact Nat.lt_mul_div_succ _ hpos

/-- The sub-ranges ascend: what lies before the end of one lies before everything in a later one. -/
theorem subRange_ascends {n lo hi j k x y : Nat} (hjk : j < k) (hx : x < cutPoint n lo hi (j + 1))
    (hy : cutPoint n lo hi k ≤ y) : x < y :=
  hx.trans_le ((cutPoint_mono n lo hi hjk).trans hy)

/-- Settles O26: `exists_subRange` covers the range, and two sub-ranges with a common nonce would not ascend. -/
theorem partitionCoversTheRange : Obligations.PartitionCoversTheRange := by
  unfold Obligations.PartitionCoversTheRange
  intro n lo hi hn hrange
  refine ⟨fun x hlo hhi => ?covers, fun k x _ hk hk' => ?inside, fun j k x y => subRange_ascends⟩
  case covers =>
    obtain ⟨k, hkn, hk, hk'⟩ := exists_subRange hn hlo hhi
    refine ⟨k, ⟨hkn, hk, hk'⟩, fun j ⟨_, hj, hj'⟩ => ?_⟩
    obtain hlt | heq | hgt := Nat.lt_trichotomy j k
    · exact absurd (subRange_ascends hlt hj' hk) (lt_irrefl x)
    · exact heq
    · exact absurd (subRange_ascends hgt hk' hj) (lt_irrefl x)
  case inside => exact ⟨(cutPoint_ge n lo hi k).trans hk, hk'.trans_le (cutPoint_le n lo hi _ hrange.le)⟩

/-! ### The candidate -/

/-- A read depends only on the bytes it reads. -/
theorem memBytes_congr {m m' : List Host.Cell} : ∀ (n a : Nat), (∀ i < n, memByte m' (a + i) = memByte m (a + i)) →
    memBytes m' a n = memBytes m a n
  | 0, _, _ => rfl
  | n + 1, a, h => by
    have hhead : memByte m' a = memByte m a := h 0 (by omega)
    have htail := memBytes_congr (m := m) (m' := m') n (a + 1) fun i hi => by
      rw [Nat.add_assoc, Nat.add_comm 1 i]
      exact h (i + 1) (by omega)
    simp only [memBytes, hhead, htail]

/-- A candidate is the template's bytes before the nonce field, the nonce, and the bytes after it (43_search.md R250). -/
theorem cand_ok_parts {s : State} {n : DWord} {m : List Byte} (h : cand s n = .ok m) : ∃ before after,
    m = before ++ (enc64 n).toList ++ after ∧ memBytes s.tmpl 0 s.noff.toNat = .ok before ∧
      memBytes s.tmpl (s.noff.toNat + 8) (s.tlen.toNat - (s.noff.toNat + 8)) = .ok after := by
  unfold cand memRead at h
  split_ifs at h with hbefore hafter
  · cases hb : memBytes s.tmpl 0 s.noff.toNat with
    | error f => simp [hb] at h
    | ok before =>
      cases ha : memBytes s.tmpl (s.noff.toNat + 8) (s.tlen.toNat - (s.noff.toNat + 8)) with
      | error f => simp [hb, ha] at h
      | ok after =>
        simp only [hb, ha] at h
        cases h
        exact ⟨before, after, rfl, rfl, rfl⟩
  · cases hb : memBytes s.tmpl 0 s.noff.toNat <;> simp [hb] at h

/-- The candidate does not depend on the template's own bytes at the nonce field (43_search.md R250). -/
theorem cand_congr_outside_field {s : State} {tmpl : List Host.Cell}
    (h : ∀ a, (a < s.noff.toNat ∨ s.noff.toNat + 8 ≤ a) → memByte tmpl a = memByte s.tmpl a) (n : DWord) :
    cand { s with tmpl := tmpl } n = cand s n := by
  have hbefore : memBytes tmpl 0 s.noff.toNat = memBytes s.tmpl 0 s.noff.toNat :=
    memBytes_congr _ _ fun i hi => h _ (.inl (by omega))
  have hafter : memBytes tmpl (s.noff.toNat + 8) (s.tlen.toNat - (s.noff.toNat + 8)) =
      memBytes s.tmpl (s.noff.toNat + 8) (s.tlen.toNat - (s.noff.toNat + 8)) :=
    memBytes_congr _ _ fun i _ => h _ (.inr (by omega))
  simp only [cand, memRead, hbefore, hafter]

/-- Settles O27: the candidate's three parts are read off by their indexes. -/
theorem candidateReplacesTheNonceField : Obligations.CandidateReplacesTheNonceField := by
  unfold Obligations.CandidateReplacesTheNonceField
  intro s n hl
  obtain ⟨m, hm, hlen⟩ := cand_loaded hl n
  obtain ⟨before, after, rfl, hbefore, hafter⟩ := cand_ok_parts hm
  obtain ⟨hblen, hbget⟩ := memBytes_ok _ hbefore
  obtain ⟨halen, haget⟩ := memBytes_ok _ hafter
  refine ⟨_, hm, hlen, fun i hi hout => ?outside, fun j => ?field, fun tmpl h => (cand_congr_outside_field h n).trans hm⟩
  case outside =>
    obtain hlt | hge := hout
    · rw [List.append_assoc, List.getElem?_append_left (by omega), ← hbget i hlt, Nat.zero_add]
    · have hfront : (before ++ (enc64 n).toList).length = s.noff.toNat + 8 := by simp [hblen]
      rw [List.getElem?_append_right (by omega), hfront, ← haget _ (by omega), Nat.add_sub_cancel' hge]
  case field =>
    rw [List.append_assoc, List.getElem?_append_right (by omega), hblen, Nat.add_sub_cancel_left,
      List.getElem?_append_left (by simp)]
    simp

/-! ### The worker step -/

/-- What a worker's step does under a loaded configuration (43_search.md R254, R255): it stops, reports a qualifying nonce, or
passes one that does not qualify. -/
theorem workerStep_moves {s t : State} {k : Nat} {w : Worker} (hl : Loaded s) (hcap : s.config.tmplMax ≤ LEN_CAP)
    (h : workerStep k w s = .next t) :
    ((s.found = true ∨ w.cur = w.endN) ∧ t = setWorker k { w with st := .stop } s) ∨
    (s.found = false ∧ w.cur ≠ w.endN ∧ Qualifying s w.cur ∧
      ∃ c, t = setWorker k { w with st := .stop, ctx := c } { s with found := true, rnonce := w.cur }) ∨
    (s.found = false ∧ w.cur ≠ w.endN ∧ ¬ Qualifying s w.cur ∧
      ∃ c, t = setWorker k { w with cur := w.cur + 1, ctx := c } s) := by
  have digest {m : List Byte} (hm : cand s w.cur = .ok m) : digestOf (w.ctx.hashAll m).v = sm3 m := by
    obtain ⟨m', hm', hlen⟩ := cand_loaded hl w.cur
    cases hm.symm.trans hm'
    exact w.ctx.digest_hashAll m (hlen ▸ hl.template_fits.trans hcap)
  obtain ⟨hf, e⟩ | ⟨-, hc, e⟩ | ⟨-, -, f, -, e⟩ | ⟨hf, hc, m, hm, hq, e⟩ | ⟨hf, hc, m, hm, hq, e⟩ := workerStep_cases k w s <;>
    cases e.symm.trans h
  · exact .inl ⟨.inl hf, rfl⟩
  · exact .inl ⟨.inr hc, rfl⟩
  · exact .inr (.inl ⟨hf, hc, ⟨m, hm, digest hm ▸ hq⟩, _, by rw [report_of_empty hf]⟩)
  · refine .inr (.inr ⟨hf, hc, fun ⟨m', hm', hq'⟩ => ?_, _, rfl⟩)
    cases hm.symm.trans hm'
    rw [digest hm, hq'] at hq
    exact nomatch hq

/-- A configuration stays loaded while its registers and the build are the same. -/
theorem Loaded.congr {s t : State} (h : Loaded s) (hconfig : t.config = s.config) (hsame : SameSearchConfig s t) : Loaded t :=
  (loaded_congr hconfig hsame).mpr h

/-- The machine after a scheduler's choice is used up that leaves `rest` to come (log 1). -/
def spendChoice (rest : List Nat) (s : State) : State := { s with sched := rest, tick := s.tick + 1 }

/-- A running search takes the step of any running worker that the scheduler names (43_search.md R254; log 1). -/
theorem step_chosen {s : State} {k : Nat} {w : Worker} (hhost : s.host = []) (hbusy : s.cmdState = .busy)
    (hs : s.sphase = .searching) (hk : s.workers[k]? = some w) (hrun : w.st = .run) :
    ∃ n, ∀ rest, step { s with sched := n :: rest } = workerStep k w (spendChoice rest s) := by
  obtain ⟨n, hn⟩ := pickWorker_choice hk hrun
  exact ⟨n, fun rest => (step_busy (s := { s with sched := n :: rest }) hhost hbusy).trans
    (engineStep_worker (s := { s with sched := n :: rest }) hs (hn rest))⟩

/-- A running worker's own step always writes it: it stops, or its cursor moves (43_search.md R254). -/
theorem workerStep_changes_worker {s t : State} {k : Nat} {w : Worker} (hk : s.workers[k]? = some w) (hrun : w.st = .run)
    (h : workerStep k w s = .next t) : t.workers[k]? ≠ some w := by
  have hlt : k < s.workers.length := (List.getElem?_eq_some_iff.mp hk).1
  have changed {v : Worker} (hne : v ≠ w) : (s.workers.set k v)[k]? ≠ some w := by
    rw [List.getElem?_set_self hlt]
    exact fun he => hne (Option.some.inj he)
  have stops (c : HashCtx) : { w with st := .stop, ctx := c } ≠ w := fun he =>
    nomatch (congrArg Worker.st he).trans hrun
  have moves (c : HashCtx) : { w with cur := w.cur + 1, ctx := c } ≠ w := fun he =>
    absurd (congrArg Worker.cur he) (by simp)
  obtain ⟨-, e⟩ | ⟨-, -, e⟩ | ⟨-, -, f, -, e⟩ | ⟨-, -, m, -, -, e⟩ | ⟨-, -, m, -, -, e⟩ := workerStep_cases k w s <;>
    cases e.symm.trans h
  · exact changed (stops w.ctx)
  · exact changed (stops w.ctx)
  · rw [setWorker_workers, report_workers]
    exact changed (stops _)
  · exact changed (moves _)

/-- Settles O31: `step_chosen` names the worker, and its step writes that worker alone. -/
theorem anyRunningWorkerMayMove : Obligations.AnyRunningWorkerMayMove := by
  unfold Obligations.AnyRunningWorkerMayMove
  intro s k w hhost hbusy hs hl hk hrun
  obtain ⟨n, hn⟩ := step_chosen hhost hbusy hs hk hrun
  refine ⟨n, fun rest => ?_⟩
  have hl' : Loaded (spendChoice rest s) := hl.congr rfl (sameSearch_refl s).1
  obtain ⟨t, ht⟩ := workerStep_completes hl' k w
  obtain ⟨-, -, -, -, -, -, -, -, -, -, -, hsched, -, hothers, -⟩ := workerStep_frame ht
  exact ⟨t, (hn rest).trans ht, workerStep_changes_worker (s := spendChoice rest s) hk hrun ht, hsched, hothers⟩

/-- Settles O51: a worker that stops keeps its context, and one that tests a candidate leaves what HASH leaves. -/
theorem privateContextAfterACandidate : Obligations.PrivateContextAfterACandidate := by
  unfold Obligations.PrivateContextAfterACandidate
  intro k w s t hk h
  have hlt : k < s.workers.length := (List.getElem?_eq_some_iff.mp hk).1
  have hset (v : Worker) : (s.workers.set k v)[k]? = some v := List.getElem?_set_self hlt
  have hashed (m : List Byte) (hcap : m.length ≤ LEN_CAP) : wordsToBytesBE (k := 8) (w.ctx.hashAll m).v = sm3 m ∧
      (w.ctx.hashAll m).fill = 0 ∧ (w.ctx.hashAll m).len.toNat = m.length :=
    ⟨w.ctx.digest_hashAll m hcap, rfl, w.ctx.toNat_hashAll_len hcap⟩
  obtain ⟨hf, e⟩ | ⟨hf, hc, e⟩ | ⟨-, -, f, -, e⟩ | ⟨hf, hc, m, hm, -, e⟩ | ⟨hf, hc, m, hm, -, e⟩ := workerStep_cases k w s <;>
    cases e.symm.trans h
  · exact ⟨_, hset _, fun _ => rfl, fun hf' => nomatch hf.symm.trans hf'⟩
  · exact ⟨_, hset _, fun _ => rfl, fun _ hc' => absurd hc hc'⟩
  · refine ⟨{ w with st := .stop, ctx := w.ctx.hashAll m }, by rw [setWorker_workers, report_workers, hset],
      fun hstop => ?_, fun _ _ => ⟨m, hm, hashed m⟩⟩
    exact (hstop.elim (fun hf' => nomatch hf.symm.trans hf') hc).elim
  · refine ⟨{ w with cur := w.cur + 1, ctx := w.ctx.hashAll m }, hset _, fun hstop => ?_, fun _ _ => ⟨m, hm, hashed m⟩⟩
    exact (hstop.elim (fun hf' => nomatch hf.symm.trans hf') hc).elim

end Sys2Proof.Machine
end

section
/-! The invariant: it holds after reset and every step keeps it (10_state.md sections 3 to 5, 20_memory.md section 5,
43_search.md section 6). -/

namespace Sys2Proof.Machine

open Sys2Proof

/-! ### What each part of the invariant speaks of -/

theorem BuildInv.congr {s t : State} (h : BuildInv s) (hconfig : t.config = s.config)
    (hworkers : t.workers.length = s.workers.length) : BuildInv t :=
  ⟨hconfig ▸ h.config_wf, by rw [hworkers, hconfig, h.workers_length]⟩

theorem TemplateInv.congr {s t : State} (h : TemplateInv s) (hconfig : t.config = s.config) (htmpl : t.tmpl = s.tmpl) :
    TemplateInv t :=
  ⟨htmpl ▸ h.tmpl_wf, by rw [htmpl, hconfig]; exact h.tmpl_bound⟩

theorem HasherInv.congr {s t : State} (h : HasherInv s) (hsame : SameHasher s t) : HasherInv t := by
  obtain ⟨hphase, hctx⟩ := hsame
  exact ⟨by rw [hctx]; exact h.len_cap, by rw [hphase, hctx]; exact h.idle_zero, by rw [hphase, hctx]; exact h.fill_mod,
    by rw [hphase, hctx]; exact h.done_fill⟩

/-- A worker's part depends on the build, the configuration and whether the slot is still empty. -/
theorem WorkerInv.congr {s t : State} {k : Nat} {w : Worker} (h : WorkerInv s k w) (hconfig : t.config = s.config)
    (hsame : SameSearchConfig s t) (hfound : t.found = false → s.found = false) : WorkerInv t k w := by
  have hq (n : DWord) : Qualifying t n ↔ Qualifying s n := qualifying_congr n hconfig hsame
  obtain ⟨-, -, -, hlo, hhi, -, -⟩ := hsame
  refine ⟨?_, h.cur_le, ?_, fun hf n => ?_, fun hf => h.stopped (hfound hf)⟩ <;> rw [hconfig, hlo, hhi]
  · exact h.cur_ge
  · exact h.end_eq
  · rw [hq]
    exact h.tested (hfound hf) n

theorem SearchInv.congr {s t : State} (h : SearchInv s) (hconfig : t.config = s.config) (hsame : SameSearch s t) :
    SearchInv t := by
  obtain ⟨hcfg, ⟨hfound, hrnonce, houtcome⟩, hsphase, hworkers⟩ := hsame
  have hq (n : DWord) : Qualifying t n ↔ Qualifying s n := qualifying_congr n hconfig hcfg
  have hworker {k : Nat} {w : Worker} (hw : WorkerInv s k w) : WorkerInv t k w := hw.congr hconfig hcfg (hfound ▸ id)
  have hloaded : Loaded t ↔ Loaded s := loaded_congr hconfig hcfg
  obtain ⟨-, -, -, hlo, hhi, -, -⟩ := hcfg
  constructor <;> simp only [hsphase, hfound, hrnonce, houtcome, hworkers, hlo, hhi, hq, hloaded]
  · exact h.idle_clear
  · exact h.loaded
  · exact h.searching_outcome
  · exact h.done_outcome
  · exact h.stopped_outside
  · exact h.slot_clear
  · exact h.found_sound
  · exact fun hs k w hk => hworker (h.worker_inv hs k w hk)
  · exact h.exhausted_complete

/-- A move that leaves the build and the search engine alone has the host hasher and the port to answer for. -/
theorem Inv.congr {s t : State} (h : Inv s) (hconfig : t.config = s.config) (hsearch : SameSearch s t)
    (hhasher : HasherInv t) (hport : PortInv t) : Inv t where
  build := h.build.congr hconfig (congrArg List.length hsearch.2.2.2)
  template := h.template.congr hconfig hsearch.1.1
  hasher := hhasher
  port := hport
  search := h.search.congr hconfig hsearch

/-- Outside a search a READY port has nothing to answer for. -/
theorem portInv_of_ready {t : State} (hready : t.cmdState = .ready) (hs : t.sphase ≠ .searching) : PortInv t :=
  ⟨fun _ => hs, fun hbusy => (nomatch hready.symm.trans hbusy), fun hbusy => (nomatch hready.symm.trans hbusy)⟩

/-! ### Reset -/

theorem inv_resetOf {c : Config} (hc : c.wf) : Inv (State.resetOf c) where
  build := ⟨hc, by simp [State.resetOf]⟩
  template := ⟨rfl, fun a b h => nomatch h⟩
  hasher := ⟨Nat.zero_le _, fun _ => ⟨rfl, rfl⟩, fun _ => rfl, fun _ => rfl⟩
  port := portInv_of_ready rfl (by simp [State.resetOf])
  search :=
    { idle_clear := fun _ => ⟨rfl, rfl⟩
      loaded := fun h => absurd rfl h
      searching_outcome := fun h => nomatch h
      done_outcome := fun h => nomatch h
      stopped_outside := fun _ w hw => by
        obtain ⟨k, -, rfl⟩ := List.mem_map.mp hw
        rfl
      slot_clear := fun _ => rfl
      found_sound := fun h => nomatch h
      worker_inv := fun h => nomatch h
      exhausted_complete := fun h => nomatch h }

theorem chip_wf : Config.chip.wf := by
  simp only [Config.wf, Config.chip]
  omega

/-- Settles O46: the chip's parameters are one legal build. -/
theorem resetMeetsTheInvariant : Obligations.ResetMeetsTheInvariant := by
  unfold Obligations.ResetMeetsTheInvariant
  exact ⟨inv_resetOf chip_wf, fun c => inv_resetOf⟩

/-! ### The commands -/

theorem hasherInv_of_active {t : State} (hp : t.hphase = .active ∨ t.hphase = .error) (hcap : t.hctx.len.toNat ≤ LEN_CAP)
    (hfill : t.hctx.fill.val = t.hctx.len.toNat % 64) : HasherInv t := by
  refine ⟨hcap, fun h => ?_, fun _ => hfill, fun h => ?_⟩ <;> rw [h] at hp <;> simp at hp

theorem hasherInv_of_done {t : State} (hp : t.hphase = .done) (hcap : t.hctx.len.toNat ≤ LEN_CAP)
    (hfill : t.hctx.fill.val = 0) : HasherInv t := by
  refine ⟨hcap, fun h => ?_, fun h => ?_, fun _ => hfill⟩ <;> rw [hp] at h <;> simp at h

/-- Every command keeps the counters' part of the invariant (10_state.md R38, R39; 42_hasher.md R207). -/
theorem exec_keeps_hasherInv {i : Instr} {s t : State} (h : HasherInv s) (hx : exec i s = .next t) : HasherInv t := by
  cases i with
  | init =>
    cases (exec_init s).symm.trans hx
    exact hasherInv_of_active (.inl rfl) (Nat.zero_le _) rfl
  | update data =>
    obtain ⟨-, e⟩ | ⟨-, e⟩ | ⟨hp, -, e⟩ | ⟨hp, hcap, e⟩ := exec_update_cases data s <;> cases e.symm.trans hx
    · exact h.congr (respond_sameHasher ..)
    · exact h.congr (respond_sameHasher ..)
    · exact hasherInv_of_active (.inr rfl) h.len_cap (h.fill_mod (.inl hp))
    · have hlen := HashCtx.toNat_update_len hcap
      obtain ⟨-, hfill, -⟩ := HashCtx.absorbAll_spec data s.hctx
      refine hasherInv_of_active (.inl hp) (hlen.trans_le hcap) ?_
      show (s.hctx.absorbAll data).fill.val = (s.hctx.update data).len.toNat % 64
      rw [hfill, hlen, h.fill_mod (.inl hp), Nat.mod_add_mod]
  | finalize =>
    obtain ⟨-, e⟩ | ⟨-, e⟩ | ⟨-, e⟩ := exec_finalize_cases s <;> cases e.symm.trans hx
    · exact h.congr (respond_sameHasher ..)
    · exact h.congr (respond_sameHasher ..)
    · refine hasherInv_of_done rfl ?_ s.hctx.finish_fill
      rw [respond_hctx, s.hctx.finish_len]
      exact h.len_cap
  | hash data =>
    obtain hcap | hcap := Nat.lt_or_ge LEN_CAP data.length
    · cases (exec_hash_overCap s hcap).symm.trans hx
      exact hasherInv_of_active (.inr rfl) (Nat.zero_le _) rfl
    · cases (exec_hash_fits s hcap).symm.trans hx
      exact hasherInv_of_done rfl ((s.hctx.toNat_hashAll_len hcap).trans_le hcap) rfl
  | compress vin blk =>
    cases (exec_compress vin blk s).symm.trans hx
    exact h.congr (respond_sameHasher ..)
  | status =>
    cases (exec_status s).symm.trans hx
    exact h.congr (respond_sameHasher ..)
  | searchLt noff lo hi bound tdata => exact h.congr (startSearch_sameHasher hx)
  | searchLte noff lo hi bound tdata => exact h.congr (startSearch_sameHasher hx)

/-- During a search the engine's part says that the configuration is loaded, the slot is sound, and every worker is in its
sub-range. -/
theorem searchInv_of_searching {t : State} (hs : t.sphase = .searching) (hloaded : Loaded t) (houtcome : t.outcome = .none)
    (hclear : t.found = false → t.rnonce = 0)
    (hsound : t.found = true → t.lo.toNat ≤ t.rnonce.toNat ∧ t.rnonce.toNat < t.hi.toNat ∧ Qualifying t t.rnonce)
    (hworkers : ∀ k w, t.workers[k]? = some w → WorkerInv t k w) : SearchInv t where
  idle_clear := fun h => nomatch hs.symm.trans h
  loaded := fun _ => hloaded
  searching_outcome := fun _ => houtcome
  done_outcome := fun h => nomatch hs.symm.trans h
  stopped_outside := fun h => absurd hs h
  slot_clear := hclear
  found_sound := hsound
  worker_inv := fun _ => hworkers
  exhausted_complete := fun h => nomatch hs.symm.trans h

/-- The load leaves a configuration that passed the checks, with its template bytes written (43_search.md R241, R242). -/
theorem loaded_loadSearch {m : Mode} {noff : Word} {lo hi : DWord} {bound : U256} {tdata : List Byte} {s : State}
    (hmax : s.config.tmplMax ≤ 2 ^ 29 - 1) (hlen : tdata.length ≤ s.config.tmplMax) (hnoff : noff.toNat + 8 ≤ tdata.length)
    (hrange : lo.toNat < hi.toNat) :
    Loaded (loadSearch m noff lo hi bound tdata.length (memSetAll s.tmpl 0 tdata) s) := by
  have htlen : (BitVec.ofNat 32 tdata.length).toNat = tdata.length := Nat.mod_eq_of_lt (by omega)
  refine ⟨?_, ?_, hrange, fun a ha => ?_⟩ <;> rw [loadSearch_tlen, htlen] at *
  · exact hnoff
  · exact hlen
  · rw [loadSearch_tmpl, memByte_load, if_pos ha, List.getElem?_eq_getElem ha]
    rfl

/-- Worker `k` starts at the low end of its sub-range, with nothing below its cursor to have tested (43_search.md R243). -/
theorem workerInv_start {t : State} (hrange : t.lo.toNat ≤ t.hi.toNat) (k : Nat) (w : Worker) :
    WorkerInv t k (startWorker t.config.nworkers t.lo t.hi k w) := by
  have hcur := toNat_ofNat_cutPoint t.config.nworkers k hrange
  have hend := toNat_ofNat_cutPoint t.config.nworkers (k + 1) hrange
  refine ⟨hcur.ge, ?_, hend, fun _ n hge hlt => ?_, fun _ h => nomatch h⟩
  · exact hcur.trans_le ((cutPoint_mono _ _ _ (Nat.le_succ k)).trans hend.ge)
  · exact absurd (hlt.trans_eq hcur) (Nat.not_lt.mpr hge)

/-- SEARCH's own step, refused or loaded, keeps the invariant. -/
theorem startSearch_keeps_inv {m : Mode} {noff : Word} {lo hi : DWord} {bound : U256} {tdata : List Byte} {s t : State}
    (h : Inv s) (hready : s.cmdState = .ready) (htx : s.tx = []) (hx : startSearch m noff lo hi bound tdata s = .next t) :
    Inv t := by
  obtain ⟨-, e⟩ | ⟨-, hlen, hnoff, hrange, e⟩ := startSearch_cases m noff lo hi bound tdata s <;> cases e.symm.trans hx
  · exact h.congr rfl (sameSearch_refl s) (h.hasher.congr ⟨rfl, rfl⟩)
      (portInv_of_ready rfl (h.port.ready_not_searching hready))
  · obtain ⟨-, -, hmax⟩ := h.build.config_wf
    refine ⟨h.build.congr rfl (List.length_mapIdx ..), ⟨memWf_memSetAll _ _ _ h.template.tmpl_wf, fun a b hb => ?_⟩,
      h.hasher.congr ⟨rfl, rfl⟩, ⟨fun hr => (nomatch hr), fun _ => htx, fun _ hi => nomatch hi⟩, ?_⟩
    · rw [loadSearch_tmpl, memByte_load] at hb
      split_ifs at hb with ha
      · exact ha.trans_le hlen
      · exact h.template.tmpl_bound a b hb
    · refine searchInv_of_searching rfl (loaded_loadSearch hmax hlen hnoff hrange) rfl (fun _ => rfl) (fun hf => nomatch hf)
        fun k v hv => ?_
      rw [loadSearch_workers, List.getElem?_mapIdx, Option.map_eq_some_iff] at hv
      obtain ⟨w, -, rfl⟩ := hv
      exact workerInv_start hrange.le k w

/-- Every command keeps the invariant. -/
theorem exec_keeps_inv {i : Instr} {s t : State} (h : Inv s) (hready : s.cmdState = .ready) (htx : s.tx = [])
    (hx : exec i s = .next t) : Inv t := by
  obtain ⟨st, p, ph, c, e⟩ | ⟨noff, lo, hi, bound, tdata, hrow⟩ := exec_responds_or_search i s
  · have hhasher := exec_keeps_hasherInv h.hasher hx
    cases e.symm.trans hx
    exact h.congr rfl (sameSearch_refl s) hhasher (portInv_of_ready rfl (h.port.ready_not_searching hready))
  · obtain ⟨m, hexec⟩ := exists_exec_eq_startSearch hrow
    exact startSearch_keeps_inv h hready htx ((hexec s).symm.trans hx)

/-! ### The engine -/

/-- A worker may stop once a nonce is found or its sub-range is done (43_search.md R254). -/
theorem WorkerInv.stop {s : State} {k : Nat} {w : Worker} (h : WorkerInv s k w) (hdone : s.found = true ∨ w.cur = w.endN)
    (c : HashCtx) : WorkerInv s k { w with st := .stop, ctx := c } where
  cur_ge := h.cur_ge
  cur_le := h.cur_le
  end_eq := h.end_eq
  tested := h.tested
  stopped := fun hf _ => hdone.resolve_left fun hf' => nomatch hf.symm.trans hf'

theorem WorkerInv.cur_lt {s : State} {k : Nat} {w : Worker} (h : WorkerInv s k w) (hne : w.cur ≠ w.endN) :
    w.cur.toNat < w.endN.toNat :=
  lt_of_le_of_ne h.cur_le (mt BitVec.eq_of_toNat_eq hne)

/-- Below the end of the sub-range the cursor does not wrap. -/
theorem toNat_add_one_of_lt {a b : DWord} (h : a.toNat < b.toNat) : (a + 1).toNat = a.toNat + 1 :=
  (BitVec.toNat_add ..).trans (Nat.mod_eq_of_lt ((Nat.succ_le_of_lt h).trans_lt b.isLt))

/-- A worker may pass a nonce that does not qualify (43_search.md R254). -/
theorem WorkerInv.advance {s : State} {k : Nat} {w : Worker} (h : WorkerInv s k w) (hne : w.cur ≠ w.endN)
    (hq : ¬ Qualifying s w.cur) (c : HashCtx) : WorkerInv s k { w with cur := w.cur + 1, ctx := c } := by
  have hlt := h.cur_lt hne
  have hcur := toNat_add_one_of_lt hlt
  refine ⟨h.cur_ge.trans (hcur ▸ Nat.le_succ _), hcur.trans_le hlt, h.end_eq, fun hf n hge hn => ?_,
    fun hf hst => absurd (h.stopped hf hst) hne⟩
  obtain hbelow | heq := Nat.lt_or_eq_of_le (Nat.le_of_lt_succ (hn.trans_eq hcur))
  · exact h.tested hf n hge hbelow
  · rwa [BitVec.eq_of_toNat_eq heq]

/-- A sub-range does not leave the range (43_search.md R243). -/
theorem WorkerInv.in_range {s : State} {k : Nat} {w : Worker} (h : WorkerInv s k w) (hne : w.cur ≠ w.endN)
    (hrange : s.lo.toNat ≤ s.hi.toNat) : s.lo.toNat ≤ w.cur.toNat ∧ w.cur.toNat < s.hi.toNat :=
  ⟨(cutPoint_ge ..).trans h.cur_ge, (h.cur_lt hne).trans_le (h.end_eq.trans_le (cutPoint_le _ _ _ _ hrange))⟩

/-- Writing back a worker that is in its sub-range keeps the engine's part. -/
theorem SearchInv.setWorker {s : State} {k : Nat} {v : Worker} (h : SearchInv s) (hs : s.sphase = .searching)
    (hv : WorkerInv s k v) : SearchInv (setWorker k v s) := by
  have hsame : SameSearchConfig s (Machine.setWorker k v s) := (sameSearch_refl s).1
  refine searchInv_of_searching hs ((h.loaded (by simp [hs])).congr rfl hsame) (h.searching_outcome hs)
    h.slot_clear h.found_sound fun j w hj => ?_
  rw [setWorker_workers, List.getElem?_set] at hj
  split_ifs at hj with hjk
  · subst hjk
    cases hj
    exact hv.congr rfl hsame id
  · exact (h.worker_inv hs j w hj).congr rfl hsame id

/-- Filling the slot with a qualifying nonce of the range keeps the engine's part (43_search.md R256). -/
theorem SearchInv.report {s : State} {n : DWord} (h : SearchInv s) (hs : s.sphase = .searching) (hlo : s.lo.toNat ≤ n.toNat)
    (hhi : n.toNat < s.hi.toNat) (hq : Qualifying s n) : SearchInv { s with found := true, rnonce := n } := by
  have hsame : SameSearchConfig s { s with found := true, rnonce := n } := (sameSearch_refl s).1
  exact searchInv_of_searching hs ((h.loaded (by simp [hs])).congr rfl hsame) (h.searching_outcome hs)
    (fun hf => nomatch hf) (fun _ => ⟨hlo, hhi, hq⟩)
    fun j w hj => (h.worker_inv hs j w hj).congr (s := s) rfl hsame fun hf => nomatch hf

/-- A worker step keeps the engine's part (43_search.md R254). -/
theorem SearchInv.workerStep {s t : State} {k : Nat} {w : Worker} (h : SearchInv s) (hs : s.sphase = .searching)
    (hcap : s.config.tmplMax ≤ LEN_CAP) (hk : s.workers[k]? = some w) (hx : workerStep k w s = .next t) : SearchInv t := by
  have hl : Loaded s := h.loaded (by simp [hs])
  have hw := h.worker_inv hs k w hk
  obtain ⟨hdone, rfl⟩ | ⟨-, hne, hq, c, rfl⟩ | ⟨-, hne, hq, c, rfl⟩ := workerStep_moves hl hcap hx
  · exact h.setWorker hs (hw.stop hdone w.ctx)
  · obtain ⟨hlo, hhi⟩ := hw.in_range hne hl.range_nonempty.le
    have hreport := h.report hs hlo hhi hq
    exact hreport.setWorker hs ((hreport.worker_inv hs k w hk).stop (.inl rfl) c)
  · exact h.setWorker hs (hw.advance hne hq c)

/-- With every worker at the end of its sub-range and nothing found, the whole range has been tested (43_search.md R262). -/
theorem not_qualifying_of_all_stopped {s : State} (hbuild : BuildInv s) (h : SearchInv s) (hs : s.sphase = .searching)
    (hstop : ∀ w ∈ s.workers, w.st = .stop) (hf : s.found = false) (n : DWord) (hlo : s.lo.toNat ≤ n.toNat)
    (hhi : n.toNat < s.hi.toNat) : ¬ Qualifying s n := by
  obtain ⟨k, hkn, hk, hk'⟩ := exists_subRange hbuild.config_wf.1 hlo hhi
  have hlen : k < s.workers.length := hbuild.workers_length ▸ hkn
  have hw := h.worker_inv hs k _ (List.getElem?_eq_getElem hlen)
  have hend := hw.stopped hf (hstop _ (List.getElem_mem hlen))
  exact hw.tested hf n hk (by rwa [hend, hw.end_eq])

/-- The end step keeps the engine's part (43_search.md R259). -/
theorem SearchInv.endStep {s : State} (hbuild : BuildInv s) (h : SearchInv s) (hs : s.sphase = .searching)
    (hstop : ∀ w ∈ s.workers, w.st = .stop) : SearchInv (endStep s) where
  idle_clear := fun hi => nomatch hi
  loaded := fun _ => (h.loaded (by simp [hs])).congr rfl (sameSearch_refl s).1
  searching_outcome := fun hi => nomatch hi
  done_outcome := fun _ => rfl
  stopped_outside := fun _ => hstop
  slot_clear := h.slot_clear
  found_sound := h.found_sound
  worker_inv := fun hi => nomatch hi
  exhausted_complete := fun _ hf => not_qualifying_of_all_stopped (s := s) hbuild h hs hstop hf

/-- Every engine step keeps the invariant. -/
theorem engineStep_keeps_inv {s t : State} (h : Inv s) (hbusy : s.cmdState = .busy) (hx : engineStep s = .next t) : Inv t := by
  have responds {st : Status} {p : List Byte} (hd : s.sphase = .done) : Inv (respond st p s) :=
    h.congr rfl (sameSearch_refl s) (h.hasher.congr ⟨rfl, rfl⟩) (portInv_of_ready rfl (by simp [hd]))
  obtain ⟨hs, w, k, hp, hw⟩ | ⟨hs, hstop, rfl⟩ | ⟨hd, -, rfl⟩ | ⟨hd, -, rfl⟩ := engineStep_cases hx
  · obtain ⟨hhasher, ⟨htmpl, -⟩, hconfig, hsphase, -, hcmd, -, htx, -, -, -, -, -, -, hlen⟩ := workerStep_frame hw
    have hsearch : SearchInv (useChoice s) := h.search.congr rfl (sameSearch_refl s)
    exact ⟨h.build.congr hconfig hlen, h.template.congr hconfig htmpl, h.hasher.congr hhasher,
      ⟨fun hr => (nomatch hbusy.symm.trans (hcmd.symm.trans hr)), fun _ => htx.trans (h.port.busy_tx hbusy),
        fun _ hi => nomatch hs.symm.trans (hsphase.symm.trans hi)⟩,
      hsearch.workerStep hs h.build.config_wf.2.2 (pickWorker_some hp).1 hw⟩
  · exact ⟨h.build.congr rfl rfl, h.template.congr rfl rfl, h.hasher.congr ⟨rfl, rfl⟩,
      ⟨fun hr => (nomatch hbusy.symm.trans hr), fun _ => h.port.busy_tx hbusy, fun _ hi => nomatch hi⟩,
      h.search.endStep h.build hs hstop⟩
  · exact responds hd
  · exact responds hd

/-! ### Every step -/

/-- What the host does to the port alone keeps the invariant. -/
theorem Inv.host_side {s : State} (h : Inv s) (es : List HostEvent) (rx : List Byte) (on : Bool) :
    Inv { s with host := es, rx := rx, hostAccepts := on } :=
  h.congr rfl (sameSearch_refl s) (h.hasher.congr ⟨rfl, rfl⟩)
    ⟨h.port.ready_not_searching, h.port.busy_tx, h.port.busy_phase⟩

theorem inv_resetCore {s : State} (hc : s.config.wf) : Inv (resetCore s) :=
  (inv_resetOf hc).congr rfl (sameSearch_refl (State.resetOf s.config)) ((inv_resetOf hc).hasher.congr ⟨rfl, rfl⟩)
    (portInv_of_ready rfl (by simp [State.resetOf]))

/-- Every move of CORE keeps the invariant. -/
theorem coreStep_keeps_inv {s t : State} (h : Inv s) (hx : coreStep s = .next t) : Inv t := by
  have atPort {u : State} (hready : s.cmdState = .ready) (hready' : u.cmdState = .ready) (hsearch : SameSearch s u)
      (hconfig : u.config = s.config) (hhasher : SameHasher s u) : Inv u :=
    h.congr hconfig hsearch (h.hasher.congr hhasher)
      (portInv_of_ready hready' (hsearch.2.2.1 ▸ h.port.ready_not_searching hready))
  obtain ⟨hbusy, he⟩ | ⟨hready, -, -, rfl⟩ | ⟨hready, -, why, rest, -, rfl⟩ | ⟨hready, htx, i, rest, -, he⟩ :=
    coreStep_cases hx
  · exact engineStep_keeps_inv h hbusy he
  · exact atPort hready hready (sameSearch_refl s) rfl ⟨rfl, rfl⟩
  · exact atPort hready rfl (sameSearch_refl s) rfl ⟨rfl, rfl⟩
  · exact exec_keeps_inv (s := takeFrame rest s) (h.host_side s.host rest s.hostAccepts) hready htx he

theorem step_keeps_inv {s t : State} (h : Inv s) (hx : step s = .next t) : Inv t := by
  obtain ⟨es, hhost⟩ | ⟨es, more, on, rfl⟩ | ⟨es, -, hcore⟩ := step_moves hx
  · cases (step_reset hhost).symm.trans hx
    exact inv_resetCore (s := { s with host := es }) h.build.config_wf
  · exact h.host_side es (s.rx ++ more) on
  · exact coreStep_keeps_inv (h.host_side es s.rx s.hostAccepts) hcore

/-- Settles O47: `step_keeps_inv`, by the cases of a step. -/
theorem everyStepKeepsTheInvariant : Obligations.EveryStepKeepsTheInvariant := by
  unfold Obligations.EveryStepKeepsTheInvariant
  exact fun s t => step_keeps_inv

end Sys2Proof.Machine
end

section
/-! Which stops are possible (93_implementation_defined.md section 2). -/

namespace Sys2Proof.Machine

open Sys2Proof

/-- From a BUSY state of the invariant the engine always moves: the configuration is loaded during a search, and an ended
search has an outcome (43_search.md R254, R259, R260). -/
theorem engineStep_completes {s : State} (h : Inv s) (hbusy : s.cmdState = .busy) : Completes (engineStep s) := by
  obtain ⟨p, hp⟩ : ∃ p, s.sphase = p := ⟨_, rfl⟩
  cases p with
  | idle => exact absurd hp (h.port.busy_phase hbusy)
  | searching =>
    cases hpick : pickWorker s with
    | none => exact ⟨_, engineStep_end hp (pickWorker_none.mp hpick)⟩
    | some q =>
      obtain ⟨w, k⟩ := q
      have hl : Loaded (useChoice s) := (h.search.loaded (by simp [hp])).congr rfl (sameSearch_refl s).1
      obtain ⟨t, ht⟩ := workerStep_completes hl k w
      exact ⟨t, (engineStep_worker hp hpick).trans ht⟩
  | done =>
    have houtcome := h.search.done_outcome hp
    split at houtcome
    · exact ⟨_, (engineStep_done hp).trans (searchResponse_found houtcome)⟩
    · exact ⟨_, (engineStep_done hp).trans (searchResponse_exhausted houtcome)⟩

/-- From a state of the invariant CORE stops only at the port, waiting for the host (log 3). -/
theorem coreStep_fault_waits {s : State} {f : Fault} (h : Inv s) (hx : coreStep s = .fault f) :
    s.cmdState = .ready ∧ ((f = .awaitingFrame ∧ s.tx = [] ∧ decode s.rx = .incomplete) ∨
      (f = .awaitingAcceptance ∧ s.tx ≠ [] ∧ s.hostAccepts = false)) := by
  obtain ⟨hbusy, he⟩ | ⟨hready, htx, ha, rfl⟩ | ⟨hready, htx, hd, rfl⟩ | ⟨-, -, i, rest, -, he⟩ := coreStep_fault hx
  · obtain ⟨t, ht⟩ := engineStep_completes h hbusy
    exact nomatch ht.symm.trans he
  · exact ⟨hready, .inr ⟨rfl, htx, ha⟩⟩
  · exact ⟨hready, .inl ⟨rfl, htx, hd⟩⟩
  · obtain ⟨t, ht⟩ := exec_completes i (takeFrame rest s)
    exact nomatch ht.symm.trans he

theorem engineStep_not_refused (s : State) (r : Refusal) : engineStep s ≠ .refused r := by
  unfold engineStep
  split
  · split
    · rename_i w k _
      obtain ⟨-, e⟩ | ⟨-, -, e⟩ | ⟨-, -, f, -, e⟩ | ⟨-, -, m, -, -, e⟩ | ⟨-, -, m, -, -, e⟩ :=
        workerStep_cases k w (useChoice s) <;> simp [e]
    · simp
  · unfold searchResponse finishOk
    split <;> simp
  · simp

theorem coreStep_not_refused (s : State) (r : Refusal) : coreStep s ≠ .refused r := by
  unfold coreStep
  split
  · exact engineStep_not_refused s r
  · split
    · simp
    · simp
    · simp [execIllegal, raise]
    · rename_i i rest _
      obtain ⟨t, ht⟩ := exec_completes i (takeFrame rest s)
      simp [ht]

/-- Letting a wait pass keeps a refusal a refusal. -/
theorem orWait_refused {s : State} {x : Result} {r : Refusal} (h : orWait s x = .refused r) : x = .refused r := by
  unfold orWait at h
  split at h <;> simp_all

/-- Letting a wait pass leaves only the stops that are no waits. -/
theorem orWait_fault {s : State} {x : Result} {f : Fault} (h : orWait s x = .fault f) :
    x = .fault f ∧ f ≠ .awaitingFrame ∧ f ≠ .awaitingAcceptance := by
  unfold orWait at h
  split at h <;> simp_all

/-- A step that answers no next state is CORE's own, or CORE's own under `letRun`: the host's other events always do. -/
theorem step_stop {s : State} {x : Result} (h : step s = x) (hx : ¬ Completes x) :
    (s.host = [] ∧ coreStep s = x) ∨
    ∃ es, orWait { s with host := es } (coreStep { s with host := es }) = x := by
  cases hhost : s.host with
  | nil => exact .inl ⟨rfl, (step_quiet hhost).symm.trans h⟩
  | cons e es =>
    simp only [step, hhost] at h
    cases e with
    | send b => exact absurd ⟨_, h.symm⟩ hx
    | accepting on => exact absurd ⟨_, h.symm⟩ hx
    | reset => exact absurd ⟨_, h.symm⟩ hx
    | letRun => exact .inr ⟨es, h⟩

/-- Settles O48: no part of a step refuses, and under the invariant CORE stops only in the two waits, which `letRun` lets
pass. -/
theorem onlyTheStuckCasesStop : Obligations.OnlyTheStuckCasesStop := by
  unfold Obligations.OnlyTheStuckCasesStop
  refine ⟨fun s r hx => ?refused, fun s f h hx => ?fault⟩
  case refused =>
    obtain ⟨-, hcore⟩ | ⟨es, hwait⟩ := step_stop hx (by simp)
    · exact coreStep_not_refused s r hcore
    · exact coreStep_not_refused _ r (orWait_refused hwait)
  case fault =>
    obtain ⟨hhost, hcore⟩ | ⟨es, hwait⟩ := step_stop hx (by simp)
    · obtain ⟨hready, hwaits⟩ := coreStep_fault_waits h hcore
      exact ⟨hready, hhost, hwaits⟩
    · obtain ⟨hcore, hframe, haccept⟩ := orWait_fault hwait
      obtain ⟨-, ⟨rfl, -⟩ | ⟨rfl, -⟩⟩ := coreStep_fault_waits (h.host_side es s.rx s.hostAccepts) hcore
      · exact absurd rfl hframe
      · exact absurd rfl haccept

end Sys2Proof.Machine
end

section
/-! Which nonce is reported (43_search.md section 6). -/

namespace Sys2Proof.Machine

open Sys2Proof

/-! ### A reported nonce is some worker's first -/

/-- A reported nonce is the first qualifying nonce of some worker's sub-range (43_search.md R263). -/
def ReportsAFirst (s : State) : Prop := s.found = true → ∃ k < s.config.nworkers,
  cutPoint s.config.nworkers s.lo.toNat s.hi.toNat k ≤ s.rnonce.toNat ∧
  s.rnonce.toNat < cutPoint s.config.nworkers s.lo.toNat s.hi.toNat (k + 1) ∧ Qualifying s s.rnonce ∧
  ∀ n : DWord, cutPoint s.config.nworkers s.lo.toNat s.hi.toNat k ≤ n.toNat → n.toNat < s.rnonce.toNat → ¬ Qualifying s n

theorem ReportsAFirst.congr {s t : State} (h : ReportsAFirst s) (hconfig : t.config = s.config) (hsame : SameSearchConfig s t)
    (hfound : t.found = s.found) (hrnonce : t.rnonce = s.rnonce) : ReportsAFirst t := by
  have hq (n : DWord) : Qualifying t n ↔ Qualifying s n := qualifying_congr n hconfig hsame
  obtain ⟨-, -, -, hlo, hhi, -, -⟩ := hsame
  simp only [ReportsAFirst, hfound, hrnonce, hconfig, hlo, hhi, hq]
  exact h

/-- A worker reports its cursor, below which it has tested every nonce of its sub-range (43_search.md R254). -/
theorem WorkerInv.reports_first {s : State} {k : Nat} {w : Worker} (h : WorkerInv s k w) (hkn : k < s.config.nworkers)
    (hf : s.found = false) (hne : w.cur ≠ w.endN) (hq : Qualifying s w.cur) :
    ReportsAFirst { s with found := true, rnonce := w.cur } :=
  fun _ => ⟨k, hkn, h.cur_ge, (h.cur_lt hne).trans_eq h.end_eq, hq, h.tested hf⟩

theorem engineStep_reports_first {s t : State} (h : Inv s) (hfirst : ReportsAFirst s) (hx : engineStep s = .next t) :
    ReportsAFirst t := by
  have unwritten {u : State} (hsame : SameSearchConfig s u) (hconfig : u.config = s.config) (hfound : u.found = s.found)
      (hrnonce : u.rnonce = s.rnonce) : ReportsAFirst u := hfirst.congr hconfig hsame hfound hrnonce
  obtain ⟨hs, w, k, hp, hw⟩ | ⟨-, -, rfl⟩ | ⟨-, -, rfl⟩ | ⟨-, -, rfl⟩ := engineStep_cases hx
  · have hk := (pickWorker_some hp).1
    have hl : Loaded (useChoice s) := (h.search.loaded (by simp [hs])).congr rfl (sameSearch_refl s).1
    obtain ⟨-, rfl⟩ | ⟨hf, hne, hq, c, rfl⟩ | ⟨-, -, -, c, rfl⟩ := workerStep_moves hl h.build.config_wf.2.2 hw
    · exact unwritten (sameSearch_refl s).1 rfl rfl rfl
    · have hkn : k < s.config.nworkers := h.build.workers_length ▸ (List.getElem?_eq_some_iff.mp hk).1
      exact ((h.search.worker_inv hs k w hk).reports_first hkn hf hne hq).congr rfl (sameSearch_refl s).1 rfl rfl
    · exact unwritten (sameSearch_refl s).1 rfl rfl rfl
  · exact unwritten (sameSearch_refl s).1 rfl rfl rfl
  · exact unwritten (sameSearch_refl s).1 rfl rfl rfl
  · exact unwritten (sameSearch_refl s).1 rfl rfl rfl

theorem coreStep_reports_first {s t : State} (h : Inv s) (hfirst : ReportsAFirst s) (hx : coreStep s = .next t) :
    ReportsAFirst t := by
  obtain ⟨-, he⟩ | ⟨-, -, -, rfl⟩ | ⟨-, -, why, rest, -, rfl⟩ | ⟨-, -, i, rest, -, he⟩ := coreStep_cases hx
  · exact engineStep_reports_first h hfirst he
  · exact hfirst.congr rfl (sameSearch_refl s).1 rfl rfl
  · exact hfirst.congr rfl (sameSearch_refl s).1 rfl rfl
  · obtain ⟨hconfig, hsame, hfound, hrnonce⟩ | ⟨hf, -, -⟩ := exec_search_part i (takeFrame rest s) t he
    · exact hfirst.congr hconfig hsame hfound hrnonce
    · exact fun hf' => nomatch hf.symm.trans hf'

/-- Settles O37: only a worker's report fills the slot, with the first qualifying nonce of its sub-range; reset and the next
load empty it. -/
theorem reportedNonceIsAWorkersFirst : Obligations.ReportedNonceIsAWorkersFirst := by
  unfold Obligations.ReportedNonceIsAWorkersFirst
  intro firstOfAWorker s t h (hfirst : ReportsAFirst s) hx
  show ReportsAFirst t
  obtain ⟨es, hhost⟩ | ⟨es, more, on, rfl⟩ | ⟨es, -, hcore⟩ := step_moves hx
  · cases (step_reset hhost).symm.trans hx
    exact fun hf => nomatch hf
  · exact hfirst.congr rfl (sameSearch_refl s).1 rfl rfl
  · exact coreStep_reports_first (s := { s with host := es }) (h.host_side es s.rx s.hostAccepts)
      (hfirst.congr rfl (sameSearch_refl s).1 rfl rfl) hcore

/-! ### Every worker's first can be the one -/

/-- A search runs, and the host does nothing (43_search.md R254). -/
structure SearchRuns (s : State) : Prop where
  host : s.host = []
  busy : s.cmdState = .busy
  searching : s.sphase = .searching

/-- Some schedule makes the search report `f` (43_search.md R263). -/
def CanReport (s : State) (f : DWord) : Prop :=
  ∃ sched steps t, Sys2Proof.core.run steps { s with sched := sched } = .next t ∧ t.found = true ∧ t.rnonce = f

/-- Worker `k` of a running search with an empty slot is on its way to `f`, the first nonce it will find to qualify. -/
structure Approaches (s : State) (k : Nat) (w : Worker) (f : DWord) : Prop where
  runs : SearchRuns s
  loaded : Loaded s
  cap : s.config.tmplMax ≤ LEN_CAP
  slot_empty : s.found = false
  worker : s.workers[k]? = some w
  running : w.st = .run
  cur_le : w.cur.toNat ≤ f.toNat
  lt_end : f.toNat < w.endN.toNat
  qualifies : Qualifying s f
  first : ∀ n : DWord, w.cur.toNat ≤ n.toNat → n.toNat < f.toNat → ¬ Qualifying s n

/-- The first step of a run. -/
theorem run_succ {s t : State} (h : step s = .next t) (n : Nat) :
    Sys2Proof.core.run (n + 1) s = Sys2Proof.core.run n t := by
  simp only [Host.Core.run, show Sys2Proof.core.step s = step s from rfl, h]

/-- A run keeps the invariant. -/
theorem run_keeps_inv (n : Nat) {s t : State} (h : Inv s) (hrun : Sys2Proof.core.run n s = .next t) : Inv t := by
  induction n generalizing s with
  | zero =>
    cases hrun
    exact h
  | succ n ih =>
    simp only [Host.Core.run, show Sys2Proof.core.step s = step s from rfl] at hrun
    cases hs : step s with
    | next u =>
      rw [hs] at hrun
      exact ih (step_keeps_inv h hs) hrun
    | fault f => simp [hs] at hrun
    | refused r => simp [hs] at hrun

/-- A worker that passes a nonce does so alike whatever choices of the scheduler are left. -/
theorem workerStep_passes {s : State} {k : Nat} {w : Worker} (hl : Loaded s) (hcap : s.config.tmplMax ≤ LEN_CAP)
    (hf : s.found = false) (hne : w.cur ≠ w.endN) (hq : ¬ Qualifying s w.cur) :
    ∃ c, ∀ rest, workerStep k w (spendChoice rest s) =
      .next (setWorker k { w with cur := w.cur + 1, ctx := c } (spendChoice rest s)) := by
  obtain ⟨m, hm, hlen⟩ := cand_loaded hl w.cur
  have hdigest := w.ctx.digest_hashAll m (hlen ▸ hl.template_fits.trans hcap)
  have hfails : qualifies s.mode s.bound (digestOf (w.ctx.hashAll m).v) = false :=
    Bool.eq_false_iff.mpr fun hq' => hq ⟨m, hm, hdigest ▸ hq'⟩
  refine ⟨w.ctx.hashAll m, fun rest => ?_⟩
  have hf' : (spendChoice rest s).found = false := hf
  have hm' : cand (spendChoice rest s) w.cur = .ok m := hm
  have hfails' : qualifies (spendChoice rest s).mode (spendChoice rest s).bound (digestOf (w.ctx.hashAll m).v) = false :=
    hfails
  simp [workerStep, hf', hne, hm', hfails']

theorem Approaches.ne_end {s : State} {k : Nat} {w : Worker} {f : DWord} (h : Approaches s k w f) : w.cur ≠ w.endN :=
  fun he => absurd (h.cur_le.trans_lt h.lt_end) (he ▸ lt_irrefl _)

/-- At `f` the worker, moved by the scheduler, reports it (43_search.md R254). -/
theorem Approaches.reports {s : State} {k : Nat} {w : Worker} {f : DWord} (h : Approaches s k w f) (hf : w.cur = f) :
    CanReport s f := by
  obtain ⟨n, hn⟩ := step_chosen h.runs.host h.runs.busy h.runs.searching h.worker h.running
  have hl : Loaded (spendChoice [] s) := h.loaded.congr rfl (sameSearch_refl s).1
  obtain ⟨t, ht⟩ := workerStep_completes hl k w
  refine ⟨[n], 1, t, run_succ ((hn []).trans ht) 0, ?_⟩
  obtain ⟨hfound | hend, -⟩ | ⟨-, -, -, c, rfl⟩ | ⟨-, -, hq, -⟩ := workerStep_moves hl h.cap ht
  · exact nomatch h.slot_empty.symm.trans hfound
  · exact absurd hend h.ne_end
  · exact ⟨rfl, hf⟩
  · exact absurd (hf ▸ h.qualifies) hq

/-- Before `f` the worker, moved by the scheduler, goes one nonce on, whatever choices are then left (43_search.md R254). -/
theorem Approaches.advances {s : State} {k : Nat} {w : Worker} {f : DWord} (h : Approaches s k w f) (hf : w.cur ≠ f) :
    ∃ n u v, (∀ rest, step { s with sched := n :: rest } = .next { u with sched := rest }) ∧ Approaches u k v f ∧
      v.cur.toNat = w.cur.toNat + 1 := by
  have hlt : w.cur.toNat < f.toNat := lt_of_le_of_ne h.cur_le (mt BitVec.eq_of_toNat_eq hf)
  have hcur := toNat_add_one_of_lt hlt
  obtain ⟨n, hn⟩ := step_chosen h.runs.host h.runs.busy h.runs.searching h.worker h.running
  obtain ⟨c, hc⟩ := workerStep_passes (k := k) h.loaded h.cap h.slot_empty h.ne_end (h.first w.cur le_rfl hlt)
  refine ⟨n, setWorker k { w with cur := w.cur + 1, ctx := c } (spendChoice [] s), { w with cur := w.cur + 1, ctx := c },
    fun rest => (hn rest).trans (hc rest), ?_, hcur⟩
  exact
    { runs := ⟨h.runs.host, h.runs.busy, h.runs.searching⟩
      loaded := h.loaded.congr rfl (sameSearch_refl s).1
      cap := h.cap
      slot_empty := h.slot_empty
      worker := List.getElem?_set_self (List.getElem?_eq_some_iff.mp h.worker).1
      running := h.running
      cur_le := hcur.trans_le hlt
      lt_end := h.lt_end
      qualifies := h.qualifies
      first := fun n hge hn => h.first n ((Nat.le_succ _).trans (hcur.ge.trans hge)) hn }

/-- By induction on how far the worker is from `f`: the schedule that always names it makes the search report `f`. -/
theorem Approaches.canReport {k : Nat} {f : DWord} (d : Nat) {s : State} {w : Worker} (h : Approaches s k w f)
    (hd : f.toNat ≤ w.cur.toNat + d) : CanReport s f := by
  induction d generalizing s w with
  | zero => exact h.reports (BitVec.eq_of_toNat_eq (le_antisymm h.cur_le hd))
  | succ d ih =>
    by_cases hf : w.cur = f
    · exact h.reports hf
    · obtain ⟨n, u, v, hstep, hu, hcur⟩ := h.advances hf
      obtain ⟨sched, steps, t, hrun, ht⟩ := ih hu (by omega)
      exact ⟨n :: sched, steps + 1, t, (run_succ (hstep sched) steps).trans hrun, ht⟩

/-- Settles O38: the worker approaches its first qualifying nonce, and the schedule that always names it gets it there. -/
theorem everyWorkersFirstIsAdmitted : Obligations.EveryWorkersFirstIsAdmitted := by
  unfold Obligations.EveryWorkersFirstIsAdmitted
  intro s k w f h hhost hbusy hs hf hk hrun hcur hend hq hfirst
  have happroaches : Approaches s k w f :=
    ⟨⟨hhost, hbusy, hs⟩, h.search.loaded (by simp [hs]), h.build.config_wf.2.2, hf, hk, hrun, hcur, hend, hq, hfirst⟩
  exact happroaches.canReport f.toNat (Nat.le_add_left ..)

/-! ### Every search answers -/

/-- The steps a worker can still take: one for each nonce it has left, and one to stop (43_search.md R267). -/
def Worker.work (w : Worker) : Nat := if w.st = .run then w.endN.toNat - w.cur.toNat + 1 else 0

/-- The worker steps a search can still take. -/
def work (s : State) : Nat := (s.workers.map Worker.work).sum

/-- Replacing an entry by a smaller one lowers the sum. -/
theorem sum_set_lt {l : List Nat} {k a b : Nat} (hk : l[k]? = some a) (hb : b < a) : (l.set k b).sum < l.sum := by
  obtain ⟨hlt, rfl⟩ := List.getElem?_eq_some_iff.mp hk
  have hself := List.sum_set l k l[k]
  rw [List.set_getElem_self, if_pos hlt] at hself
  rw [List.sum_set, if_pos hlt]
  omega

theorem work_setWorker_lt {s : State} {k : Nat} {w v : Worker} (hk : s.workers[k]? = some w) (hv : v.work < w.work) :
    work (setWorker k v s) < work s := by
  rw [work, setWorker_workers, List.map_set]
  exact sum_set_lt (by rw [List.getElem?_map, hk, Option.map_some]) hv

/-- The steps left never exceed the nonces of the range and one stop for each worker (43_search.md R267): the sub-ranges are
summed cut by cut. -/
theorem work_le {s : State} (h : Inv s) (hs : s.sphase = .searching) :
    work s ≤ (s.hi.toNat - s.lo.toNat) + s.config.nworkers := by
  have hrange := (h.search.loaded (by simp [hs])).range_nonempty.le
  have firstWorkers : ∀ n ≤ s.workers.length, ((s.workers.map Worker.work).take n).sum + s.lo.toNat ≤
      cutPoint s.config.nworkers s.lo.toNat s.hi.toNat n + n := by
    intro n hn
    induction n with
    | zero => simp [cutPoint_zero]
    | succ n ih =>
      have hw := h.search.worker_inv hs n _ (List.getElem?_eq_getElem hn)
      have hwork : (s.workers[n]).work ≤ (s.workers[n]).endN.toNat - (s.workers[n]).cur.toNat + 1 := by
        unfold Worker.work
        split <;> omega
      have := hw.cur_ge
      have := hw.cur_le
      have := hw.end_eq
      have := ih (Nat.le_of_succ_le hn)
      rw [List.sum_take_succ _ _ (by simpa using hn), List.getElem_map]
      omega
  have hall := firstWorkers _ le_rfl
  rw [List.take_of_length_le (by simp), h.build.workers_length,
    cutPoint_last _ _ _ h.build.config_wf.1 hrange] at hall
  unfold work
  omega

/-- What no engine step writes: the host hasher, the configuration, the build, the command stream and the host's side. -/
structure EngineKeeps (s t : State) : Prop where
  hasher : SameHasher s t
  config : SameSearchConfig s t
  build : t.config = s.config
  rx : t.rx = s.rx
  host : t.host = s.host
  hostAccepts : t.hostAccepts = s.hostAccepts
  accepted : t.accepted = s.accepted

theorem sameSearchConfig_trans {s t u : State} (h : SameSearchConfig s t) (h' : SameSearchConfig t u) :
    SameSearchConfig s u := by
  obtain ⟨htmpl, htlen, hnoff, hlo, hhi, hbound, hmode⟩ := h
  obtain ⟨htmpl', htlen', hnoff', hlo', hhi', hbound', hmode'⟩ := h'
  exact ⟨htmpl'.trans htmpl, htlen'.trans htlen, hnoff'.trans hnoff, hlo'.trans hlo, hhi'.trans hhi, hbound'.trans hbound,
    hmode'.trans hmode⟩

theorem EngineKeeps.trans {s t u : State} (h : EngineKeeps s t) (h' : EngineKeeps t u) : EngineKeeps s u where
  hasher := ⟨h'.hasher.1.trans h.hasher.1, h'.hasher.2.trans h.hasher.2⟩
  config := sameSearchConfig_trans h.config h'.config
  build := h'.build.trans h.build
  rx := h'.rx.trans h.rx
  host := h'.host.trans h.host
  hostAccepts := h'.hostAccepts.trans h.hostAccepts
  accepted := h'.accepted.trans h.accepted

theorem engineStep_keeps {s t : State} (h : engineStep s = .next t) : EngineKeeps s t := by
  obtain ⟨-, w, k, -, hw⟩ | ⟨-, -, rfl⟩ | ⟨-, -, rfl⟩ | ⟨-, -, rfl⟩ := engineStep_cases h
  · obtain ⟨hhasher, hconfig, hbuild, -, -, -, hrx, -, hhost, haccepts, haccepted, -⟩ := workerStep_frame hw
    exact ⟨hhasher, hconfig, hbuild, hrx, hhost, haccepts, haccepted⟩
  · exact ⟨⟨rfl, rfl⟩, (sameSearch_refl s).1, rfl, rfl, rfl, rfl, rfl⟩
  · exact ⟨⟨rfl, rfl⟩, (sameSearch_refl s).1, rfl, rfl, rfl, rfl, rfl⟩
  · exact ⟨⟨rfl, rfl⟩, (sameSearch_refl s).1, rfl, rfl, rfl, rfl, rfl⟩

/-- While a worker runs, a step is a worker's, and leaves fewer to come (43_search.md R254, R267). -/
theorem step_lowers_work {s : State} (h : Inv s) (hruns : SearchRuns s) (hrun : ¬ ∀ w ∈ s.workers, w.st = .stop) :
    ∃ t, step s = .next t ∧ work t < work s ∧ SearchRuns t ∧ EngineKeeps s t := by
  obtain ⟨hhost, hbusy, hs⟩ := hruns
  obtain ⟨⟨w, k⟩, hp⟩ := Option.ne_none_iff_exists'.mp (mt pickWorker_none.mp hrun)
  obtain ⟨hk, hst⟩ := pickWorker_some hp
  have hl : Loaded (useChoice s) := (h.search.loaded (by simp [hs])).congr rfl (sameSearch_refl s).1
  obtain ⟨t, ht⟩ := workerStep_completes hl k w
  have hengine : engineStep s = .next t := (engineStep_worker hs hp).trans ht
  have hkeeps := engineStep_keeps hengine
  obtain ⟨-, -, -, hsphase, -, hcmd, -⟩ := workerStep_frame ht
  refine ⟨t, (step_busy hhost hbusy).trans hengine, ?_, ⟨hkeeps.host.trans hhost, hcmd.trans hbusy, hsphase.trans hs⟩, hkeeps⟩
  have hw := h.search.worker_inv hs k w hk
  have stops (c : HashCtx) : { w with st := .stop, ctx := c }.work < w.work := by simp [Worker.work, hst]
  obtain ⟨-, rfl⟩ | ⟨-, -, -, c, rfl⟩ | ⟨-, hne, -, c, rfl⟩ := workerStep_moves hl h.build.config_wf.2.2 ht
  · exact work_setWorker_lt (s := useChoice s) hk (stops w.ctx)
  · exact work_setWorker_lt (s := { useChoice s with found := true, rnonce := w.cur }) hk (stops c)
  · have hlt := hw.cur_lt hne
    have hcur := toNat_add_one_of_lt hlt
    refine work_setWorker_lt (s := useChoice s) hk ?_
    simp only [Worker.work, hst, if_true, hcur]
    omega

/-- Whatever the schedule, every worker stops within the steps left. -/
theorem run_until_stopped {s : State} (h : Inv s) (hruns : SearchRuns s) : ∃ steps t, steps ≤ work s ∧
    Sys2Proof.core.run steps s = .next t ∧ Inv t ∧ SearchRuns t ∧ EngineKeeps s t ∧ ∀ w ∈ t.workers, w.st = .stop := by
  induction hn : work s using Nat.strong_induction_on generalizing s with
  | _ n ih =>
    by_cases hstop : ∀ w ∈ s.workers, w.st = .stop
    · exact ⟨0, s, Nat.zero_le _, rfl, h, hruns, ⟨⟨rfl, rfl⟩, (sameSearch_refl s).1, rfl, rfl, rfl, rfl, rfl⟩, hstop⟩
    · obtain ⟨t, hstep, hless, hruns', hkeeps⟩ := step_lowers_work h hruns hstop
      obtain ⟨steps, u, hsteps, hrun, hu, hruns'', hkeeps', hstop'⟩ :=
        ih (work t) (hn ▸ hless) (step_keeps_inv h hstep) hruns' rfl
      exact ⟨steps + 1, u, by omega, (run_succ hstep steps).trans hrun, hu, hruns'', hkeeps.trans hkeeps', hstop'⟩

/-- The response of an ended search: Found with the nonce of the slot, or Exhausted (43_search.md R260). -/
def EndsWith (t : State) : Prop :=
  (t.found = true ∧ t.tx = [0x00, 0x01] ++ (enc64 t.rnonce).toList) ∨
  (t.found = false ∧ t.tx = [0x00, 0x02] ++ List.replicate 8 0x00)

/-- Once every worker has stopped, the end step and the response follow (43_search.md R259, R260). -/
theorem run_response {s : State} (h : Inv s) (hruns : SearchRuns s) (hstop : ∀ w ∈ s.workers, w.st = .stop) :
    ∃ t, Sys2Proof.core.run 2 s = .next t ∧ t.cmdState = .ready ∧ t.sphase = .done ∧ EngineKeeps s t ∧ EndsWith t := by
  obtain ⟨hhost, hbusy, hs⟩ := hruns
  have hend := engineStep_end hs hstop
  have htx : (endStep s).tx = [] := h.port.busy_tx hbusy
  have answers {p : List Byte} (hr : searchResponse (endStep s) = .next (respond .ok p (endStep s)))
      (hp : EndsWith (respond .ok p (endStep s))) : ∃ t, Sys2Proof.core.run 2 s = .next t ∧ t.cmdState = .ready ∧
        t.sphase = .done ∧ EngineKeeps s t ∧ EndsWith t := by
    have hlast := (engineStep_done rfl).trans hr
    refine ⟨_, (run_succ ((step_busy hhost hbusy).trans hend) 1).trans
      (run_succ ((step_busy (s := endStep s) hhost hbusy).trans hlast) 0), rfl, rfl,
      (engineStep_keeps hend).trans (engineStep_keeps hlast), hp⟩
  cases hf : s.found with
  | true => exact answers (searchResponse_found (by simp [hf])) (.inl ⟨hf, by rw [respond_tx, htx]; rfl⟩)
  | false => exact answers (searchResponse_exhausted (by simp [hf])) (.inr ⟨hf, by rw [respond_tx, htx]; rfl⟩)

/-- A running search answers within its worker steps, the end step and the response (43_search.md R266, R267). -/
theorem run_answers {s : State} (h : Inv s) (hruns : SearchRuns s) : ∃ steps t,
    steps ≤ (s.hi.toNat - s.lo.toNat) + s.config.nworkers + 2 ∧ Sys2Proof.core.run steps s = .next t ∧ Inv t ∧
      t.cmdState = .ready ∧ t.sphase = .done ∧ EngineKeeps s t ∧ EndsWith t := by
  obtain ⟨steps, u, hsteps, hrun, hu, hruns', hkeeps, hstop⟩ := run_until_stopped h hruns
  obtain ⟨t, hlast, hready, hdone, hkeeps', hends⟩ := run_response hu hruns' hstop
  have hbound := work_le h hruns.searching
  have hwhole := (run_add steps 2 hrun).trans hlast
  exact ⟨steps + 2, t, by omega, hwhole, run_keeps_inv _ h hwhole, hready, hdone, hkeeps.trans hkeeps', hends⟩

/-- Settles O39: the run ends within the bound, and the invariant of its end says what the slot or the empty slot means. -/
theorem searchAnswersCorrectly : Obligations.SearchAnswersCorrectly := by
  unfold Obligations.SearchAnswersCorrectly
  intro s h hhost hbusy hs
  obtain ⟨steps, t, hsteps, hrun, ht, hready, hdone, hkeeps, hends⟩ := run_answers h ⟨hhost, hbusy, hs⟩
  have hq (n : DWord) : Qualifying t n ↔ Qualifying s n := qualifying_congr n hkeeps.build hkeeps.config
  obtain ⟨-, -, -, hlo, hhi, -, -⟩ := hkeeps.config
  refine ⟨steps, t, hsteps, hrun, hready, hdone, hkeeps.hasher, hkeeps.config, ?_⟩
  simp only [← hlo, ← hhi, ← hq]
  obtain ⟨hf, htx⟩ | ⟨hf, htx⟩ := hends
  · obtain ⟨hge, hlt, hqualifies⟩ := ht.search.found_sound hf
    exact .inl ⟨t.rnonce, htx, hge, hlt, hqualifies⟩
  · exact .inr ⟨htx, ht.search.exhausted_complete hdone hf⟩

end Sys2Proof.Machine
end

section
/-! The run of a finite command sequence comes to its end (70_reset_and_hazards.md R325; 30_encoding.md section 4). -/

namespace Sys2Proof.Machine

open Sys2Proof Sys2Proof.Laws

/-! ### One response a command -/

theorem isResponse_error (i : Instr) {st : Status} (hok : st ≠ .ok) (hillegal : st ≠ .illegalCmd) :
    IsResponse (.legal i) [st.code] :=
  ⟨st, [], hillegal, rfl, (if_neg hok).symm⟩

theorem isResponse_ok {i : Instr} {p : List Byte} (hp : p.length = payloadLength i) : IsResponse (.legal i) (0x00 :: p) :=
  ⟨.ok, p, by decide, rfl, hp⟩

/-- The bytes of a SEARCH's answer are one whole response to it (43_search.md R260; 30_encoding.md R108). -/
theorem EndsWith.isResponse {i : Instr} {t : State} (h : EndsWith t) (hi : payloadLength i = 9) :
    IsResponse (.legal i) t.tx := by
  obtain ⟨-, htx⟩ | ⟨-, htx⟩ := h <;> rw [htx]
  · exact isResponse_ok (p := 0x01 :: (enc64 t.rnonce).toList) (by simp [hi])
  · exact isResponse_ok (p := 0x02 :: List.replicate 8 0x00) (by simp [hi])

/-- A command's own step sends one whole response to it, or starts a search and sends nothing yet. -/
theorem exec_response (i : Instr) (s : State) : ∃ t, exec i s = .next t ∧
    ((t.cmdState = .ready ∧ ∃ r, IsResponse (.legal i) r ∧ t.tx = s.tx ++ r) ∨
      (t.cmdState = .busy ∧ t.sphase = .searching ∧ payloadLength i = 9)) := by
  have search {m : Mode} {noff : Word} {lo hi : DWord} {bound : U256} {tdata : List Byte}
      (hexec : exec i s = startSearch m noff lo hi bound tdata s) (hi : payloadLength i = 9) : ∃ t, exec i s = .next t ∧
        ((t.cmdState = .ready ∧ ∃ r, IsResponse (.legal i) r ∧ t.tx = s.tx ++ r) ∨
          (t.cmdState = .busy ∧ t.sphase = .searching ∧ payloadLength i = 9)) := by
    obtain ⟨-, e⟩ | ⟨-, -, -, -, e⟩ := startSearch_cases m noff lo _ bound tdata s
    · exact ⟨_, hexec.trans e, .inl ⟨rfl, _, isResponse_error i (by decide) (by decide), respond_tx ..⟩⟩
    · exact ⟨_, hexec.trans e, .inr ⟨rfl, rfl, hi⟩⟩
  cases i with
  | init => exact ⟨_, exec_init s, .inl ⟨rfl, _, isResponse_ok rfl, respond_tx ..⟩⟩
  | update data =>
    obtain ⟨-, e⟩ | ⟨-, e⟩ | ⟨-, -, e⟩ | ⟨-, -, e⟩ := exec_update_cases data s <;>
      refine ⟨_, e, .inl ⟨rfl, _, ?_, respond_tx ..⟩⟩
    · exact isResponse_error _ (by decide) (by decide)
    · exact isResponse_error _ (by decide) (by decide)
    · exact isResponse_error _ (by decide) (by decide)
    · exact isResponse_ok rfl
  | finalize =>
    obtain ⟨-, e⟩ | ⟨-, e⟩ | ⟨-, e⟩ := exec_finalize_cases s <;> refine ⟨_, e, .inl ⟨rfl, _, ?_, respond_tx ..⟩⟩
    · exact isResponse_error _ (by decide) (by decide)
    · exact isResponse_error _ (by decide) (by decide)
    · exact isResponse_ok Vector.length_toList
  | hash data =>
    obtain hcap | hcap := Nat.lt_or_ge LEN_CAP data.length
    · exact ⟨_, exec_hash_overCap s hcap, .inl ⟨rfl, _, isResponse_error _ (by decide) (by decide), respond_tx ..⟩⟩
    · exact ⟨_, exec_hash_fits s hcap, .inl ⟨rfl, _, isResponse_ok Vector.length_toList, respond_tx ..⟩⟩
  | compress vin blk =>
    exact ⟨_, exec_compress vin blk s, .inl ⟨rfl, _, isResponse_ok Vector.length_toList, respond_tx ..⟩⟩
  | status => exact ⟨_, exec_status s, .inl ⟨rfl, _, isResponse_ok (by simp [payloadLength]), respond_tx ..⟩⟩
  | searchLt noff lo hi bound tdata => exact search (m := .lt) rfl rfl
  | searchLte noff lo hi bound tdata => exact search (m := .lte) rfl rfl

/-! ### One command -/

/-- CORE between two commands: the port is READY, the host does nothing more, and `rx` is on the command stream. -/
structure Between (s : State) (rx : List Byte) : Prop where
  inv : Inv s
  host : s.host = []
  ready : s.cmdState = .ready
  rx_eq : s.rx = rx

/-- A READY port with no response pending takes a whole frame, legal or not, and the run goes on to the command's response:
at once, or after the search it started (30_encoding.md R102, R108; 43_search.md R260). -/
theorem run_command {c : Command} {rest : List Byte} {s : State} (hwf : c.wf = true) (h : Between s (c.frame ++ rest))
    (htx : s.tx = []) : ∃ steps t, Sys2Proof.core.run steps s = .next t ∧ Between t rest ∧
      t.hostAccepts = s.hostAccepts ∧ t.accepted = s.accepted ∧ IsResponse c t.tx := by
  obtain ⟨hinv, hhost, hready, hrx⟩ := h
  cases c with
  | illegal w =>
    cases hc : classifyHeader w with
    | ok hd => simp [Command.wf, hc, Except.isOk, Except.toBool] at hwf
    | error why =>
      have hd : decode s.rx = .illegal why rest := hrx ▸ decode_enc32_eq_illegal_iff.mpr ⟨hc, rfl⟩
      have hstep := step_illegal hhost hready htx hd
      refine ⟨1, _, run_succ hstep 0, ⟨step_keeps_inv hinv hstep, hhost, rfl, rfl⟩, rfl, rfl, ?_⟩
      rw [respond_tx, takeFrame_tx, htx]
      rfl
  | legal i =>
    have hd : decode s.rx = .command i rest := hrx ▸ decode_encode_append rest hwf
    obtain ⟨t, ht, hanswer⟩ := exec_response i (takeFrame rest s)
    have hstep : step s = .next t := (step_command hhost hready htx hd).trans ht
    have hinv' := step_keeps_inv hinv hstep
    obtain ⟨⟨-, hrx', hhost', haccepts, haccepted, -⟩, -⟩ := exec_outside i _ t ht
    obtain ⟨hready', r, hr, htx'⟩ | ⟨hbusy, hs, hlen⟩ := hanswer
    · refine ⟨1, t, run_succ hstep 0, ⟨hinv', hhost'.trans hhost, hready', hrx'⟩, haccepts, haccepted, ?_⟩
      rwa [htx', takeFrame_tx, htx]
    · obtain ⟨steps, u, -, hrun, hinv'', hready'', -, hkeeps, hends⟩ := run_answers hinv' ⟨hhost'.trans hhost, hbusy, hs⟩
      exact ⟨steps + 1, u, (run_succ hstep steps).trans hrun,
        ⟨hinv'', hkeeps.host.trans (hhost'.trans hhost), hready'', hkeeps.rx.trans hrx'⟩,
        hkeeps.hostAccepts.trans haccepts, hkeeps.accepted.trans haccepted, hends.isResponse hlen⟩

/-- A host that accepts takes a pending response first (70_reset_and_hazards.md R331). -/
theorem run_accepts {rx : List Byte} {s : State} (h : Between s rx) (ha : s.hostAccepts = true ∨ s.tx = []) :
    ∃ steps t, Sys2Proof.core.run steps s = .next t ∧ Between t rx ∧ t.tx = [] ∧ t.hostAccepts = s.hostAccepts ∧
      sentBytes t = sentBytes s := by
  by_cases htx : s.tx = []
  · exact ⟨0, s, rfl, h, htx, rfl, rfl⟩
  · have hstep := (step_quiet h.host).trans (coreStep_accepts h.ready htx (ha.resolve_right htx))
    exact ⟨1, _, run_succ hstep 0, ⟨step_keeps_inv h.inv hstep, h.host, h.ready, h.rx_eq⟩, rfl, rfl, by simp [sentBytes]⟩

/-! ### The whole sequence -/

/-- The end of the rest of a run is the end of the whole run, with one more response in front. -/
theorem AtEnd.cons {s u t : State} {c : Command} {cmds : List Command} {r : List Byte} (h : AtEnd u cmds t)
    (hr : IsResponse c r) (hsent : sentBytes u = sentBytes s ++ r) : AtEnd s (c :: cmds) t := by
  obtain ⟨⟨responses, hall, hbytes⟩, hready, hsearch⟩ := h
  refine ⟨⟨r :: responses, .cons hr hall, ?_⟩, hready, hsearch⟩
  rw [hbytes, hsent, List.flatten_cons, List.append_assoc]

/-- By induction on the commands: the pending response is accepted, the next frame is run to its response, and the rest
follows from there. The last response stays on the response stream. -/
theorem run_commands : ∀ (cmds : List Command) {s : State}, (∀ c ∈ cmds, c.wf = true) →
    Between s (cmds.map Command.frame).flatten →
    (s.hostAccepts = true ∨ cmds = [] ∨ s.tx = [] ∧ cmds.length ≤ 1) →
    ∃ steps t, Sys2Proof.core.run steps s = .next t ∧ AtEnd s cmds t ∧ t.rx = [] ∧ (cmds ≠ [] ∨ s.tx ≠ [] → t.tx ≠ [])
  | [], s, _, h, _ =>
    ⟨0, s, rfl, ⟨⟨[], .nil, (List.append_nil _).symm⟩, h.ready, h.inv.port.ready_not_searching h.ready⟩, h.rx_eq,
      fun hpending => hpending.resolve_left (by simp)⟩
  | c :: cmds, s, hwf, h, hhost => by
    obtain ⟨hc, hcmds⟩ := List.forall_mem_cons.mp hwf
    have haccepts : s.hostAccepts = true ∨ s.tx = [] := hhost.imp_right fun hone => (hone.resolve_left (by simp)).1
    obtain ⟨a, s₁, hrun₁, h₁, htx₁, hacc₁, hsent₁⟩ := run_accepts h haccepts
    obtain ⟨b, s₂, hrun₂, h₂, hacc₂, haccepted₂, hr⟩ := run_command hc h₁ htx₁
    have hsent : sentBytes s₂ = sentBytes s ++ s₂.tx := by
      rw [← hsent₁]
      simp only [sentBytes, htx₁, haccepted₂, List.append_nil]
    have hhost₂ : s₂.hostAccepts = true ∨ cmds = [] ∨ s₂.tx = [] ∧ cmds.length ≤ 1 := by
      refine hhost.imp (hacc₂.trans hacc₁).trans fun hone => .inl (List.length_eq_zero_iff.mp ?_)
      have := (hone.resolve_left (by simp)).2
      rw [List.length_cons] at this
      omega
    obtain ⟨n, t, hrun, hend, hrx, hpending⟩ := run_commands cmds hcmds h₂ hhost₂
    exact ⟨a + (b + n), t, ((run_add a _ hrun₁).trans (run_add b n hrun₂)).trans hrun, hend.cons hr hsent, hrx,
      fun _ => hpending (.inr hr.ne_nil)⟩

/-- A run that has sent nothing has not reached the end of a command. -/
theorem not_atEnd_self {cmds : List Command} {s : State} (hne : cmds ≠ []) : ¬ AtEnd s cmds s := by
  rintro ⟨⟨responses, hall, hbytes⟩, -, -⟩
  have hnil : responses.flatten = [] := List.append_right_eq_self.mp hbytes.symm
  cases hall with
  | nil => exact hne rfl
  | cons hr _ => exact hr.ne_nil (List.append_eq_nil_iff.mp hnil).1

/-- Settles O49: `run_commands` from the READY state, before which nothing has been sent. -/
theorem everyRunEndsWithItsResponses : Obligations.EveryRunEndsWithItsResponses := by
  unfold Obligations.EveryRunEndsWithItsResponses
  intro cmds s hwf h hhost hready hrx haccepts
  obtain ⟨steps, t, hrun, hend, hrx', hpending⟩ := run_commands cmds hwf ⟨h, hhost, hready, hrx⟩ (haccepts.imp_right .inr)
  exact ⟨not_atEnd_self, steps, t, hrun, hend, hrx', fun hne => hpending (.inl hne)⟩

end Sys2Proof.Machine
end
